-- ==== Sys2Proof/Word.lean ====
section
/-! DEFINITION. The 32-bit word and its plain conversions to and from integers (00_scope.md R7, R8, R9). -/

namespace Sys2Proof

/-- A word: a 32-bit unsigned value, bit 0 least significant (R7, R8). -/
abbrev Word := BitVec 32

/-- `sext_32`: the integer a word spells in two's complement (R8). -/
def sext32 (w : Word) : Int := w.toInt

/-- `zext_32`: the word read as an unsigned integer (R8). -/
def zext32 (w : Word) : Nat := w.toNat

/-- `word(n)`: an integer reduced modulo 2^32 (R8). -/
def wordOf (n : Int) : Word := BitVec.ofInt 32 n

/-- A boolean result travels as the word 1 or 0 (R9). -/
def boolWord (b : Bool) : Word := if b then 1 else 0

end Sys2Proof
end

