-- ==== Sys2Proof/Config.lean ====
section
/-! DEFINITION. What an implementation fixes (00_scope.md R5) and the free value of unspecified host reads
(93_implementation_defined.md U6, U7). -/

namespace Sys2Proof

/-- `NSLOT`, a parameter with 1 <= NSLOT <= 16 and default 4 (R5, D2). The machine reads it from its `CFG`
register; this default is the value `State.reset` puts there (DESIGN CHOICE, log 1). -/
def Config.nslot : Nat := 4

/-- `MAX_SAFE_SIZE` = floor((2^32 - 1) / 8) (R5); the only conforming value (R6). -/
def Config.maxSafeSize : Nat := 536870911

/-- `MAX_WORDS` = ceil(MAX_SAFE_SIZE / 32) = 2^24 (R5). -/
def Config.maxWords : Nat := 16777216

/-- FREE VALUE (log 5): the word returned by the `n`-th host read whose value the spec leaves unspecified
(a read of a write-only register, U6; a read of `OUT` with no beat pending, U7). Nothing constrains it. -/
opaque Config.freeWord : Nat → Word

end Sys2Proof
end

