-- ==== Sys2Proof/Syntax.lean ====
section
/-! DEFINITION. The command packet (30_encoding.md R70) and the 25 commands, one constructor per row of
opcode_table.json (30_encoding.md R75). A command carries its live fields and the operand words it uses, nothing
else: operand words a command does not use are ignored (R74; log 9). -/

namespace Sys2Proof

/-- A slot number as the 4-bit fields `VD`, `VA`, `VB` hold it, 0 .. 15 (R71, R77). -/
abbrev Slot := Fin 16

/-- One command packet: the command word, the two operand words and the payload beats (R70). -/
structure Packet where
  cmd : Word
  arg0 : Word
  arg1 : Word
  payload : List Word
  deriving DecidableEq, Repr

/-- The commands, in the order of R75. Operand words are kept as the raw words of the packet; the meanings read
them as signed integers (R73). -/
inductive Instr where
  /-- `CREATE vd, size` (R101). -/
  | create (vd : Slot) (size : Word)
  /-- `LOADW vd, size, {words}` (R102). -/
  | loadw (vd : Slot) (size : Word) (words : List Word)
  /-- `COPY vd, va` (R104). -/
  | copy (vd va : Slot)
  /-- `FREE vd` (R105). -/
  | free (vd : Slot)
  /-- `VSIZE va` (R107). -/
  | vsize (va : Slot)
  /-- `RDW va, k` (R108). -/
  | rdw (va : Slot) (k : Word)
  /-- `GETB va, i` (R121). -/
  | getb (va : Slot) (i : Word)
  /-- `SETB vd, i, val` (R122). -/
  | setb (vd : Slot) (val : Bool) (i : Word)
  /-- `TGLB vd, i` (R123). -/
  | tglb (vd : Slot) (i : Word)
  /-- `GETR va, start, count` (R124). -/
  | getr (va : Slot) (start count : Word)
  /-- `SETR vd, start, count, val` (R126). -/
  | setr (vd : Slot) (val : Bool) (start count : Word)
  /-- `FILL vd, val` (R127). -/
  | fill (vd : Slot) (val : Bool)
  /-- `AND vd, va, vb` (R143). -/
  | and (vd va vb : Slot)
  /-- `OR vd, va, vb` (R144). -/
  | or (vd va vb : Slot)
  /-- `XOR vd, va, vb` (R145). -/
  | xor (vd va vb : Slot)
  /-- `NAND vd, va, vb` (R146). -/
  | nand (vd va vb : Slot)
  /-- `NOR vd, va, vb` (R147). -/
  | nor (vd va vb : Slot)
  /-- `XNOR vd, va, vb` (R148). -/
  | xnor (vd va vb : Slot)
  /-- `DIFF vd, va, vb` (R149). -/
  | diff (vd va vb : Slot)
  /-- `NOT vd, va` (R150). -/
  | not (vd va : Slot)
  /-- `EQ va, vb` (R151). -/
  | eq (va vb : Slot)
  /-- `POPC va` (R161). -/
  | popc (va : Slot)
  /-- `IDXOF va, val, fromIndex` (R163). -/
  | idxof (va : Slot) (val : Bool) (fromIndex : Word)
  /-- `LIDXOF va, val, fromIndex` (R165). -/
  | lidxof (va : Slot) (val : Bool) (fromIndex : Word)
  /-- `TIDX va, start, end` (R181). -/
  | tidx (va : Slot) (start stop : Word)
  deriving DecidableEq, Repr

end Sys2Proof
end

