-- ==== Sys2Proof/WellFormed.lean ====
section
/-! DEFINITION. Which commands a packet can spell on an engine with `nslot` slots: every live slot field names a slot
(30_encoding.md R76 condition 4, R77), and the payload length of `LOADW` fits its operand word `ARG1` (R73, R81). -/

namespace Sys2Proof

/-- A slot number names a slot when it is below `NSLOT` (R77). -/
def Slot.ok (nslot : Nat) (a : Slot) : Bool := decide (a.val < nslot)

/-- The live slot fields of a command, in the order destination, left source, right source (R72). -/
def Instr.liveSlots : Instr → List Slot
  | .create vd _ => [vd]
  | .loadw vd _ _ => [vd]
  | .copy vd va => [vd, va]
  | .free vd => [vd]
  | .vsize va => [va]
  | .rdw va _ => [va]
  | .getb va _ => [va]
  | .setb vd _ _ => [vd]
  | .tglb vd _ => [vd]
  | .getr va _ _ => [va]
  | .setr vd _ _ _ => [vd]
  | .fill vd _ => [vd]
  | .and vd va vb => [vd, va, vb]
  | .or vd va vb => [vd, va, vb]
  | .xor vd va vb => [vd, va, vb]
  | .nand vd va vb => [vd, va, vb]
  | .nor vd va vb => [vd, va, vb]
  | .xnor vd va vb => [vd, va, vb]
  | .diff vd va vb => [vd, va, vb]
  | .not vd va => [vd, va]
  | .eq va vb => [va, vb]
  | .popc va => [va]
  | .idxof va _ _ => [va]
  | .lidxof va _ _ => [va]
  | .tidx va _ _ => [va]

/-- The payload of a command: only `LOADW` has one (R70, R74). -/
def Instr.payloadOf : Instr → List Word
  | .loadw _ _ ws => ws
  | _ => []

/-- The payload length is representable in `ARG1` (R73, R81). -/
def Instr.payloadFits (i : Instr) : Bool := decide (i.payloadOf.length < 4294967296)

/-- A command an engine with `nslot` slots can be asked for. -/
def Instr.wf (nslot : Nat) (i : Instr) : Bool := i.liveSlots.all (Slot.ok nslot) && i.payloadFits

end Sys2Proof
end

