-- ==== Sys2Proof/Decode.lean ====
section
/-! DEFINITION. The decoder of command packets (30_encoding.md R71 to R78) and the encoder written from the same layout.
Decoding is total; a packet that is no command is rejected by the name of the condition it meets. -/

namespace Sys2Proof

/-- Why a packet is not decoded. The first five are the conditions of R76, in its order, each of which makes the engine
raise `IllegalCommand`; the last is the packet R81 calls not well-formed, for which the spec has no step (U4). -/
inductive DecodeError where
  /-- `CMD[31:21] != 0` (R76 condition 1). -/
  | reservedBits
  /-- `CMD.OP` is none of the 25 opcodes (R76 condition 2). -/
  | reservedOpcode
  /-- a field that is not live for the command's format is not 0 (R76 condition 3). -/
  | deadField
  /-- a live slot field is `>= NSLOT` (R76 condition 4). -/
  | slotNumber
  /-- a payload on a command other than `LOADW` (R76 condition 5). -/
  | strayPayload
  /-- a `LOADW` packet whose `ARG1` is not its number of payload beats (R81, U4). -/
  | payloadLength
  deriving DecidableEq, Repr

/-- The formats of R72: which fields of the command word are live. -/
inductive Format where
  | D | DV | A | AV | DA | DAB | AB
  deriving DecidableEq, Repr

def Format.usesVD : Format → Bool
  | .D | .DV | .DA | .DAB => true
  | .A | .AV | .AB => false

def Format.usesVA : Format → Bool
  | .A | .AV | .DA | .DAB | .AB => true
  | .D | .DV => false

def Format.usesVB : Format → Bool
  | .DAB | .AB => true
  | .D | .DV | .A | .AV | .DA => false

def Format.usesVAL : Format → Bool
  | .DV | .AV => true
  | .D | .A | .DA | .DAB | .AB => false

/-- `CMD.OP`, bits [7:0] (R71). -/
def fieldOP (w : Word) : BitVec 8 := w.extractLsb' 0 8
/-- `CMD.VD`, bits [11:8] (R71). -/
def fieldVD (w : Word) : Slot := ⟨(w.extractLsb' 8 4).toNat, (w.extractLsb' 8 4).isLt⟩
/-- `CMD.VA`, bits [15:12] (R71). -/
def fieldVA (w : Word) : Slot := ⟨(w.extractLsb' 12 4).toNat, (w.extractLsb' 12 4).isLt⟩
/-- `CMD.VB`, bits [19:16] (R71). -/
def fieldVB (w : Word) : Slot := ⟨(w.extractLsb' 16 4).toNat, (w.extractLsb' 16 4).isLt⟩
/-- `CMD.VAL`, bit [20] (R71). -/
def fieldVAL (w : Word) : Bool := w.getLsbD 20
/-- The reserved bits [31:21] (R71). -/
def fieldReserved (w : Word) : BitVec 11 := w.extractLsb' 21 11

/-- One row of the opcode map (R75): the opcode number, the mnemonic, the format, and the command the row's packets
spell. -/
structure OpcodeRow where
  op : BitVec 8
  mnemonic : String
  format : Format
  build : Packet → Instr

def lifecycleRows : List OpcodeRow :=
  [ ⟨0x01, "CREATE", .D, fun p => .create (fieldVD p.cmd) p.arg0⟩,
    ⟨0x02, "LOADW", .D, fun p => .loadw (fieldVD p.cmd) p.arg0 p.payload⟩,
    ⟨0x03, "COPY", .DA, fun p => .copy (fieldVD p.cmd) (fieldVA p.cmd)⟩,
    ⟨0x04, "FREE", .D, fun p => .free (fieldVD p.cmd)⟩,
    ⟨0x05, "VSIZE", .A, fun p => .vsize (fieldVA p.cmd)⟩,
    ⟨0x06, "RDW", .A, fun p => .rdw (fieldVA p.cmd) p.arg0⟩ ]

def bitRangeRows : List OpcodeRow :=
  [ ⟨0x10, "GETB", .A, fun p => .getb (fieldVA p.cmd) p.arg0⟩,
    ⟨0x11, "SETB", .DV, fun p => .setb (fieldVD p.cmd) (fieldVAL p.cmd) p.arg0⟩,
    ⟨0x12, "TGLB", .D, fun p => .tglb (fieldVD p.cmd) p.arg0⟩,
    ⟨0x13, "GETR", .A, fun p => .getr (fieldVA p.cmd) p.arg0 p.arg1⟩,
    ⟨0x14, "SETR", .DV, fun p => .setr (fieldVD p.cmd) (fieldVAL p.cmd) p.arg0 p.arg1⟩,
    ⟨0x15, "FILL", .DV, fun p => .fill (fieldVD p.cmd) (fieldVAL p.cmd)⟩ ]

def bitwiseRows : List OpcodeRow :=
  [ ⟨0x20, "AND", .DAB, fun p => .and (fieldVD p.cmd) (fieldVA p.cmd) (fieldVB p.cmd)⟩,
    ⟨0x21, "OR", .DAB, fun p => .or (fieldVD p.cmd) (fieldVA p.cmd) (fieldVB p.cmd)⟩,
    ⟨0x22, "XOR", .DAB, fun p => .xor (fieldVD p.cmd) (fieldVA p.cmd) (fieldVB p.cmd)⟩,
    ⟨0x23, "NAND", .DAB, fun p => .nand (fieldVD p.cmd) (fieldVA p.cmd) (fieldVB p.cmd)⟩,
    ⟨0x24, "NOR", .DAB, fun p => .nor (fieldVD p.cmd) (fieldVA p.cmd) (fieldVB p.cmd)⟩,
    ⟨0x25, "XNOR", .DAB, fun p => .xnor (fieldVD p.cmd) (fieldVA p.cmd) (fieldVB p.cmd)⟩,
    ⟨0x26, "DIFF", .DAB, fun p => .diff (fieldVD p.cmd) (fieldVA p.cmd) (fieldVB p.cmd)⟩,
    ⟨0x27, "NOT", .DA, fun p => .not (fieldVD p.cmd) (fieldVA p.cmd)⟩,
    ⟨0x28, "EQ", .AB, fun p => .eq (fieldVA p.cmd) (fieldVB p.cmd)⟩ ]

def searchRows : List OpcodeRow :=
  [ ⟨0x30, "POPC", .A, fun p => .popc (fieldVA p.cmd)⟩,
    ⟨0x31, "IDXOF", .AV, fun p => .idxof (fieldVA p.cmd) (fieldVAL p.cmd) p.arg0⟩,
    ⟨0x32, "LIDXOF", .AV, fun p => .lidxof (fieldVA p.cmd) (fieldVAL p.cmd) p.arg0⟩,
    ⟨0x40, "TIDX", .A, fun p => .tidx (fieldVA p.cmd) p.arg0 p.arg1⟩ ]

/-- The opcode map of R75, grouped by family. -/
def opcodeTable : List OpcodeRow := lifecycleRows ++ bitRangeRows ++ bitwiseRows ++ searchRows

/-- The row an opcode names, if it is one of the 25 (R75, R76 condition 2). -/
def rowOf (op : BitVec 8) : Option OpcodeRow := opcodeTable.find? (fun r => r.op == op)

/-- The opcode of `LOADW`, the only command with a payload (R70, R74). -/
def opLOADW : BitVec 8 := 0x02

/-- The command-word mask of a format, spelled out in R75: the opcode, the reserved bits and every dead field. -/
def Format.mask (f : Format) : Word :=
  0xFFE000FF ||| (if f.usesVD then 0 else 0x00000F00) ||| (if f.usesVA then 0 else 0x0000F000) |||
    (if f.usesVB then 0 else 0x000F0000) ||| (if f.usesVAL then 0 else 0x00100000)

/-- The `match` column of R75. -/
def OpcodeRow.pattern (r : OpcodeRow) : Word := r.op.setWidth 32

/-- Condition 3 of R76: a field that is not live for the format is non-zero. -/
def deadFieldSet (f : Format) (w : Word) : Bool :=
  (!f.usesVD && fieldVD w != 0) || (!f.usesVA && fieldVA w != 0) || (!f.usesVB && fieldVB w != 0) ||
    (!f.usesVAL && fieldVAL w)

/-- Condition 4 of R76: a live slot field is `>= NSLOT`. -/
def slotNumberBad (nslot : Nat) (f : Format) (w : Word) : Bool :=
  (f.usesVD && !Slot.ok nslot (fieldVD w)) || (f.usesVA && !Slot.ok nslot (fieldVA w)) ||
    (f.usesVB && !Slot.ok nslot (fieldVB w))

/-- The decode stage (R78): the five conditions of R76 in order, from the packet and `NSLOT` alone, and then the framing
of a `LOADW` payload (R81). -/
def decode (nslot : Nat) (p : Packet) : Except DecodeError Instr :=
  if fieldReserved p.cmd ≠ 0 then .error .reservedBits
  else
    match rowOf (fieldOP p.cmd) with
    | none => .error .reservedOpcode
    | some r =>
      if deadFieldSet r.format p.cmd then .error .deadField
      else if slotNumberBad nslot r.format p.cmd then .error .slotNumber
      else if r.op ≠ opLOADW ∧ p.payload ≠ [] then .error .strayPayload
      else if r.op = opLOADW ∧ zext32 p.arg1 ≠ p.payload.length then .error .payloadLength
      else .ok (r.build p)

/-- `CMD = OP | VD << 8 | VA << 12 | VB << 16 | VAL << 20` (R71), written as its fields side by side. -/
def cmdWord (op : BitVec 8) (vd va vb : Slot) (val : Bool) : Word :=
  0#11 ++ BitVec.ofBool val ++ BitVec.ofNat 4 vb.val ++ BitVec.ofNat 4 va.val ++ BitVec.ofNat 4 vd.val ++ op

/-- The packet of a command. Dead fields are 0 (R74); operand words the command does not use are assembled as 0 (R79);
`LOADW` carries its payload length in `ARG1` (R81). -/
def encode : Instr → Packet
  | .create vd size => ⟨cmdWord 0x01 vd 0 0 false, size, 0, []⟩
  | .loadw vd size ws => ⟨cmdWord 0x02 vd 0 0 false, size, BitVec.ofNat 32 ws.length, ws⟩
  | .copy vd va => ⟨cmdWord 0x03 vd va 0 false, 0, 0, []⟩
  | .free vd => ⟨cmdWord 0x04 vd 0 0 false, 0, 0, []⟩
  | .vsize va => ⟨cmdWord 0x05 0 va 0 false, 0, 0, []⟩
  | .rdw va k => ⟨cmdWord 0x06 0 va 0 false, k, 0, []⟩
  | .getb va i => ⟨cmdWord 0x10 0 va 0 false, i, 0, []⟩
  | .setb vd val i => ⟨cmdWord 0x11 vd 0 0 val, i, 0, []⟩
  | .tglb vd i => ⟨cmdWord 0x12 vd 0 0 false, i, 0, []⟩
  | .getr va start count => ⟨cmdWord 0x13 0 va 0 false, start, count, []⟩
  | .setr vd val start count => ⟨cmdWord 0x14 vd 0 0 val, start, count, []⟩
  | .fill vd val => ⟨cmdWord 0x15 vd 0 0 val, 0, 0, []⟩
  | .and vd va vb => ⟨cmdWord 0x20 vd va vb false, 0, 0, []⟩
  | .or vd va vb => ⟨cmdWord 0x21 vd va vb false, 0, 0, []⟩
  | .xor vd va vb => ⟨cmdWord 0x22 vd va vb false, 0, 0, []⟩
  | .nand vd va vb => ⟨cmdWord 0x23 vd va vb false, 0, 0, []⟩
  | .nor vd va vb => ⟨cmdWord 0x24 vd va vb false, 0, 0, []⟩
  | .xnor vd va vb => ⟨cmdWord 0x25 vd va vb false, 0, 0, []⟩
  | .diff vd va vb => ⟨cmdWord 0x26 vd va vb false, 0, 0, []⟩
  | .not vd va => ⟨cmdWord 0x27 vd va 0 false, 0, 0, []⟩
  | .eq va vb => ⟨cmdWord 0x28 0 va vb false, 0, 0, []⟩
  | .popc va => ⟨cmdWord 0x30 0 va 0 false, 0, 0, []⟩
  | .idxof va val f => ⟨cmdWord 0x31 0 va 0 val, f, 0, []⟩
  | .lidxof va val f => ⟨cmdWord 0x32 0 va 0 val, f, 0, []⟩
  | .tidx va start stop => ⟨cmdWord 0x40 0 va 0 false, start, stop, []⟩

/-- The packet whose bits are `w`: `CMD` in bits 31..0, `ARG0` in 63..32, `ARG1` in 95..64; every bit at or above `nbits`
is 0 and there is no payload (the table's rows have 32 bits). -/
def packetOfBits (nbits w : Nat) : Packet :=
  let bits := w % 2 ^ nbits
  ⟨BitVec.ofNat 32 bits, BitVec.ofNat 32 (bits / 2 ^ 32), BitVec.ofNat 32 (bits / 2 ^ 64), []⟩

/-- What the decoder of the default engine reads from an instruction whose bits are `w`. -/
def decodeTableWord (nbits w : Nat) : Option Instr :=
  match decode Config.nslot (packetOfBits nbits w) with
  | .ok i => some i
  | .error _ => none

end Sys2Proof
end

