-- ==== Sys2Proof/Machine/Bits.lean ====
section
/-! DEFINITION. The helper functions of 00_scope.md R10 on integers and words, and find-first and find-last set
(43_count_search.md R164, R166). -/

namespace Sys2Proof.Machine

/-- `wordCount(n)` = ceil(n / 32) (R10). -/
def wordCount (n : Nat) : Nat := (n + 31) / 32

/-- `tailBits(n)` = n mod 32 (R10). -/
def tailBits (n : Nat) : Nat := n % 32

/-- `tailMask(n)`: all ones if `tailBits(n) == 0`, else `(1 << tailBits(n)) - 1` (R10, 10_state.md R24). -/
def tailMask (n : Nat) : Word := if tailBits n = 0 then 0xFFFFFFFF else ((1 : Word) <<< tailBits n) - 1

/-- `chunk(i)` = i >> 5, the word that holds logical index `i` (R10, 20_memory.md R51). -/
def chunk (i : Nat) : Nat := i / 32

/-- `off(i)` = i & 31, the bit offset of logical index `i` (R10, 20_memory.md R51). -/
def off (i : Nat) : Nat := i % 32

/-- `bitmask(i)` = 1 << off(i) (R10, 20_memory.md R51). -/
def bitmask (i : Nat) : Word := (1 : Word) <<< off i

/-- `low(n)` = 2^n - 1 as a word, for 0 <= n <= 32 (R10). -/
def low (n : Nat) : Word := BitVec.ofNat 32 (2 ^ n - 1)

/-- `span(lo, hi)`: the word with bits lo .. hi-1 set (R10). -/
def span (lo hi : Nat) : Word := low hi &&& ~~~(low lo)

/-- The positions of the 1 bits of a word, ascending. -/
def setPositions (w : Word) : List Nat := (List.range 32).filter (fun b => w.getLsbD b)

/-- `popcount32(w)`: the number of 1 bits (R10, 43_count_search.md R162). -/
def popcount32 (w : Word) : Nat := (setPositions w).length

/-- `clz32(w)`: the number of 0 bits above the highest 1 bit; 32 when `w == 0` (R10). -/
def clz32 (w : Word) : Nat := ((List.range 32).takeWhile (fun b => !w.getLsbD (31 - b))).length

/-- `ffs32(x)`: the position of the lowest 1 bit (43_count_search.md R164); never applied to 0. -/
def ffs32 (w : Word) : Nat := (setPositions w).headD 0

/-- `fls32(x)`: the position of the highest 1 bit (43_count_search.md R166); never applied to 0. -/
def fls32 (w : Word) : Nat := (setPositions w).getLastD 0

/-- The four-step SWAR sequence of R162, equal to `popcount32`; no meaning uses it. -/
def popcountSWAR (w : Word) : Word :=
  let x1 := w - ((w >>> 1) &&& 0x55555555)
  let x2 := (x1 &&& 0x33333333) + ((x1 >>> 2) &&& 0x33333333)
  let x3 := (x2 + (x2 >>> 4)) &&& 0x0F0F0F0F
  (x3 * 0x01010101) >>> 24

/-- The find-first-set formula of R164: a leading-zero count on the isolated lowest set bit. -/
def ffsFormula (x : Word) : Nat := 31 - clz32 (x &&& -x)

/-- The find-last-set formula of R166. -/
def flsFormula (x : Word) : Nat := 31 - clz32 x

end Sys2Proof.Machine
end

