-- ==== Sys2Proof/Machine/State.lean ====
section
/-! DEFINITION. The state of the engine (10_state.md), as plain data, and the state after reset (10_state.md R38).
The fields `inbox`, `rdata` and `freeCount` are the model's own; every other field is the spec's. -/

namespace Sys2Proof.Machine

/-- The words of one vector: (word number, word) pairs, word numbers strictly rising, no word 0. A word that is not listed
reads 0 (the zero-fill of R101, R103). The smallest stored unit is the 32-bit word: the engine has no byte view
(20_memory.md R60; log 6). -/
abbrev Memory := List (Nat × Word)

/-- A vector: its logical bit count `SIZE` and its words `W` (R21). `WORDCOUNT`, `TAILBITS` and `TAILMASK` are functions of
`SIZE` and are recomputed, as R24 allows (log 7). -/
structure PackedVector where
  size : Nat
  words : Memory
  deriving DecidableEq, Repr

/-- The host-visible registers (R37). -/
inductive HostReg where
  | cmd | arg0 | arg1 | status | res | errval | errlim | cfg | maxsz | payload | out
  deriving DecidableEq, Repr

/-- What the host can do at the engine's port: present a whole packet (30_encoding.md R70), write or read a register
(R37), or apply reset (70_reset_and_hazards.md R230, R231). A whole packet and register writes are two forms of one
interface; what a mix of them does is a DESIGN CHOICE (log 20). -/
inductive HostEvent where
  | present (p : Packet)
  | write (r : HostReg) (w : Word)
  | read (r : HostReg)
  | reset
  deriving DecidableEq, Repr

/-- The engine, with the host's pending actions at its port. -/
structure State where
  /-- `V[s]`: `none` is an empty slot (`VALID = 0`), `some v` a valid one (R21, R28). The 16 places cover every value of a
  slot field; only the first `NSLOT` are slots (R77). -/
  slots : Vector (Option PackedVector) 16
  /-- `STATUS` (R31). -/
  status : Word
  /-- `RES` (R30). -/
  res : Word
  /-- `ERRVAL` (R32). -/
  errval : Word
  /-- `ERRLIM` (R32). -/
  errlim : Word
  /-- `CFG`, a constant: `NSLOT` in bits [4:0] (R33). -/
  cfg : Word
  /-- `MAXSZ`, a constant (R33). -/
  maxsz : Word
  /-- `ARG0` as a staging register (R29, R37). -/
  arg0 : Word
  /-- `ARG1` as a staging register (R29, R37). -/
  arg1 : Word
  /-- Payload beats written since the last command, in order (R37, 30_encoding.md R81). -/
  payload : List Word
  /-- Beats the last command emitted and the host has not read, in order (R36, R37). -/
  out : List Word
  /-- MODEL'S OWN: the host's pending actions, oldest first (log 2). -/
  inbox : List HostEvent
  /-- MODEL'S OWN: the word the host's last register read returned (log 5). -/
  rdata : Word
  /-- MODEL'S OWN: how many free values have been used (log 5). -/
  freeCount : Nat
  deriving DecidableEq, Repr

/-- No step of the engine stops with a fault: every error is a response, after which the engine is ready for the next
command (60_exceptions.md R207, R218; log 10). -/
inductive Fault where
  deriving DecidableEq, Repr

/-- Why the model has no step. -/
inductive Refusal where
  /-- Raised by an arm of `exec` for a command without a meaning; no arm does. Safe: the model stops. -/
  | notModelled (mnemonic : String)
  /-- Raised by the port for a `LOADW` packet whose `ARG1` is not its number of payload beats: "There is no step for a
  mismatched packet" (93_implementation_defined.md U4, 30_encoding.md R81). Safe: the model stops (log 8). -/
  | payloadLengthMismatch
  deriving DecidableEq, Repr

/-- The state after reset of an engine with `nslot` slots (R38). `ARG0`, `ARG1` and the model's own fields are DESIGN
CHOICES (log 2, 3, 5). -/
def State.resetWith (nslot : Nat) : State where
  slots := Vector.replicate 16 none
  status := 0
  res := 0
  errval := 0
  errlim := 0
  cfg := BitVec.ofNat 32 nslot
  maxsz := BitVec.ofNat 32 Config.maxSafeSize
  arg0 := 0
  arg1 := 0
  payload := []
  out := []
  inbox := []
  rdata := 0
  freeCount := 0

/-- The state after reset, with the default number of slots (R5, R38; log 1). -/
def State.reset : State := State.resetWith Config.nslot

end Sys2Proof.Machine
end

