-- ==== Sys2Proof/Machine/Flags.lean ====
section
/-! DEFINITION. The `STATUS` register: kinds, causes and their codes (10_state.md R31; 60_exceptions.md R201, R203). -/

namespace Sys2Proof.Machine

/-- `STATUS.KIND` (R31, R201). -/
inductive ErrorKind where
  | noError | typeKind | rangeKind | commandKind
  deriving DecidableEq, Repr

def ErrorKind.code : ErrorKind → Nat
  | .noError => 0
  | .typeKind => 1
  | .rangeKind => 2
  | .commandKind => 3

/-- The causes of R203. `invalidSize`, `notInteger` and `bufferTooSmall` are assigned code points that the engine never
produces (R212, R213). -/
inductive Cause where
  | invalidSize | notInteger | outOfRange | indexBounds | rangeExceeded | sizeMismatch | rawTooLong | bufferTooSmall
  | illegalCommand | slotInvalid
  deriving DecidableEq, Repr

/-- The CAUSE column of R203. -/
def Cause.code : Cause → Nat
  | .invalidSize => 1
  | .notInteger => 2
  | .outOfRange => 3
  | .indexBounds => 4
  | .rangeExceeded => 5
  | .sizeMismatch => 6
  | .rawTooLong => 7
  | .bufferTooSmall => 8
  | .illegalCommand => 9
  | .slotInvalid => 10

/-- The KIND column of R203. -/
def Cause.kind : Cause → ErrorKind
  | .invalidSize | .notInteger => .typeKind
  | .outOfRange | .indexBounds | .rangeExceeded | .sizeMismatch | .rawTooLong | .bufferTooSmall => .rangeKind
  | .illegalCommand | .slotInvalid => .commandKind

/-- `STATUS = KIND | CAUSE << 4` (R203). -/
def statusWord (c : Cause) : Word := BitVec.ofNat 32 c.kind.code ||| (BitVec.ofNat 32 c.code <<< 4)

/-- An error a command ends with: its cause and the two numbers that describe it (R203). -/
structure Failure where
  cause : Cause
  val : Word
  lim : Word
  deriving DecidableEq, Repr

end Sys2Proof.Machine
end

