-- ==== Sys2Proof/Machine/Operands.lean ====
section
/-! DEFINITION. Operand words and the operand checks: the bounds guard `validate` (20_memory.md R55), the size check of
`CREATE` and `LOADW` (40_lifecycle.md R101) and the range check of `GETR` and `SETR` (41_bit_range.md R125). -/

namespace Sys2Proof.Machine

/-- An operand word is read as a signed integer (30_encoding.md R73). -/
def signedOperand (w : Word) : Int := sext32 w

/-- `validate(value, maxSize)` (20_memory.md R55): a value outside `0 <= value < maxSize` raises `IndexBounds`. The type half
of the guard cannot fail (R56). -/
def validate (value : Int) (maxSize : Nat) : Except Failure Nat :=
  if value < 0 ∨ value ≥ (maxSize : Int) then .error ⟨.indexBounds, wordOf value, wordOf maxSize⟩
  else .ok value.toNat

/-- The size check of R101 and R102: a size outside `1 .. MAX_SAFE_SIZE` raises `OutOfRange`. -/
def checkSize (size : Int) : Except Failure Nat :=
  if size < 1 ∨ size > (Config.maxSafeSize : Int) then .error ⟨.outOfRange, wordOf size, 0x20000000⟩
  else .ok size.toNat

/-- `RangeCheck` (41_bit_range.md R125): `start`, then `count`, then their sum; the first failure is reported. -/
def rangeCheck (size : Nat) (start count : Int) : Except Failure (Nat × Nat) := do
  let st ← validate start size
  let n ← validate count (size + 1)
  if st + n > size then .error ⟨.rangeExceeded, wordOf (st + n : Nat), wordOf (size + 1 : Nat)⟩
  else .ok (st, n)

/-- The start of an `IDXOF` scan (43_count_search.md R163): a negative `fromIndex` is an offset from the size, clamped to
0 if still negative. -/
def scanStart (size : Nat) (fromIndex : Int) : Nat :=
  if fromIndex < 0 then (fromIndex + size).toNat else fromIndex.toNat

/-- The exclusive bound of an `LIDXOF` scan (43_count_search.md R165): a negative `fromIndex` is `size + fromIndex`, then
anything above the size is clamped to it. -/
def scanBound (size : Nat) (fromIndex : Int) : Int :=
  let t := if fromIndex < 0 then fromIndex + size else fromIndex
  if t > (size : Int) then (size : Int) else t

end Sys2Proof.Machine
end

