-- ==== Sys2Proof/Machine/Ops.lean ====
section
/-! DEFINITION. The named operations: the words of a vector (20_memory.md R66), the slots (10_state.md R21, R28), and how a
command ends: the success response (60_exceptions.md R206) and the error response, the engine's "trap entry"
(60_exceptions.md R207, R217). There is no return from an error (R218): the next command overwrites the response. -/

namespace Sys2Proof.Machine

/-! ### Words -/

/-- What a word that is not listed reads: the zero-fill of R101. -/
def unlistedWord : Word := 0

/-- The word at number `k`. -/
def Memory.read : Memory → Nat → Word
  | [], _ => unlistedWord
  | (j, x) :: m, k => if j = k then x else Memory.read m k

/-- Write word `k`, keeping the canonical form: writing what an unlisted word reads removes the entry. -/
def Memory.write : Memory → Nat → Word → Memory
  | [], k, w => if w = unlistedWord then [] else [(k, w)]
  | (j, x) :: m, k, w =>
    if j < k then (j, x) :: Memory.write m k w
    else if j = k then (if w = unlistedWord then m else (k, w) :: m)
    else if w = unlistedWord then (j, x) :: m
    else (k, w) :: (j, x) :: m

/-- The memory that holds the words `ws` at numbers `start`, `start + 1`, ... -/
def Memory.ofWords : Nat → List Word → Memory
  | _, [] => []
  | k, w :: ws => if w = unlistedWord then Memory.ofWords (k + 1) ws else (k, w) :: Memory.ofWords (k + 1) ws

/-- The canonical form from word number `lo` on: strictly rising numbers, no listed word equal to the unlisted one. -/
def Memory.wfFrom : Nat → Memory → Bool
  | _, [] => true
  | lo, (k, w) :: m => decide (lo ≤ k) && decide (w ≠ unlistedWord) && Memory.wfFrom (k + 1) m

/-- The canonical form of a memory. -/
def Memory.wf (m : Memory) : Bool := Memory.wfFrom 0 m

/-! ### Vectors -/

/-- `WORDCOUNT` (R24). -/
def PackedVector.wordCount (v : PackedVector) : Nat := Machine.wordCount v.size
/-- `TAILBITS` (R24). -/
def PackedVector.tailBits (v : PackedVector) : Nat := Machine.tailBits v.size
/-- `TAILMASK` (R24). -/
def PackedVector.tailMask (v : PackedVector) : Word := Machine.tailMask v.size

/-- `MemRead(s, k)` (20_memory.md R66). -/
def PackedVector.memRead (v : PackedVector) (k : Nat) : Word := Memory.read v.words k

/-- `MemWrite(s, k, w)` (20_memory.md R66). -/
def PackedVector.memWrite (v : PackedVector) (k : Nat) (w : Word) : PackedVector :=
  { v with words := Memory.write v.words k w }

/-- `MaskedWrite(s, k, m, v)` (20_memory.md R66): the bits selected by `m` take the value `val`. -/
def PackedVector.maskedWrite (v : PackedVector) (k : Nat) (m : Word) (val : Bool) : PackedVector :=
  if val then v.memWrite k (v.memRead k ||| m) else v.memWrite k (v.memRead k &&& ~~~m)

/-- `bit(s, i)` (00_scope.md R10, 20_memory.md R51): bit `off(i)` of word `chunk(i)`. -/
def PackedVector.bit (v : PackedVector) (i : Nat) : Bool := (v.memRead (chunk i)).getLsbD (off i)

/-- Tail masking: the last word is AND-ed with `TAILMASK` (10_state.md R25). -/
def PackedVector.maskTail (v : PackedVector) : PackedVector :=
  v.memWrite (v.wordCount - 1) (v.memRead (v.wordCount - 1) &&& v.tailMask)

/-- The word a fill writes: all ones or 0 (41_bit_range.md R126, R127). -/
def fillWord (val : Bool) : Word := if val then 0xFFFFFFFF else 0

/-- Write the fill word to the `n` words from number `k` on, in ascending order (41_bit_range.md R126, R127). -/
def PackedVector.assignWords (v : PackedVector) (val : Bool) (k : Nat) : Nat → PackedVector
  | 0 => v
  | n + 1 => (v.memWrite k (fillWord val)).assignWords val (k + 1) n

/-- A new zero-filled vector of `n` bits (40_lifecycle.md R100, R101). -/
def zeroVector (n : Nat) : PackedVector := { size := n, words := [] }

/-- A new vector of `n` bits that holds the words `ws` from word 0 on, zero beyond them, its last word tail-masked
(40_lifecycle.md R102, R103; 42_bitwise.md R141). -/
def vectorOfWords (n : Nat) (ws : List Word) : PackedVector :=
  PackedVector.maskTail { size := n, words := Memory.ofWords 0 ws }

/-! ### Slots -/

/-- `NSLOT`, read from `CFG[4:0]` (10_state.md R33). -/
def State.nslot (s : State) : Nat := (s.cfg.extractLsb' 0 5).toNat

/-- Slot `a`: `none` when its `VALID` is 0 (10_state.md R28). -/
def State.slot (s : State) (a : Slot) : Option PackedVector := s.slots[a.val]

/-- Make, replace or empty slot `a`; no other slot changes (10_state.md R26, R27). -/
def State.setSlot (s : State) (a : Slot) (v : Option PackedVector) : State :=
  { s with slots := s.slots.set a.val v }

/-- The slot check (60_exceptions.md R211): an empty slot raises `SlotInvalid` with its number. -/
def requireSlot (s : State) (a : Slot) : Except Failure PackedVector :=
  match s.slot a with
  | some v => .ok v
  | none => .error ⟨.slotInvalid, BitVec.ofNat 32 a.val, 0⟩

/-! ### How a command ends -/

/-- What a command that passes its checks does: the value of `RES`, the beats it emits, and at most one slot that it makes,
replaces, modifies or empties. -/
structure Effect where
  res : Word := 0
  beats : List Word := []
  update : Option (Slot × Option PackedVector) := none
  deriving DecidableEq, Repr

/-- The slot write of an effect. -/
def State.applyUpdate (s : State) : Option (Slot × Option PackedVector) → State
  | none => s
  | some (d, v) => s.setSlot d v

/-- The success response (60_exceptions.md R206): `STATUS`, `ERRVAL` and `ERRLIM` are 0, `RES` is the result, and the beats
of the command are its `OUT` stream (10_state.md R36). -/
def State.respond (s : State) (res : Word) (beats : List Word) : State :=
  { s with status := 0, res := res, errval := 0, errlim := 0, out := beats }

/-- Taking an error, the engine's "trap entry" (60_exceptions.md R207, R217): the four response registers are written, nothing
is emitted and no slot changes. -/
def State.raise (s : State) (f : Failure) : State :=
  { s with status := statusWord f.cause, res := 0, errval := f.val, errlim := f.lim, out := [] }

/-- The end of a command (60_exceptions.md R205): the first failing check is the error it ends with; otherwise its effect is
applied whole. A command never stops the machine. -/
def State.finish (s : State) (r : Except Failure Effect) : Host.Outcome State Fault Refusal :=
  match r with
  | .error f => .next (s.raise f)
  | .ok e => .next ((s.applyUpdate e.update).respond e.res e.beats)

end Sys2Proof.Machine
end

