-- ==== Sys2Proof/Machine/BitRange.lean ====
section
/-! DEFINITION. Single-bit and range access commands: GETB, SETB, TGLB, GETR, SETR, FILL (41_bit_range.md). -/

namespace Sys2Proof.Machine

/-- `GETB va, i` (R121). -/
def execGetb (va : Slot) (i : Word) (s : State) : Host.Outcome State Fault Refusal :=
  s.finish (do
    let v ← requireSlot s va
    let n ← validate (signedOperand i) v.size
    .ok { res := boolWord (v.bit n) })

/-- `SETB vd, i, val` (R122): a masked read-modify-write of one bit. -/
def execSetb (vd : Slot) (val : Bool) (i : Word) (s : State) : Host.Outcome State Fault Refusal :=
  s.finish (do
    let v ← requireSlot s vd
    let n ← validate (signedOperand i) v.size
    .ok { update := some (vd, some (v.maskedWrite (chunk n) (bitmask n) val)) })

/-- `TGLB vd, i` (R123): the bit is inverted and `RES` is its new value. -/
def execTglb (vd : Slot) (i : Word) (s : State) : Host.Outcome State Fault Refusal :=
  s.finish (do
    let v ← requireSlot s vd
    let n ← validate (signedOperand i) v.size
    let w := v.memRead (chunk n) ^^^ bitmask n
    .ok { res := boolWord (w.getLsbD (off n)), update := some (vd, some (v.memWrite (chunk n) w)) })

/-- The beats of a range read (R124): one boolean per logical index, ascending. -/
def rangeBeats (v : PackedVector) (start count : Nat) : List Word :=
  (List.range count).map (fun j => boolWord (v.bit (start + j)))

/-- `GETR va, start, count` (R124). -/
def execGetr (va : Slot) (start count : Word) (s : State) : Host.Outcome State Fault Refusal :=
  s.finish (do
    let v ← requireSlot s va
    let r ← rangeCheck v.size (signedOperand start) (signedOperand count)
    .ok { res := wordOf r.2, beats := rangeBeats v r.1 r.2 })

/-- The range walk of R125 and R126 over `[start, start + count)`, `count >= 1`: a partial first word, whole interior words
and a partial last word, or one masked word. -/
def PackedVector.writeRange (v : PackedVector) (start count : Nat) (val : Bool) : PackedVector :=
  let first := chunk start
  let last := chunk (start + count - 1)
  let lo := off start
  let hi := off (start + count - 1) + 1
  if first = last then v.maskedWrite first (span lo hi) val
  else
    ((v.maskedWrite first (span lo 32) val).assignWords val (first + 1) (last - (first + 1))).maskedWrite
      last (span 0 hi) val

/-- `SETR` on a checked range (R126): nothing for `count = 0`, else the range walk and the tail mask (C5). -/
def PackedVector.setRange (v : PackedVector) (start count : Nat) (val : Bool) : PackedVector :=
  if count = 0 then v else (v.writeRange start count val).maskTail

/-- `SETR vd, start, count, val` (R126). -/
def execSetr (vd : Slot) (val : Bool) (start count : Word) (s : State) : Host.Outcome State Fault Refusal :=
  s.finish (do
    let v ← requireSlot s vd
    let r ← rangeCheck v.size (signedOperand start) (signedOperand count)
    .ok { update := some (vd, some (v.setRange r.1 r.2 val)) })

/-- `FILL vd, val` (R127): every word, then the tail mask. -/
def execFill (vd : Slot) (val : Bool) (s : State) : Host.Outcome State Fault Refusal :=
  s.finish (do
    let v ← requireSlot s vd
    .ok { update := some (vd, some (v.assignWords val 0 v.wordCount).maskTail) })

end Sys2Proof.Machine
end

