-- ==== Sys2Proof/Machine/Bitwise.lean ====
section
/-! DEFINITION. Bitwise set-algebra commands: AND, OR, XOR, NAND, NOR, XNOR, DIFF, NOT, EQ (42_bitwise.md). -/

namespace Sys2Proof.Machine

/-- The result words of a binary command: `T[k] = f(a[k], b[k])` for every word, then the tail mask (R141). -/
def combine (f : Word → Word → Word) (a b : PackedVector) : PackedVector :=
  vectorOfWords a.size ((List.range a.wordCount).map (fun k => f (a.memRead k) (b.memRead k)))

/-- The size check of the binary commands (R141): logical sizes, not word counts. -/
def checkSameSize (a b : PackedVector) : Except Failure Unit :=
  if a.size ≠ b.size then .error ⟨.sizeMismatch, wordOf b.size, wordOf a.size⟩ else .ok ()

/-- The common template of the seven binary commands (R141). Sources are read before the destination is written, so the
destination may be a source (R142). -/
def binaryCommand (f : Word → Word → Word) (vd va vb : Slot) (s : State) : Host.Outcome State Fault Refusal :=
  s.finish (do
    let a ← requireSlot s va
    let b ← requireSlot s vb
    checkSameSize a b
    .ok { update := some (vd, some (combine f a b)) })

/-- The word function of `AND` (R143). -/
def andWord (x y : Word) : Word := x &&& y
/-- The word function of `OR` (R144). -/
def orWord (x y : Word) : Word := x ||| y
/-- The word function of `XOR` (R145). -/
def xorWord (x y : Word) : Word := x ^^^ y
/-- The word function of `NAND` (R146). -/
def nandWord (x y : Word) : Word := ~~~(x &&& y)
/-- The word function of `NOR` (R147). -/
def norWord (x y : Word) : Word := ~~~(x ||| y)
/-- The word function of `XNOR` (R148). -/
def xnorWord (x y : Word) : Word := ~~~(x ^^^ y)
/-- The word function of `DIFF` (R149). -/
def diffWord (x y : Word) : Word := x &&& ~~~y

/-- `AND vd, va, vb` (R143). -/
def execAnd (vd va vb : Slot) (s : State) : Host.Outcome State Fault Refusal := binaryCommand andWord vd va vb s
/-- `OR vd, va, vb` (R144). -/
def execOr (vd va vb : Slot) (s : State) : Host.Outcome State Fault Refusal := binaryCommand orWord vd va vb s
/-- `XOR vd, va, vb` (R145). -/
def execXor (vd va vb : Slot) (s : State) : Host.Outcome State Fault Refusal := binaryCommand xorWord vd va vb s
/-- `NAND vd, va, vb` (R146). -/
def execNand (vd va vb : Slot) (s : State) : Host.Outcome State Fault Refusal := binaryCommand nandWord vd va vb s
/-- `NOR vd, va, vb` (R147). -/
def execNor (vd va vb : Slot) (s : State) : Host.Outcome State Fault Refusal := binaryCommand norWord vd va vb s
/-- `XNOR vd, va, vb` (R148). -/
def execXnor (vd va vb : Slot) (s : State) : Host.Outcome State Fault Refusal := binaryCommand xnorWord vd va vb s
/-- `DIFF vd, va, vb` (R149): `VA` is the minuend. -/
def execDiff (vd va vb : Slot) (s : State) : Host.Outcome State Fault Refusal := binaryCommand diffWord vd va vb s

/-- The complement of a vector within its logical size (R150). -/
def complement (a : PackedVector) : PackedVector :=
  vectorOfWords a.size ((List.range a.wordCount).map (fun k => ~~~(a.memRead k)))

/-- `NOT vd, va` (R150). -/
def execNot (vd va : Slot) (s : State) : Host.Outcome State Fault Refusal :=
  s.finish (do
    let a ← requireSlot s va
    .ok { update := some (vd, some (complement a)) })

/-- The comparison of R151: false on a size mismatch, else all full words and the tail-masked last word. -/
def equalVectors (a b : PackedVector) : Bool :=
  if a.size ≠ b.size then false
  else
    (List.range (a.wordCount - 1)).all (fun k => a.memRead k == b.memRead k) &&
      (a.memRead (a.wordCount - 1) &&& a.tailMask) == (b.memRead (a.wordCount - 1) &&& a.tailMask)

/-- `EQ va, vb` (R151): a size mismatch is an answer, not an error. -/
def execEq (va vb : Slot) (s : State) : Host.Outcome State Fault Refusal :=
  s.finish (do
    let a ← requireSlot s va
    let b ← requireSlot s vb
    .ok { res := boolWord (equalVectors a b) })

end Sys2Proof.Machine
end

