-- ==== Sys2Proof/Machine/Lifecycle.lean ====
section
/-! DEFINITION. Construction and lifecycle commands: CREATE, LOADW, COPY, FREE, VSIZE, RDW (40_lifecycle.md). -/

namespace Sys2Proof.Machine

/-- `CREATE vd, size` (R101). -/
def execCreate (vd : Slot) (size : Word) (s : State) : Host.Outcome State Fault Refusal :=
  s.finish (do
    let n ← checkSize (signedOperand size)
    .ok { update := some (vd, some (zeroVector n)) })

/-- The length check of `LOADW` (R102): more words than the slot's word count raise `RawTooLong`. -/
def checkPayload (n : Nat) (ws : List Word) : Except Failure Unit :=
  if ws.length > wordCount n then
    .error ⟨.rawTooLong, wordOf ws.length, wordOf (wordCount n + 1 : Nat)⟩
  else .ok ()

/-- `LOADW vd, size, {words}` (R102, R103): the size check precedes the length check. -/
def execLoadw (vd : Slot) (size : Word) (ws : List Word) (s : State) : Host.Outcome State Fault Refusal :=
  s.finish (do
    let n ← checkSize (signedOperand size)
    checkPayload n ws
    .ok { update := some (vd, some (vectorOfWords n ws)) })

/-- `COPY vd, va` (R104): an independent copy with identical content and size. -/
def execCopy (vd va : Slot) (s : State) : Host.Outcome State Fault Refusal :=
  s.finish (do
    let v ← requireSlot s va
    .ok { update := some (vd, some v) })

/-- `FREE vd` (R105): the slot becomes empty; an empty slot stays empty, with no error. -/
def execFree (vd : Slot) (s : State) : Host.Outcome State Fault Refusal :=
  s.finish (.ok { update := some (vd, none) })

/-- `VSIZE va` (R107). -/
def execVsize (va : Slot) (s : State) : Host.Outcome State Fault Refusal :=
  s.finish (do
    let v ← requireSlot s va
    .ok { res := wordOf v.size })

/-- `RDW va, k` (R108): the word number is checked against `WORDCOUNT`. -/
def execRdw (va : Slot) (k : Word) (s : State) : Host.Outcome State Fault Refusal :=
  s.finish (do
    let v ← requireSlot s va
    let n ← validate (signedOperand k) v.wordCount
    .ok { res := v.memRead n })

end Sys2Proof.Machine
end

