-- ==== Sys2Proof/Machine/Search.lean ====
section
/-! DEFINITION. Population count, search and set-index enumeration: POPC, IDXOF, LIDXOF (43_count_search.md), TIDX
(44_iteration.md). -/

namespace Sys2Proof.Machine

/-- The population count of R161: the full words, then the last word under the tail mask. -/
def populationCount (v : PackedVector) : Nat :=
  ((List.range (v.wordCount - 1)).map (fun k => popcount32 (v.memRead k))).sum +
    popcount32 (v.memRead (v.wordCount - 1) &&& v.tailMask)

/-- `POPC va` (R161). -/
def execPopc (va : Slot) (s : State) : Host.Outcome State Fault Refusal :=
  s.finish (do
    let v ← requireSlot s va
    .ok { res := wordOf (populationCount v) })

/-- A word as a search for `val` sees it (R163, R165): inverted when searching for false, then the last word tail-masked so
that padding never reports. -/
def searchWord (v : PackedVector) (val : Bool) (k : Nat) : Word :=
  let x := if val then v.memRead k else ~~~(v.memRead k)
  if k = v.wordCount - 1 then x &&& v.tailMask else x

/-- The ascending scan of R163 over the `n` words from `k` on: the first word with a 1 bit gives the index of its lowest. -/
def scanUp (x : Nat → Word) : Nat → Nat → Option Nat
  | 0, _ => none
  | n + 1, k => if x k ≠ 0 then some (32 * k + ffs32 (x k)) else scanUp x n (k + 1)

/-- The descending scan of R165 from word `k` to word 0: the first word with a 1 bit gives the index of its highest. -/
def scanDown (x : Nat → Word) : Nat → Option Nat
  | 0 => if x 0 ≠ 0 then some (fls32 (x 0)) else none
  | k + 1 => if x (k + 1) ≠ 0 then some (32 * (k + 1) + fls32 (x (k + 1))) else scanDown x k

/-- The first index `>= f` with value `val` (R163, after `fromIndex` is adjusted to `f`). -/
def firstIndex (v : PackedVector) (val : Bool) (f : Nat) : Option Nat :=
  if f ≥ v.size then none
  else
    scanUp (fun k => if k = chunk f then searchWord v val k &&& ~~~(low (off f)) else searchWord v val k)
      (v.wordCount - chunk f) (chunk f)

/-- The last index `< t` with value `val`, with the check of index 0 alone when `t <= 0` (R165, after `fromIndex` is adjusted
to `t`). -/
def lastIndex (v : PackedVector) (val : Bool) (t : Int) : Option Nat :=
  if t ≤ 0 then (if v.bit 0 = val then some 0 else none)
  else
    let top := t.toNat - 1
    scanDown (fun k => if k = chunk top then searchWord v val k &&& low (off top + 1) else searchWord v val k)
      (chunk top)

/-- An index result travels as `word(n)`, and "not found" as `word(-1)` (R160). -/
def indexWord : Option Nat → Word
  | some n => wordOf n
  | none => wordOf (-1)

/-- `IDXOF va, val, fromIndex` (R163). -/
def execIdxof (va : Slot) (val : Bool) (fromIndex : Word) (s : State) : Host.Outcome State Fault Refusal :=
  s.finish (do
    let v ← requireSlot s va
    .ok { res := indexWord (firstIndex v val (scanStart v.size (signedOperand fromIndex))) })

/-- `LIDXOF va, val, fromIndex` (R165). -/
def execLidxof (va : Slot) (val : Bool) (fromIndex : Word) (s : State) : Host.Outcome State Fault Refusal :=
  s.finish (do
    let v ← requireSlot s va
    .ok { res := indexWord (lastIndex v val (scanBound v.size (signedOperand fromIndex))) })

/-- The set indices in `[start, stop)`, ascending; none when `stop <= start` (44_iteration.md R181). -/
def setIndices (v : PackedVector) (start stop : Nat) : List Nat :=
  (List.range' start (stop - start)).filter (fun i => v.bit i)

/-- `TIDX va, start, end` (44_iteration.md R181): `start` is checked against `SIZE`, `end` against `SIZE + 1`. -/
def execTidx (va : Slot) (start stop : Word) (s : State) : Host.Outcome State Fault Refusal :=
  s.finish (do
    let v ← requireSlot s va
    let b ← validate (signedOperand start) v.size
    let e ← validate (signedOperand stop) (v.size + 1)
    let is := setIndices v b e
    .ok { res := wordOf is.length, beats := is.map (fun i => wordOf (i : Nat)) })

/-! ### The word-level walk of TIDX (44_iteration.md R184) -/

/-- Repeatedly isolate, emit and clear the lowest set bit of the local copy `x` of word `k`, stopping at the first index that
reaches `stop` (R184). `fuel` bounds the loop; 32 is enough. The flag says whether the whole walk stops. -/
def walkWord (k stop : Nat) : Nat → Word → List Nat × Bool
  | 0, _ => ([], false)
  | fuel + 1, x =>
    if x = 0 then ([], false)
    else
      let lsb := x &&& -x
      let i := 32 * k + (31 - clz32 lsb)
      if i ≥ stop then ([], true)
      else
        let r := walkWord k stop fuel (x ^^^ lsb)
        (i :: r.1, r.2)

/-- The local copy R184 takes of word `k`. -/
def walkCopy (v : PackedVector) (start k : Nat) : Word :=
  let x := if k = v.wordCount - 1 then v.memRead k &&& v.tailMask else v.memRead k
  if k = chunk start then x &&& ~~~(low (off start)) else x

/-- The walk of R184 over the `n` words from `k` on. -/
def walkWords (v : PackedVector) (start stop : Nat) : Nat → Nat → List Nat
  | 0, _ => []
  | n + 1, k =>
    let r := walkWord k stop 32 (walkCopy v start k)
    if r.2 then r.1 else r.1 ++ walkWords v start stop n (k + 1)

/-- The indices R184's walk emits for `start < stop`. No meaning uses it: R181's definition is the meaning. -/
def walkIndices (v : PackedVector) (start stop : Nat) : List Nat :=
  walkWords v start stop (chunk (stop - 1) + 1 - chunk start) (chunk start)

end Sys2Proof.Machine
end

