-- ==== Sys2Proof/Machine/Dispatch.lean ====
section
/-! DEFINITION. One arm per command: each calls its own meaning. -/

namespace Sys2Proof.Machine

def exec (i : Instr) (s : State) : Host.Outcome State Fault Refusal :=
  match i with
  | .create vd size => Sys2Proof.Machine.execCreate vd size s
  | .loadw vd size words => Sys2Proof.Machine.execLoadw vd size words s
  | .copy vd va => Sys2Proof.Machine.execCopy vd va s
  | .free vd => Sys2Proof.Machine.execFree vd s
  | .vsize va => Sys2Proof.Machine.execVsize va s
  | .rdw va k => Sys2Proof.Machine.execRdw va k s
  | .getb va n => Sys2Proof.Machine.execGetb va n s
  | .setb vd val n => Sys2Proof.Machine.execSetb vd val n s
  | .tglb vd n => Sys2Proof.Machine.execTglb vd n s
  | .getr va start count => Sys2Proof.Machine.execGetr va start count s
  | .setr vd val start count => Sys2Proof.Machine.execSetr vd val start count s
  | .fill vd val => Sys2Proof.Machine.execFill vd val s
  | .and vd va vb => Sys2Proof.Machine.execAnd vd va vb s
  | .or vd va vb => Sys2Proof.Machine.execOr vd va vb s
  | .xor vd va vb => Sys2Proof.Machine.execXor vd va vb s
  | .nand vd va vb => Sys2Proof.Machine.execNand vd va vb s
  | .nor vd va vb => Sys2Proof.Machine.execNor vd va vb s
  | .xnor vd va vb => Sys2Proof.Machine.execXnor vd va vb s
  | .diff vd va vb => Sys2Proof.Machine.execDiff vd va vb s
  | .not vd va => Sys2Proof.Machine.execNot vd va s
  | .eq va vb => Sys2Proof.Machine.execEq va vb s
  | .popc va => Sys2Proof.Machine.execPopc va s
  | .idxof va val fromIndex => Sys2Proof.Machine.execIdxof va val fromIndex s
  | .lidxof va val fromIndex => Sys2Proof.Machine.execLidxof va val fromIndex s
  | .tidx va start stop => Sys2Proof.Machine.execTidx va start stop s

end Sys2Proof.Machine
end

