-- ==== Sys2Proof/Machine/Port.lean ====
section
/-! DEFINITION. The engine's port: presenting a packet (30_encoding.md R70, R78, R81; 60_exceptions.md R205, R210), the
host-visible registers (10_state.md R37), reset (70_reset_and_hazards.md R230, R231), the register addresses and the byte
order of a byte-serialising platform (20_memory.md R60, R61). -/

namespace Sys2Proof.Machine

/-- What presenting a packet leads to: a command to run, an `IllegalCommand` (R210), or a packet without a step (U4). -/
inductive Presented where
  | command (i : Instr)
  | illegal
  | mismatch
  deriving DecidableEq, Repr

/-- The decode stage of a presented packet (60_exceptions.md R205 stage 1). -/
def State.fetch (s : State) (p : Packet) : Presented :=
  match decode s.nslot p with
  | .ok i => .command i
  | .error .payloadLength => .mismatch
  | .error .reservedBits => .illegal
  | .error .reservedOpcode => .illegal
  | .error .deadField => .illegal
  | .error .slotNumber => .illegal
  | .error .strayPayload => .illegal

/-- The error of an illegal packet: `ERRVAL` is the whole command word (60_exceptions.md R210). -/
def illegalCommand (p : Packet) : Failure := ⟨.illegalCommand, p.cmd, 0⟩

/-- Presenting a packet consumes the pending payload whole, whether the command succeeds or fails (30_encoding.md R81). That
this also drops beats staged before a whole-packet action, which brings its own payload, is a DESIGN CHOICE (log 20). -/
def State.consumePayload (s : State) : State := { s with payload := [] }

/-- Present a packet: decode it, then run the command or raise `IllegalCommand`.

DESIGN CHOICE (log 20, unsafe): the spec describes no port on which a whole packet arrives while words are staged by register
writes (10_state.md R37, 20_memory.md R65, 30_encoding.md R81). Here a whole-packet action runs with the packet's own operand
words and payload; beats pending from `PAYLOAD` are dropped, not joined to it; `ARG0` and `ARG1` stay as staged. -/
def presentPacket (p : Packet) (s : State) : Host.Outcome State Fault Refusal :=
  match s.fetch p with
  | .command i => exec i s.consumePayload
  | .illegal => .next (s.consumePayload.raise (illegalCommand p))
  | .mismatch => .refused .payloadLengthMismatch

/-- The packet that writing `w` to `CMD` presents: the current `ARG0` and `ARG1` and the payload beats written since the last
command (10_state.md R37). -/
def State.stagedPacket (s : State) (w : Word) : Packet := ⟨w, s.arg0, s.arg1, s.payload⟩

/-- A host write (10_state.md R37). Writing `CMD` presents a packet; writing a read-only register has no effect. -/
def hostWrite (r : HostReg) (w : Word) (s : State) : Host.Outcome State Fault Refusal :=
  match r with
  | .cmd => presentPacket (s.stagedPacket w) s
  | .arg0 => .next { s with arg0 := w }
  | .arg1 => .next { s with arg1 := w }
  | .payload => .next { s with payload := s.payload ++ [w] }
  | .status => .next s
  | .res => .next s
  | .errval => .next s
  | .errlim => .next s
  | .cfg => .next s
  | .maxsz => .next s
  | .out => .next s

/-- A host read whose value the spec leaves unspecified: a free value, and no other effect (U6, U7; log 5). -/
def State.readUnspecified (s : State) : State :=
  { s with rdata := Config.freeWord s.freeCount, freeCount := s.freeCount + 1 }

/-- A host read of `OUT` takes the next beat the last command emitted (10_state.md R37). -/
def State.readOut (s : State) : State :=
  match s.out with
  | b :: bs => { s with rdata := b, out := bs }
  | [] => s.readUnspecified

/-- A host read (10_state.md R37). -/
def hostRead (r : HostReg) (s : State) : State :=
  match r with
  | .status => { s with rdata := s.status }
  | .res => { s with rdata := s.res }
  | .errval => { s with rdata := s.errval }
  | .errlim => { s with rdata := s.errlim }
  | .cfg => { s with rdata := s.cfg }
  | .maxsz => { s with rdata := s.maxsz }
  | .out => s.readOut
  | .cmd => s.readUnspecified
  | .arg0 => s.readUnspecified
  | .arg1 => s.readUnspecified
  | .payload => s.readUnspecified

/-- Applying reset (70_reset_and_hazards.md R230): the state after reset, with the engine's constants `CFG` and `MAXSZ`. What the
host will do next and the count of free values used are outside the engine and stay (log 16). -/
def State.applyReset (s : State) : State :=
  { State.resetWith s.nslot with cfg := s.cfg, maxsz := s.maxsz, inbox := s.inbox, freeCount := s.freeCount }

/-- One action of the host at the port. -/
def hostEvent (e : HostEvent) (s : State) : Host.Outcome State Fault Refusal :=
  match e with
  | .present p => presentPacket p s
  | .write r w => hostWrite r w s
  | .read r => .next (hostRead r s)
  | .reset => .next s.applyReset

/-- Take the oldest pending action of the host; with none pending the engine idles (log 2). -/
def serveInbox (s : State) : Host.Outcome State Fault Refusal :=
  match s.inbox with
  | [] => .next s
  | e :: rest => hostEvent e { s with inbox := rest }

/-- Register numbers (10_state.md R37). -/
def HostReg.number : HostReg → Nat
  | .cmd => 0
  | .arg0 => 1
  | .arg1 => 2
  | .status => 3
  | .res => 4
  | .errval => 5
  | .errlim => 6
  | .cfg => 7
  | .maxsz => 8
  | .payload => 9
  | .out => 10

/-- A memory-mapping platform places register `n` at `BASE + 4n` (20_memory.md R61); `BASE` is the platform's (U12). -/
def HostReg.address (base : Nat) (r : HostReg) : Nat := base + 4 * r.number

/-- A platform that serialises words to bytes does so little-endian: byte `j` is bits `8j+7 .. 8j` (20_memory.md R60). -/
def wordBytes (w : Word) : List (BitVec 8) :=
  [w.extractLsb' 0 8, w.extractLsb' 8 8, w.extractLsb' 16 8, w.extractLsb' 24 8]

/-- The serialised buffer of a vector (20_memory.md R60). -/
def PackedVector.bytes (v : PackedVector) : List (BitVec 8) :=
  (List.range v.wordCount).flatMap (fun k => wordBytes (v.memRead k))

end Sys2Proof.Machine
end

