-- ==== Sys2Proof/Machine/Step.lean ====
section
/-! DEFINITION. One step of the machine: the engine serves the oldest pending action of the host. A command is one step
(70_reset_and_hazards.md R238). -/

namespace Sys2Proof.Machine

/-- One step. -/
def step (s : State) : Host.Outcome State Fault Refusal := serveInbox s

/-- Place the packet whose bits are `w` where the next step takes it: as the oldest pending action of the host. -/
def State.withFetchWord (s : State) (nbits w : Nat) : State :=
  { s with inbox := .present (packetOfBits nbits w) :: s.inbox }

end Sys2Proof.Machine
end

