-- ==== Sys2Proof/Machine/Pseudo.lean ====
section
/-! DEFINITION. The pseudo-instructions and the assembler defaults (30_encoding.md R79, R80; 43_count_search.md R167;
44_iteration.md R183): host-side expansions into commands. None has an opcode; the engine never sees one (log 19). -/

namespace Sys2Proof.Machine

/-- `CLEAR vd` = `FILL vd, 0` (R80). -/
def pseudoClear (vd : Slot) : Instr := .fill vd false
/-- `SETALL vd` = `FILL vd, 1` (R80). -/
def pseudoSetAll (vd : Slot) : Instr := .fill vd true
/-- `FFS va [, from]` = `IDXOF va, 1, from`, default `from = 0` (R80, R167). -/
def pseudoFfs (va : Slot) (fromIndex : Word := 0) : Instr := .idxof va true fromIndex
/-- `FLS va, to` = `LIDXOF va, 1, to` (R80, R167); the default `to` is the vector's size, which the assembler must know. -/
def pseudoFls (va : Slot) (bound : Word) : Instr := .lidxof va true bound
/-- The in-place forms: the destination is the left operand (R80, 42_bitwise.md R140). -/
def pseudoAndI (va vb : Slot) : Instr := .and va va vb
def pseudoOrI (va vb : Slot) : Instr := .or va va vb
def pseudoXorI (va vb : Slot) : Instr := .xor va va vb
def pseudoNandI (va vb : Slot) : Instr := .nand va va vb
def pseudoNorI (va vb : Slot) : Instr := .nor va va vb
def pseudoXnorI (va vb : Slot) : Instr := .xnor va va vb
def pseudoDiffI (va vb : Slot) : Instr := .diff va va vb
def pseudoNotI (va : Slot) : Instr := .not va va
/-- `GETBIT`, `SETBIT`, `GETRANGE`, `SETRANGE` are other spellings (R80). -/
def pseudoGetBit (va : Slot) (i : Word) : Instr := .getb va i
def pseudoSetBit (vd : Slot) (val : Bool) (i : Word) : Instr := .setb vd val i
def pseudoGetRange (va : Slot) (start count : Word) : Instr := .getr va start count
def pseudoSetRange (vd : Slot) (val : Bool) (start count : Word) : Instr := .setr vd val start count
/-- `ISEMPTY va`: `POPC va`, then the host tests `RES == 0` (R80). -/
def pseudoIsEmpty (va : Slot) : Instr × (State → Bool) := (.popc va, fun t => t.res == 0)
/-- `VALUES va` = `GETR va, 0, size` (R80, R183). -/
def pseudoValues (va : Slot) (size : Word) : Instr := .getr va 0 size
/-- `KEYS va`: no command, the integers `0 .. size - 1` (R80, R183, C2). -/
def pseudoKeys (size : Nat) : List Nat := List.range size
/-- `ENTRIES va`: `GETR va, 0, size`, beat `j` paired with `j` (R80, R183). -/
def pseudoEntries (va : Slot) (size : Word) : Instr × (State → List (Nat × Word)) :=
  (.getr va 0 size, fun t => (List.range t.out.length).zip t.out)
/-- `FOREACH va, start, count`: `GETR va, start, count`, beat `j` delivered with index `start + j` (R80, R183). -/
def pseudoForEach (va : Slot) (start count : Word) : Instr × (State → List (Nat × Word)) :=
  (.getr va start count, fun t => (List.range' (zext32 start) t.out.length).zip t.out)

/-- The assembler defaults of R79, which need the slot's size: `IDXOF` from 0, `LIDXOF` from the size, `TIDX` over all. -/
def defaultIdxof (va : Slot) (val : Bool) : Instr := .idxof va val 0
def defaultLidxof (va : Slot) (val : Bool) (size : Word) : Instr := .lidxof va val size
def defaultTidx (va : Slot) (size : Word) : Instr := .tidx va 0 size

/-- Run commands in order, as a host that stops at the first failing one and then issues `FREE vd` (R80). -/
def runOrFree (vd : Slot) : List Instr → State → Host.Outcome State Fault Refusal
  | [], s => .next s
  | i :: is, s =>
    match exec i s with
    | .next t => if t.status = 0 then runOrFree vd is t else exec (.free vd) t
    | .fault r => .fault r
    | .refused r => .refused r

/-- `FROMINDICES vd, size, {i0, i1, ...}` (R80). -/
def pseudoFromIndices (vd : Slot) (size : Word) (is : List Word) : List Instr :=
  .create vd size :: is.map (fun i => .setb vd true i)
/-- `FROMBOOLS vd, {b0, b1, ...}` (R80). -/
def pseudoFromBools (vd : Slot) (bs : List Bool) : List Instr :=
  .create vd (wordOf bs.length) ::
    ((List.range bs.length).filter (fun j => bs.getD j false)).map (fun j => .setb vd true (wordOf (j : Nat)))

end Sys2Proof.Machine
end

