-- ==== Sys2Proof/Safety.lean ====
section
/-! DEFINITION. The well-formed states (the invariants of 10_state.md R21 to R25, R31, R33 and
93_implementation_defined.md U3) and the terms claims use: responses and frames. -/

namespace Sys2Proof.Machine

/-- A vector as the spec allows it: a size in range (R22), words in canonical form and only below `WORDCOUNT` (R23), and the
tail-masking invariant (R25). -/
def PackedVector.wf (v : PackedVector) : Bool :=
  decide (1 ≤ v.size) && decide (v.size ≤ Config.maxSafeSize) && Memory.wf v.words &&
    v.words.all (fun c => decide (c.1 < v.wordCount)) &&
    decide (v.memRead (v.wordCount - 1) &&& ~~~v.tailMask = 0)

/-- The values the engine writes to `STATUS` (U3). -/
def statusValues : List Word := [0, 0x32, 0x42, 0x52, 0x62, 0x72, 0x93, 0xA3]

/-- The response registers are those of a success or of an error (60_exceptions.md R206, R207). -/
def State.responseWf (s : State) : Bool :=
  statusValues.contains s.status &&
    (if s.status = 0 then decide (s.errval = 0) && decide (s.errlim = 0)
     else decide (s.res = 0) && decide (s.out = []))

/-- `CFG` holds a legal `NSLOT` and nothing else, and `MAXSZ` its constant (R33). -/
def State.configWf (s : State) : Bool :=
  decide (1 ≤ s.nslot) && decide (s.nslot ≤ 16) && decide (s.cfg = BitVec.ofNat 32 s.nslot) &&
    decide (s.maxsz = BitVec.ofNat 32 Config.maxSafeSize)

/-- Every place holds a legal vector or none, and a place at or above `NSLOT` holds none (R21, R25, R77). -/
def State.slotsWf (s : State) : Bool :=
  (List.finRange 16).all fun a =>
    match s.slot a with
    | none => true
    | some v => v.wf && decide (a.val < s.nslot)

/-- The invariant of the machine. -/
def State.wf (s : State) : Bool := s.configWf && s.slotsWf && s.responseWf

/-! ### Terms of claims -/

/-- `t` is `s` but for the slots and the response: `CFG`, `MAXSZ`, the staging registers, the pending payload, the host's
pending actions, its last read and the free-value counter are unchanged. -/
def State.SameBeside (s t : State) : Prop :=
  t.cfg = s.cfg ∧ t.maxsz = s.maxsz ∧ t.arg0 = s.arg0 ∧ t.arg1 = s.arg1 ∧ t.payload = s.payload ∧
    t.inbox = s.inbox ∧ t.rdata = s.rdata ∧ t.freeCount = s.freeCount

/-- The response of a success (60_exceptions.md R206) with its `OUT` beats. -/
def State.Success (t : State) (res : Word) (beats : List Word) : Prop :=
  t.status = 0 ∧ t.res = res ∧ t.errval = 0 ∧ t.errlim = 0 ∧ t.out = beats

/-- `t` is `s` after a command that succeeds and changes no slot. -/
def State.Answered (s t : State) (res : Word) (beats : List Word) : Prop :=
  t.slots = s.slots ∧ t.Success res beats ∧ s.SameBeside t

/-- `t` is `s` after a command that succeeds and leaves `v` in slot `d`, every other slot as it was. -/
def State.Stored (s t : State) (d : Slot) (v : Option PackedVector) (res : Word) : Prop :=
  t.slot d = v ∧ (∀ e, e ≠ d → t.slot e = s.slot e) ∧ t.Success res [] ∧ s.SameBeside t

/-- `t` is `s` after a command that ends with an error (60_exceptions.md R207): no slot changes, nothing is emitted, `RES` is
0 and `STATUS`, `ERRVAL`, `ERRLIM` describe the error. -/
def State.Failed (s t : State) (status errval errlim : Word) : Prop :=
  t.slots = s.slots ∧ t.status = status ∧ t.res = 0 ∧ t.errval = errval ∧ t.errlim = errlim ∧ t.out = [] ∧
    s.SameBeside t

/-- The slot a command writes (its live `VD`), if any (30_encoding.md R72). -/
def destination : Instr → Option Slot
  | .create vd _ => some vd
  | .loadw vd _ _ => some vd
  | .copy vd _ => some vd
  | .free vd => some vd
  | .vsize _ => none
  | .rdw _ _ => none
  | .getb _ _ => none
  | .setb vd _ _ => some vd
  | .tglb vd _ => some vd
  | .getr _ _ _ => none
  | .setr vd _ _ _ => some vd
  | .fill vd _ => some vd
  | .and vd _ _ => some vd
  | .or vd _ _ => some vd
  | .xor vd _ _ => some vd
  | .nand vd _ _ => some vd
  | .nor vd _ _ => some vd
  | .xnor vd _ _ => some vd
  | .diff vd _ _ => some vd
  | .not vd _ => some vd
  | .eq _ _ => none
  | .popc _ => none
  | .idxof _ _ _ => none
  | .lidxof _ _ _ => none
  | .tidx _ _ _ => none

/-- The slots a command reads or modifies and so checks, in the order of the check (60_exceptions.md R211). -/
def checkedSlots : Instr → List Slot
  | .create _ _ => []
  | .loadw _ _ _ => []
  | .copy _ va => [va]
  | .free _ => []
  | .vsize va => [va]
  | .rdw va _ => [va]
  | .getb va _ => [va]
  | .setb vd _ _ => [vd]
  | .tglb vd _ => [vd]
  | .getr va _ _ => [va]
  | .setr vd _ _ _ => [vd]
  | .fill vd _ => [vd]
  | .and _ va vb => [va, vb]
  | .or _ va vb => [va, vb]
  | .xor _ va vb => [va, vb]
  | .nand _ va vb => [va, vb]
  | .nor _ va vb => [va, vb]
  | .xnor _ va vb => [va, vb]
  | .diff _ va vb => [va, vb]
  | .not _ va => [va]
  | .eq va vb => [va, vb]
  | .popc va => [va]
  | .idxof va _ _ => [va]
  | .lidxof va _ _ => [va]
  | .tidx va _ _ => [va]

end Sys2Proof.Machine
end

