-- ==== Sys2Proof/Certificates/Slice0/Obligations.lean ====
section
/-! DEFINITION. The statements for the provers. Helper definitions first: the opcode map copied from the spec's table, and
plain forms of what the rules say. A statement about a vector of an arbitrary state takes as premise that the vector is well
formed (10_state.md R22, R23, R25), which StepKeepsWellFormed states of every run. -/

open Sys2Proof Sys2Proof.Machine

namespace Sys2Proof.Claims

/-- The (mask, match) columns of 30_encoding.md R75, row by row. -/
def specRows : List (Word × Word) :=
  [ (0xFFFFF0FF, 0x01), (0xFFFFF0FF, 0x02), (0xFFFF00FF, 0x03), (0xFFFFF0FF, 0x04), (0xFFFF0FFF, 0x05), (0xFFFF0FFF, 0x06),
    (0xFFFF0FFF, 0x10), (0xFFEFF0FF, 0x11), (0xFFFFF0FF, 0x12), (0xFFFF0FFF, 0x13), (0xFFEFF0FF, 0x14), (0xFFEFF0FF, 0x15),
    (0xFFF000FF, 0x20), (0xFFF000FF, 0x21), (0xFFF000FF, 0x22), (0xFFF000FF, 0x23), (0xFFF000FF, 0x24), (0xFFF000FF, 0x25),
    (0xFFF000FF, 0x26), (0xFFFF00FF, 0x27), (0xFFF00FFF, 0x28),
    (0xFFFF0FFF, 0x30), (0xFFEF0FFF, 0x31), (0xFFEF0FFF, 0x32), (0xFFFF0FFF, 0x40) ]

/-- A row selects a command word (R75). -/
def Selects (row : Word × Word) (cmd : Word) : Prop := cmd &&& row.1 = row.2

/-- Every slot field that is live for the row (its mask does not hold the field) is below `n` (R76 condition 4, R77). -/
def LiveSlotsBelow (n : Nat) (row : Word × Word) (cmd : Word) : Prop :=
  (row.1 &&& 0x00000F00 = 0 → cmd.toNat / 256 % 16 < n) ∧ (row.1 &&& 0x0000F000 = 0 → cmd.toNat / 4096 % 16 < n) ∧
    (row.1 &&& 0x000F0000 = 0 → cmd.toNat / 65536 % 16 < n)

/-- A packet is legal on an engine with `n` slots: none of the five conditions of R76 holds. Conditions 1 to 3 are that no row
of R75 selects the command word; condition 5 is a payload on a command other than `LOADW` (row 0x02). -/
def Legal (n : Nat) (p : Packet) : Prop :=
  ∃ row ∈ specRows, Selects row p.cmd ∧ LiveSlotsBelow n row p.cmd ∧ (row.2 = 0x02 ∨ p.payload = [])

/-- The state a presented packet finds: the host's action is taken, the pending payload consumed (R81). For a whole packet
presented while beats or operand words are staged, dropping the beats and keeping the words is the model's choice (log 20). -/
def Taken (s : State) (rest : List HostEvent) : State := { s with inbox := rest, payload := [] }

/-- The seven binary commands with the opcode and the one-bit function of R143 to R149. -/
def binaryCommands : List ((Slot → Slot → Slot → Instr) × Word × (Bool → Bool → Bool)) :=
  [ (Instr.and, 0x20, fun x y => x && y), (Instr.or, 0x21, fun x y => x || y), (Instr.xor, 0x22, fun x y => x != y),
    (Instr.nand, 0x23, fun x y => !(x && y)), (Instr.nor, 0x24, fun x y => !(x || y)),
    (Instr.xnor, 0x25, fun x y => x == y), (Instr.diff, 0x26, fun x y => x && !y) ]

/-- Run commands in order from a state; none if the machine stops. -/
def runCommands : List Instr → State → Option State
  | [], s => some s
  | i :: is, s =>
    match exec i s with
    | .next t => runCommands is t
    | .fault _ => none
    | .refused _ => none

/-- The vector in slot `d` after commands. -/
def vectorAfter (is : List Instr) (s : State) (d : Slot) : Option PackedVector :=
  (runCommands is s).bind (fun t => t.slot d)

/-- The start of an `IDXOF` scan as R163 computes it on integers. -/
def adjustedStart (size : Nat) (fromIndex : Word) : Int :=
  let f := fromIndex.toInt
  if f < 0 then (if f + size < 0 then 0 else f + size) else f

/-- The bound of an `LIDXOF` scan as R165 computes it on integers. -/
def adjustedBound (size : Nat) (fromIndex : Word) : Int :=
  let t := if fromIndex.toInt < 0 then fromIndex.toInt + size else fromIndex.toInt
  if t > size then size else t

/-- `n` is the operand a command reads: a word that spells the non-negative integer `n`. -/
def Spells (w : Word) (n : Nat) : Prop := w.toInt = n

/-- The command word of R71: `CMD = OP | VD << 8 | VA << 12 | VB << 16 | VAL << 20`. -/
def commandWord (op : Word) (vd va vb : Slot) (val : Bool) : Word :=
  op ||| BitVec.ofNat 32 vd.val <<< 8 ||| BitVec.ofNat 32 va.val <<< 12 ||| BitVec.ofNat 32 vb.val <<< 16 |||
    BitVec.ofNat 32 val.toNat <<< 20

/-- The packet spells the command, on every engine whose slots the command names. -/
def Decodes (p : Packet) (i : Instr) : Prop := ∀ n : Nat, i.wf n = true → decode n p = .ok i

/-- The command completes, changes no slot, and answers `res` with the beats `beats`. -/
def Answers (i : Instr) (s : State) (res : Word) (beats : List Word) : Prop :=
  ∃ t, exec i s = .next t ∧ s.Answered t res beats

/-- The command completes and leaves `v` in slot `d`, every other slot as it was, with the result `res`. -/
def Stores (i : Instr) (s : State) (d : Slot) (v : Option PackedVector) (res : Word) : Prop :=
  ∃ t, exec i s = .next t ∧ s.Stored t d v res

/-- The command ends with an error that changes no slot. -/
def Raises (i : Instr) (s : State) (status errval errlim : Word) : Prop :=
  ∃ t, exec i s = .next t ∧ s.Failed t status errval errlim

/-- With slot `a` empty, the command raises `SlotInvalid` with the number of `a`. -/
def NeedsSlot (i : Instr) (s : State) (a : Slot) : Prop :=
  s.slot a = none → Raises i s 0xA3 (BitVec.ofNat 32 a.val) 0

/-- An operand that is not an integer in `0 .. limit - 1`. -/
def Outside (w : Word) (limit : Nat) : Prop := ¬(0 ≤ w.toInt ∧ w.toInt < limit)

/-- A legal vector size (R22). -/
def LegalSize (n : Nat) : Prop := 1 ≤ n ∧ n ≤ 536870911

/-- The three range errors of R125 in their order: `start` against the size, `count` against the size + 1, then their sum. -/
def RangeErrors (i : Instr) (s : State) (size : Nat) (start count : Word) : Prop :=
  (Outside start size → Raises i s 0x42 start (BitVec.ofNat 32 size)) ∧
  (¬Outside start size → Outside count (size + 1) → Raises i s 0x42 count (BitVec.ofNat 32 (size + 1))) ∧
  (¬Outside start size → ¬Outside count (size + 1) → (size : Int) < start.toInt + count.toInt →
    Raises i s 0x52 (start + count) (BitVec.ofNat 32 (size + 1)))

end Sys2Proof.Claims

open Sys2Proof.Claims

/-! ### Encoding -/

/-- Decoding the packet of a well-formed command gives the command back, with every operand at every value (R70 to R75, R81). -/
def Obligations.DecodeOfEncodeIsTheCommand : Prop :=
  ∀ (n : Nat) (i : Instr), i.wf n = true → decode n (encode i) = .ok i

/-- A packet that decodes is well formed and is, in its command word and payload, the packet of the command it decodes to: a
command has exactly one encoding (R74, R76, R77). -/
def Obligations.DecodedPacketIsItsEncoding : Prop :=
  ∀ (n : Nat) (p : Packet) (i : Instr), decode n p = .ok i →
    i.wf n = true ∧ (encode i).cmd = p.cmd ∧ (encode i).payload = p.payload

/-- The decoder agrees with the masks and matches of R75: a legal packet, with a `LOADW` payload of the length its `ARG1` says,
decodes to a command whose command word it is. -/
def Obligations.LegalPacketDecodes : Prop :=
  ∀ (n : Nat) (p : Packet), Legal n p → (fieldOP p.cmd = 0x02 → p.arg1.toNat = p.payload.length) →
    ∃ i, decode n p = .ok i ∧ (encode i).cmd = p.cmd

/-- Words written out from the encodings of R101, R126, R143, R163 and R181 decode to those commands. -/
def Obligations.SampleWordsDecode : Prop :=
  decode 4 ⟨0x00000001, 33, 0, []⟩ = .ok (.create 0 33) ∧
  decode 4 ⟨0x00100114, 30, 40, []⟩ = .ok (.setr 1 true 30 40) ∧
  decode 4 ⟨0x00010220, 0, 0, []⟩ = .ok (.and 2 0 1) ∧
  decode 4 ⟨0x00103031, 0xFFFFFFFF, 0, []⟩ = .ok (.idxof 3 true 0xFFFFFFFF) ∧
  decode 4 ⟨0x00000040, 0, 10, []⟩ = .ok (.tidx 0 0 10)

/-! ### The port -/

/-- A step runs the decoded command: when the oldest action of the host presents a packet that decodes to `i`, the step is
`exec i` on the state with that action taken and the pending payload consumed. With words staged by register writes, that the
packet's own words are used, staged beats dropped and staged operand words kept is the model's choice (log 20). -/
def Obligations.StepRunsDecodedCommand : Prop :=
  ∀ (s : State) (p : Packet) (rest : List HostEvent) (i : Instr), s.inbox = .present p :: rest →
    decode s.nslot p = .ok i → step s = exec i (Taken s rest)

/-- An illegal packet raises `IllegalCommand`, with the command word in `ERRVAL`, and changes no slot (R76, R210). With words
staged by register writes, that staged beats are dropped and staged operand words kept is the model's choice (log 20). -/
def Obligations.IllegalPacketRaisesIllegalCommand : Prop :=
  ∀ (s : State) (p : Packet) (rest : List HostEvent), s.inbox = .present p :: rest → ¬Legal s.nslot p →
    ∃ t, step s = .next t ∧ (Taken s rest).Failed t 0x93 p.cmd 0

/-- A legal `LOADW` packet whose `ARG1` is not its number of payload beats is refused by name (R81: not a well-formed
packet). -/
def Obligations.LoadwLengthMismatchIsRefused : Prop :=
  ∀ (s : State) (p : Packet) (rest : List HostEvent), s.inbox = .present p :: rest → Legal s.nslot p →
    fieldOP p.cmd = 0x02 → p.arg1.toNat ≠ p.payload.length → step s = .refused .payloadLengthMismatch

/-- Writing `CMD` presents the packet made of that word, the current `ARG0` and `ARG1` and the pending payload (R37, R81). -/
def Obligations.WritingCmdPresentsTheStagedPacket : Prop :=
  ∀ (s : State) (w : Word) (rest : List HostEvent),
    step { s with inbox := .write .cmd w :: rest } = step { s with inbox := .present ⟨w, s.arg0, s.arg1, s.payload⟩ :: rest }

/-- The host's other writes: `ARG0`, `ARG1` and `PAYLOAD` stage their word, a read-only register is not written (R37). -/
def Obligations.HostWritesStageOrDoNothing : Prop :=
  ∀ (s : State) (r : HostReg) (w : Word) (rest : List HostEvent), s.inbox = .write r w :: rest → r ≠ .cmd →
    step s = .next { s with
      inbox := rest
      arg0 := if r = .arg0 then w else s.arg0
      arg1 := if r = .arg1 then w else s.arg1
      payload := if r = .payload then s.payload ++ [w] else s.payload }

/-- The host's reads: each readable register returns its word, `OUT` returns the next beat and takes it; a read changes
nothing else (R37). The engine's `MAXSZ` and `CFG` are read like the others (R33). -/
def Obligations.HostReadsReturnTheRegister : Prop :=
  ∀ (s : State) (rest : List HostEvent) (r : HostReg) (w : Word), s.inbox = .read r :: rest →
    (r, w) ∈ [(HostReg.status, s.status), (.res, s.res), (.errval, s.errval), (.errlim, s.errlim), (.cfg, s.cfg),
        (.maxsz, s.maxsz)] ∨ (r = .out ∧ s.out.head? = some w) →
    step s = .next { s with inbox := rest, rdata := w, out := if r = .out then s.out.tail else s.out }

/-- A read whose value the spec leaves open changes no state of the engine, whatever word it returns (R37; the returned word is
free: model's choice of form, log 5). -/
def Obligations.UnspecifiedReadChangesNoEngineState : Prop :=
  ∀ (s : State) (rest : List HostEvent) (r : HostReg), s.inbox = .read r :: rest →
    r ∈ [HostReg.cmd, .arg0, .arg1, .payload] ∨ (r = .out ∧ s.out = []) →
    ∃ t, step s = .next t ∧ { t with rdata := s.rdata, freeCount := s.freeCount } = { s with inbox := rest }

/-- Reset, from every state: every slot empty, the response registers 0, no pending payload beats, no unread `OUT` beats; `CFG`
and `MAXSZ` are constants (R230, R38). -/
def Obligations.ResetEmptiesTheEngine : Prop :=
  ∀ (s : State) (rest : List HostEvent), s.inbox = .reset :: rest →
    ∃ t, step s = .next t ∧ (∀ a, t.slot a = none) ∧ t.status = 0 ∧ t.res = 0 ∧ t.errval = 0 ∧ t.errlim = 0 ∧
      t.payload = [] ∧ t.out = [] ∧ t.cfg = s.cfg ∧ t.maxsz = s.maxsz

/-- What the model adds to reset (log 3, 5 and 16, not the spec's): the staging registers become 0, the host's remaining
actions and the number of free values used stay. -/
def Obligations.ResetKeepsTheHostsActions : Prop :=
  ∀ (s : State) (rest : List HostEvent), s.inbox = .reset :: rest →
    ∃ t, step s = .next t ∧ t.inbox = rest ∧ t.freeCount = s.freeCount ∧ t.arg0 = 0 ∧ t.arg1 = 0

/-- The reset table of R38, for every number of slots. -/
def Obligations.ResetStateIsTheResetTable : Prop :=
  ∀ n : Nat, 1 ≤ n → n ≤ 16 →
    (∀ a, (State.resetWith n).slot a = none) ∧ (State.resetWith n).status = 0 ∧ (State.resetWith n).res = 0 ∧
      (State.resetWith n).errval = 0 ∧ (State.resetWith n).errlim = 0 ∧
      (State.resetWith n).cfg.toNat % 32 = n ∧ (State.resetWith n).cfg.toNat / 32 = 0 ∧
      (State.resetWith n).maxsz = 0x1FFFFFFF ∧ (State.resetWith n).payload = [] ∧ (State.resetWith n).out = []

/-! ### Invariants and whole-machine rules -/

/-- Every step keeps the invariant: a legal configuration, every slot's vector with a legal size, canonical words below
`WORDCOUNT` and a clear tail, no vector at or above `NSLOT`, and response registers of a success or of an error with a `STATUS`
the engine can write (R21, R22, R23, R25, R31, R33). -/
def Obligations.StepKeepsWellFormed : Prop :=
  ∀ s t : State, s.wf = true → step s = .next t → t.wf = true

/-- The state after reset meets the invariant, for every number of slots; the machine starts with the default number, 4
(R5; that `State.reset` uses the default is the model's choice, log 1). -/
def Obligations.ResetIsWellFormed : Prop :=
  (∀ n : Nat, 1 ≤ n → n ≤ 16 → (State.resetWith n).wf = true ∧ (State.resetWith n).nslot = n) ∧
    State.reset = State.resetWith 4

/-- No step changes `CFG` or `MAXSZ`, from any state (R33). -/
def Obligations.StepKeepsConfiguration : Prop :=
  ∀ s t : State, step s = .next t → t.cfg = s.cfg ∧ t.maxsz = s.maxsz

/-- A command changes no slot but its destination, and nothing beside the slots and the response (R26, R234). -/
def Obligations.CommandChangesOnlyItsDestination : Prop :=
  ∀ (i : Instr) (s t : State), exec i s = .next t →
    (∀ e, destination i ≠ some e → t.slot e = s.slot e) ∧ s.SameBeside t

/-- Every command ends with a success response or with an error response that changes no slot and emits nothing (R206, R207). -/
def Obligations.ResponseIsSuccessOrFailure : Prop :=
  ∀ (i : Instr) (s t : State), exec i s = .next t →
    (t.status = 0 ∧ t.errval = 0 ∧ t.errlim = 0) ∨
      (t.status ∈ ([0x32, 0x42, 0x52, 0x62, 0x72, 0xA3] : List Word) ∧ s.Failed t t.status t.errval t.errlim)

/-- The response and the slots a command leaves are a function of the slots it finds: no earlier response, staged word or
unread beat shows in them (R62, R218). -/
def Obligations.CommandReadsSlotsOnly : Prop :=
  ∀ (i : Instr) (s1 s2 t1 t2 : State), s1.slots = s2.slots → exec i s1 = .next t1 → exec i s2 = .next t2 →
    t1.slots = t2.slots ∧ t1.status = t2.status ∧ t1.res = t2.res ∧ t1.errval = t2.errval ∧ t1.errlim = t2.errlim ∧
      t1.out = t2.out

/-- The first empty slot a command checks is the error it reports, before any operand check (R205, R211). -/
def Obligations.EmptySlotRaisesSlotInvalid : Prop :=
  ∀ (i : Instr) (s : State) (a : Slot), (checkedSlots i).find? (fun b => (s.slot b).isNone) = some a →
    ∃ t, exec i s = .next t ∧ s.Failed t 0xA3 (BitVec.ofNat 32 a.val) 0

/-! ### Construction and lifecycle -/

/-- `CREATE` (R101): its packet, with any `ARG1`; a size in `1 .. 536,870,911` makes a zero-filled vector; any other size
raises `OutOfRange`. -/
def Obligations.CreateMakesZeroVector : Prop :=
  ∀ (s : State) (vd : Slot) (size : Word),
    (∀ x, Decodes ⟨commandWord 0x01 vd 0 0 false, size, x, []⟩ (.create vd size)) ∧
    (∀ n, Spells size n → LegalSize n →
      ∃ v, Stores (.create vd size) s vd (some v) 0 ∧ v.size = n ∧ (∀ k, v.memRead k = 0) ∧ v.wf = true) ∧
    (¬(1 ≤ size.toInt ∧ size.toInt ≤ 536870911) → Raises (.create vd size) s 0x32 size 0x20000000)

/-- `LOADW` (R102, R103): its packet; `OutOfRange` for an illegal size, then `RawTooLong` for more than `wordCount(size)`
words; else the vector whose word `k` is the `k`-th word supplied, zero beyond them, with the tail mask on the last word. -/
def Obligations.LoadwMakesVectorOfWords : Prop :=
  ∀ (s : State) (vd : Slot) (size : Word) (ws : List Word),
    Decodes ⟨commandWord 0x02 vd 0 0 false, size, BitVec.ofNat 32 ws.length, ws⟩ (.loadw vd size ws) ∧
    (¬(1 ≤ size.toInt ∧ size.toInt ≤ 536870911) → Raises (.loadw vd size ws) s 0x32 size 0x20000000) ∧
    (∀ n, Spells size n → LegalSize n → (n + 31) / 32 < ws.length →
      Raises (.loadw vd size ws) s 0x72 (BitVec.ofNat 32 ws.length) (BitVec.ofNat 32 ((n + 31) / 32 + 1))) ∧
    (∀ n, Spells size n → LegalSize n → ws.length ≤ (n + 31) / 32 →
      ∃ v, Stores (.loadw vd size ws) s vd (some v) 0 ∧ v.size = n ∧ v.wf = true ∧
        (∀ k, k + 1 < (n + 31) / 32 → v.memRead k = ws.getD k 0) ∧
        (∀ k, k + 1 = (n + 31) / 32 →
          v.memRead k = if n % 32 = 0 then ws.getD k 0 else ws.getD k 0 &&& BitVec.ofNat 32 (2 ^ (n % 32) - 1)))

/-- `COPY` (R104): its packet, with any operand words; the source's slot must hold a vector; the destination then holds a
vector of the same size and words, and the source's slot still holds its own. -/
def Obligations.CopyDuplicatesTheVector : Prop :=
  ∀ (s : State) (vd va : Slot),
    (∀ x y, Decodes ⟨commandWord 0x03 vd va 0 false, x, y, []⟩ (.copy vd va)) ∧ NeedsSlot (.copy vd va) s va ∧
    (∀ v, s.slot va = some v → Stores (.copy vd va) s vd (some v) 0 ∧
      ∀ t, exec (.copy vd va) s = .next t → t.slot va = some v)

/-- `FREE` (R105): its packet, with any operand words; the slot becomes empty, whether it held a vector or not. -/
def Obligations.FreeEmptiesTheSlot : Prop :=
  ∀ (s : State) (vd : Slot),
    (∀ x y, Decodes ⟨commandWord 0x04 vd 0 0 false, x, y, []⟩ (.free vd)) ∧ Stores (.free vd) s vd none 0

/-- `VSIZE` (R107): its packet, with any operand words; the size of the vector. -/
def Obligations.VsizeAnswersTheSize : Prop :=
  ∀ (s : State) (va : Slot),
    (∀ x y, Decodes ⟨commandWord 0x05 0 va 0 false, x, y, []⟩ (.vsize va)) ∧ NeedsSlot (.vsize va) s va ∧
    (∀ v, s.slot va = some v → Answers (.vsize va) s (BitVec.ofNat 32 v.size) [])

/-- `RDW` (R108): its packet, with any `ARG1`; the word, or `IndexBounds` against `WORDCOUNT`. -/
def Obligations.RdwAnswersTheWord : Prop :=
  ∀ (s : State) (va : Slot) (k : Word),
    (∀ x, Decodes ⟨commandWord 0x06 0 va 0 false, k, x, []⟩ (.rdw va k)) ∧ NeedsSlot (.rdw va k) s va ∧
    (∀ v, s.slot va = some v →
      (Outside k ((v.size + 31) / 32) → Raises (.rdw va k) s 0x42 k (BitVec.ofNat 32 ((v.size + 31) / 32))) ∧
      (∀ n, Spells k n → n < (v.size + 31) / 32 → Answers (.rdw va k) s (v.memRead n) []))

/-! ### Single bits and ranges -/

/-- The addressing law (R51): for every word number `k` and offset `o`, logical index `32 k + o` has word number `k`, offset
`o` and mask `1 << o`, and is bit `o` of word `k`. -/
def Obligations.LogicalBitIsBitOfItsWord : Prop :=
  ∀ (v : PackedVector) (k o : Nat), o < 32 →
    boolWord (v.bit (32 * k + o)) = (v.memRead k >>> o) &&& 1 ∧ chunk (32 * k + o) = k ∧ off (32 * k + o) = o ∧
      bitmask (32 * k + o) = (1 : Word) <<< o

/-- `GETB` (R121): its packet, with any `ARG1`; `(MemRead(a, chunk(i)) >> off(i)) & 1`, or `IndexBounds` against `SIZE`. -/
def Obligations.GetbAnswersTheBit : Prop :=
  ∀ (s : State) (va : Slot) (i : Word),
    (∀ x, Decodes ⟨commandWord 0x10 0 va 0 false, i, x, []⟩ (.getb va i)) ∧ NeedsSlot (.getb va i) s va ∧
    (∀ v, s.slot va = some v →
      (Outside i v.size → Raises (.getb va i) s 0x42 i (BitVec.ofNat 32 v.size)) ∧
      (∀ n, Spells i n → n < v.size → Answers (.getb va i) s ((v.memRead (n / 32) >>> (n % 32)) &&& 1) []))

/-- `SETB` (R122): its packet, with any `ARG1`; `IndexBounds` outside the vector; else the bit takes the value, every other bit
and every other word stays. -/
def Obligations.SetbWritesOneBit : Prop :=
  ∀ (s : State) (vd : Slot) (val : Bool) (i : Word),
    (∀ x, Decodes ⟨commandWord 0x11 vd 0 0 val, i, x, []⟩ (.setb vd val i)) ∧ NeedsSlot (.setb vd val i) s vd ∧
    (∀ v, s.slot vd = some v → v.wf = true →
      (Outside i v.size → Raises (.setb vd val i) s 0x42 i (BitVec.ofNat 32 v.size)) ∧
      (∀ n, Spells i n → n < v.size →
        ∃ u, Stores (.setb vd val i) s vd (some u) 0 ∧ u.size = v.size ∧ u.wf = true ∧
          (∀ j, u.bit j = if j = n then val else v.bit j) ∧ (∀ k, k ≠ n / 32 → u.memRead k = v.memRead k)))

/-- Round trip (R122): after `SETB i, val`, `GETB i` answers `val`. -/
def Obligations.GetbAfterSetb : Prop :=
  ∀ (s : State) (a : Slot) (v : PackedVector) (val : Bool) (i : Word), s.slot a = some v → v.wf = true →
    0 ≤ i.toInt → i.toInt < v.size →
    ∃ t, runCommands [.setb a val i, .getb a i] s = some t ∧ t.status = 0 ∧ t.res = if val then 1 else 0

/-- `TGLB` (R123): its packet, with any `ARG1`; `IndexBounds` outside the vector; else the bit is inverted, `RES` is its new
value, every other bit stays. -/
def Obligations.TglbInvertsOneBit : Prop :=
  ∀ (s : State) (vd : Slot) (i : Word),
    (∀ x, Decodes ⟨commandWord 0x12 vd 0 0 false, i, x, []⟩ (.tglb vd i)) ∧ NeedsSlot (.tglb vd i) s vd ∧
    (∀ v, s.slot vd = some v → v.wf = true →
      (Outside i v.size → Raises (.tglb vd i) s 0x42 i (BitVec.ofNat 32 v.size)) ∧
      (∀ n, Spells i n → n < v.size →
        ∃ u, Stores (.tglb vd i) s vd (some u) (if v.bit n then 0 else 1) ∧ u.size = v.size ∧ u.wf = true ∧
          ∀ j, u.bit j = if j = n then !v.bit j else v.bit j))

/-- Two `TGLB` of one index restore the vector (R123). -/
def Obligations.TglbTwiceRestores : Prop :=
  ∀ (s : State) (vd : Slot) (v : PackedVector) (i : Word), s.slot vd = some v → v.wf = true →
    0 ≤ i.toInt → i.toInt < v.size → vectorAfter [.tglb vd i, .tglb vd i] s vd = some v

/-- `GETR` (R124): its packet; the range errors of R125; else the bits of the range, one per beat, ascending, and their
number. -/
def Obligations.GetrDeliversTheRange : Prop :=
  ∀ (s : State) (va : Slot) (start count : Word),
    Decodes ⟨commandWord 0x13 0 va 0 false, start, count, []⟩ (.getr va start count) ∧
    NeedsSlot (.getr va start count) s va ∧
    (∀ v, s.slot va = some v → v.wf = true →
      RangeErrors (.getr va start count) s v.size start count ∧
      (∀ b n, Spells start b → Spells count n → b < v.size → b + n ≤ v.size →
        Answers (.getr va start count) s (BitVec.ofNat 32 n)
          ((List.range n).map (fun j => if v.bit (b + j) then (1 : Word) else 0))))

/-- `SETR` (R126): its packet; the range errors of R125; else the bits of the range take the value, every other bit stays, the
padding stays clear. -/
def Obligations.SetrWritesTheRange : Prop :=
  ∀ (s : State) (vd : Slot) (val : Bool) (start count : Word),
    Decodes ⟨commandWord 0x14 vd 0 0 val, start, count, []⟩ (.setr vd val start count) ∧
    NeedsSlot (.setr vd val start count) s vd ∧
    (∀ v, s.slot vd = some v → v.wf = true →
      RangeErrors (.setr vd val start count) s v.size start count ∧
      (∀ b n, Spells start b → Spells count n → b < v.size → b + n ≤ v.size →
        ∃ u, Stores (.setr vd val start count) s vd (some u) 0 ∧ u.size = v.size ∧ u.wf = true ∧
          ∀ j, u.bit j = if b ≤ j ∧ j < b + n then val else v.bit j))

/-- The effect of `SETR` equals `count` successive `SETB` (R126). -/
def Obligations.SetrEqualsSuccessiveSetb : Prop :=
  ∀ (s : State) (vd : Slot) (v : PackedVector) (val : Bool) (start count : Word) (b n : Nat), s.slot vd = some v →
    v.wf = true → Spells start b → Spells count n → b < v.size → b + n ≤ v.size →
    ∃ u, vectorAfter [.setr vd val start count] s vd = some u ∧
      vectorAfter ((List.range n).map (fun j => .setb vd val (BitVec.ofNat 32 (b + j)))) s vd = some u

/-- `FILL` (R127): its packet, with any operand words; every logical bit takes the value, the padding stays clear, and the last
word of a vector filled with true is its `TAILMASK`. -/
def Obligations.FillSetsEveryBit : Prop :=
  ∀ (s : State) (vd : Slot) (val : Bool),
    (∀ x y, Decodes ⟨commandWord 0x15 vd 0 0 val, x, y, []⟩ (.fill vd val)) ∧ NeedsSlot (.fill vd val) s vd ∧
    (∀ v, s.slot vd = some v → v.wf = true →
      ∃ u, Stores (.fill vd val) s vd (some u) 0 ∧ u.size = v.size ∧ u.wf = true ∧
        (∀ j, u.bit j = (val && decide (j < v.size))) ∧
        (val = true → u.memRead ((v.size + 31) / 32 - 1) = v.tailMask))

/-! ### Set algebra -/

/-- `AND`, `OR`, `XOR`, `NAND`, `NOR`, `XNOR`, `DIFF` (R141 to R149), in every choice of slots (R142): their packets, with any
operand words; the left and then the right source must hold a vector; sizes must agree; then the destination holds a vector of
that size with, at every logical index, the one-bit function of the operands' bits, and clear padding. -/
def Obligations.BinaryCommandsCombineBits : Prop :=
  ∀ c ∈ binaryCommands, ∀ (s : State) (vd va vb : Slot),
    (∀ x y, Decodes ⟨commandWord c.2.1 vd va vb false, x, y, []⟩ (c.1 vd va vb)) ∧ NeedsSlot (c.1 vd va vb) s va ∧
    (∀ a, s.slot va = some a → NeedsSlot (c.1 vd va vb) s vb ∧
      (∀ b, s.slot vb = some b → a.size ≠ b.size →
        Raises (c.1 vd va vb) s 0x62 (BitVec.ofNat 32 b.size) (BitVec.ofNat 32 a.size)) ∧
      (∀ b, s.slot vb = some b → a.wf = true → a.size = b.size →
        ∃ u, Stores (c.1 vd va vb) s vd (some u) 0 ∧ u.size = a.size ∧ u.wf = true ∧
          ∀ i, i < a.size → u.bit i = c.2.2 (a.bit i) (b.bit i)))

/-- `NOT` (R150): its packet, with any operand words; every logical bit is inverted, the padding stays clear. -/
def Obligations.NotComplementsBits : Prop :=
  ∀ (s : State) (vd va : Slot),
    (∀ x y, Decodes ⟨commandWord 0x27 vd va 0 false, x, y, []⟩ (.not vd va)) ∧ NeedsSlot (.not vd va) s va ∧
    (∀ a, s.slot va = some a → a.wf = true →
      ∃ u, Stores (.not vd va) s vd (some u) 0 ∧ u.size = a.size ∧ u.wf = true ∧
        ∀ i, u.bit i = (decide (i < a.size) && !a.bit i))

/-- `EQ` (R151): its packet, with any operand words; the left and then the right source must hold a vector; 1 exactly when the
sizes and all logical bits agree, else 0, so a size mismatch is an answer. -/
def Obligations.EqComparesVectors : Prop :=
  ∀ (s : State) (va vb : Slot),
    (∀ x y, Decodes ⟨commandWord 0x28 0 va vb false, x, y, []⟩ (.eq va vb)) ∧ NeedsSlot (.eq va vb) s va ∧
    (∀ a, s.slot va = some a → NeedsSlot (.eq va vb) s vb ∧
      (∀ b, s.slot vb = some b → a.wf = true → b.wf = true →
        ((a.size = b.size ∧ ∀ i, i < a.size → a.bit i = b.bit i) → Answers (.eq va vb) s 1 []) ∧
        (¬(a.size = b.size ∧ ∀ i, i < a.size → a.bit i = b.bit i) → Answers (.eq va vb) s 0 [])))

/-- The algebraic laws of R152, as commands: De Morgan for `NOT`, `AND`, `OR` (equal to `NAND` and `NOR`), `NOT` twice, `AND` and
`OR` of a vector with itself, and the all-false `XOR` and `DIFF` of a vector with itself. -/
def Obligations.SetAlgebraLaws : Prop :=
  ∀ (s : State) (x y d e : Slot) (a b : PackedVector), s.slot x = some a → s.slot y = some b → a.wf = true → b.wf = true →
    a.size = b.size → d ≠ e → d ≠ x → d ≠ y → e ≠ x → e ≠ y →
    (∃ u, vectorAfter [.and d x y, .not d d] s d = some u ∧ vectorAfter [.not d x, .not e y, .or d d e] s d = some u ∧
      vectorAfter [.nand d x y] s d = some u) ∧
    (∃ u, vectorAfter [.or d x y, .not d d] s d = some u ∧ vectorAfter [.not d x, .not e y, .and d d e] s d = some u ∧
      vectorAfter [.nor d x y] s d = some u) ∧
    vectorAfter [.not d x, .not d d] s d = some a ∧ vectorAfter [.and d x x] s d = some a ∧
    vectorAfter [.or d x x] s d = some a ∧ vectorAfter [.xor d x x] s d = some (zeroVector a.size) ∧
    vectorAfter [.diff d x x] s d = some (zeroVector a.size)

/-! ### Count, search and enumeration -/

/-- `POPC` (R161): its packet, with any operand words; the number of logical indices whose bit is 1, never padding. -/
def Obligations.PopcCountsLogicalBits : Prop :=
  ∀ (s : State) (va : Slot),
    (∀ x y, Decodes ⟨commandWord 0x30 0 va 0 false, x, y, []⟩ (.popc va)) ∧ NeedsSlot (.popc va) s va ∧
    (∀ v, s.slot va = some v → v.wf = true →
      Answers (.popc va) s (BitVec.ofNat 32 ((List.range v.size).countP (fun i => v.bit i))) [])

/-- The SWAR sequence of R162 computes the number of 1 bits, for every word. -/
def Obligations.SwarEqualsPopcount : Prop :=
  ∀ w : Word, popcountSWAR w = BitVec.ofNat 32 (popcount32 w)

/-- The formulas of R164 and R166 give the positions of the lowest and of the highest 1 bit of every non-zero word, which are
the values the searches use. -/
def Obligations.LeadingZeroFormulas : Prop :=
  ∀ x : Word, x ≠ 0 →
    (x.getLsbD (31 - clz32 (x &&& -x)) = true ∧ (∀ b, b < 31 - clz32 (x &&& -x) → x.getLsbD b = false) ∧
      ffs32 x = 31 - clz32 (x &&& -x)) ∧
    (x.getLsbD (31 - clz32 x) = true ∧ (∀ b, 31 - clz32 x < b → x.getLsbD b = false) ∧ fls32 x = 31 - clz32 x)

/-- `IDXOF` (R163): its packet, with any `ARG1`; the least index at or above the adjusted `fromIndex` with the searched value, or
-1; every `fromIndex` has a result. -/
def Obligations.IdxofFindsLeastIndex : Prop :=
  ∀ (s : State) (va : Slot) (val : Bool) (fromIndex : Word),
    (∀ x, Decodes ⟨commandWord 0x31 0 va 0 val, fromIndex, x, []⟩ (.idxof va val fromIndex)) ∧
    NeedsSlot (.idxof va val fromIndex) s va ∧
    (∀ v, s.slot va = some v → v.wf = true →
      (∀ i, i < v.size → adjustedStart v.size fromIndex ≤ i → v.bit i = val →
        (∀ j, j < i → adjustedStart v.size fromIndex ≤ j → v.bit j ≠ val) →
        Answers (.idxof va val fromIndex) s (BitVec.ofNat 32 i) []) ∧
      ((∀ i, i < v.size → adjustedStart v.size fromIndex ≤ i → v.bit i ≠ val) →
        Answers (.idxof va val fromIndex) s 0xFFFFFFFF []))

/-- `LIDXOF` (R165): its packet, with any `ARG1`; the greatest index below the adjusted `fromIndex` with the searched value, or
-1; when the adjusted `fromIndex` is 0 or less, index 0 alone is checked. -/
def Obligations.LidxofFindsGreatestIndex : Prop :=
  ∀ (s : State) (va : Slot) (val : Bool) (fromIndex : Word),
    (∀ x, Decodes ⟨commandWord 0x32 0 va 0 val, fromIndex, x, []⟩ (.lidxof va val fromIndex)) ∧
    NeedsSlot (.lidxof va val fromIndex) s va ∧
    (∀ v, s.slot va = some v → v.wf = true →
      (adjustedBound v.size fromIndex ≤ 0 →
        Answers (.lidxof va val fromIndex) s (if v.bit 0 = val then 0 else 0xFFFFFFFF) []) ∧
      (1 ≤ adjustedBound v.size fromIndex →
        (∀ i : Nat, i < adjustedBound v.size fromIndex → v.bit i = val →
          (∀ j : Nat, i < j → j < adjustedBound v.size fromIndex → v.bit j ≠ val) →
          Answers (.lidxof va val fromIndex) s (BitVec.ofNat 32 i) []) ∧
        ((∀ i : Nat, i < adjustedBound v.size fromIndex → v.bit i ≠ val) →
          Answers (.lidxof va val fromIndex) s 0xFFFFFFFF [])))

/-- The set-index aliases (R167): `FFS va, from` is `IDXOF va, 1, from`, and with bound 0 `FLS` answers as with bound 1, the
quirk of R165. -/
def Obligations.FlsQuirkIsBoundOne : Prop :=
  ∀ (s : State) (va : Slot) (v : PackedVector) (fromIndex : Word), s.slot va = some v → v.wf = true →
    pseudoFfs va fromIndex = .idxof va true fromIndex ∧ pseudoFls va fromIndex = .lidxof va true fromIndex ∧
    exec (pseudoFls va 0) s = exec (pseudoFls va 1) s

/-- `TIDX` (R181): its packet; `start` is checked against `SIZE`, then `end` against `SIZE + 1`; else the set indices in
`[start, end)`, one per beat, strictly ascending, and their number; `end <= start` gives none. -/
def Obligations.TidxEnumeratesSetIndices : Prop :=
  ∀ (s : State) (va : Slot) (start stop : Word),
    Decodes ⟨commandWord 0x40 0 va 0 false, start, stop, []⟩ (.tidx va start stop) ∧
    NeedsSlot (.tidx va start stop) s va ∧
    (∀ v, s.slot va = some v →
      (Outside start v.size → Raises (.tidx va start stop) s 0x42 start (BitVec.ofNat 32 v.size)) ∧
      (¬Outside start v.size → Outside stop (v.size + 1) →
        Raises (.tidx va start stop) s 0x42 stop (BitVec.ofNat 32 (v.size + 1))) ∧
      (∀ b e, Spells start b → Spells stop e → b < v.size → e ≤ v.size →
        ∃ l : List Nat, Answers (.tidx va start stop) s (BitVec.ofNat 32 l.length) (l.map (fun i => BitVec.ofNat 32 i)) ∧
          l.Pairwise (fun i j => i < j) ∧ ∀ i, i ∈ l ↔ b ≤ i ∧ i < e ∧ v.bit i = true))

/-- The word-level walk of R184 emits exactly the sequence of R181's definition when `start < end`. -/
def Obligations.TidxWordWalkIsTheDefinition : Prop :=
  ∀ (v : PackedVector) (start stop : Nat), v.wf = true → start < stop → stop ≤ v.size →
    walkIndices v start stop = setIndices v start stop

/-! ### Host-side sequences and the byte view -/

/-- `FROMINDICES` (R80): when every index is an index of the vector, the slot ends with exactly those bits set; else the host's
`FREE` leaves it empty. No other slot changes. -/
def Obligations.FromIndicesBuildsOrFrees : Prop :=
  ∀ (s : State) (vd : Slot) (size : Word) (n : Nat) (l : List Word), Spells size n → LegalSize n →
    ∃ t, runOrFree vd (pseudoFromIndices vd size l) s = .next t ∧ (∀ e, e ≠ vd → t.slot e = s.slot e) ∧
      ((∀ w ∈ l, ¬Outside w n) → ∃ u, t.slot vd = some u ∧ u.size = n ∧ u.wf = true ∧
        ∀ j : Nat, u.bit j = true ↔ ∃ w ∈ l, w.toInt = j) ∧
      ((∃ w ∈ l, Outside w n) → t.slot vd = none)

/-- The byte order of R60: logical bit `i` of a vector lands in byte `i / 8` at bit `i % 8` of its serialised buffer. -/
def Obligations.SerialisedBitLandsInItsByte : Prop :=
  ∀ (v : PackedVector) (i : Nat), i < v.size → (v.bytes.getD (i / 8) 0).getLsbD (i % 8) = v.bit i
end

