-- ==== Sys2Proof/Laws/Bits.lean ====
section
/-! SUPPORT. The helper functions bit by bit: which bits of `bitmask`, `low`, `span` and `tailMask` are 1, and the arithmetic
of the addressing law. -/

namespace Sys2Proof.Machine

theorem chunk_add_off (i : Nat) : 32 * chunk i + off i = i := by unfold chunk off; omega

theorem off_lt (i : Nat) : off i < 32 := by unfold off; omega

theorem chunk_of_index {k b : Nat} (hb : b < 32) : chunk (32 * k + b) = k := by unfold chunk; omega

theorem off_of_index {k b : Nat} (hb : b < 32) : off (32 * k + b) = b := by unfold off; omega

/-- A validated index lies in a word of the vector (20_memory.md R53). -/
theorem chunk_lt_wordCount {i n : Nat} (h : i < n) : chunk i < wordCount n := by
  unfold chunk wordCount; omega

theorem wordCount_pos {n : Nat} (h : 1 ≤ n) : 1 ≤ wordCount n := by unfold wordCount; omega

/-- A full word holds logical indices only. -/
theorem index_lt_of_full {n k b : Nat} (hk : k + 1 < wordCount n) (hb : b < 32) : 32 * k + b < n := by
  unfold wordCount at hk; omega

theorem bitmask_getLsbD (i b : Nat) : (bitmask i).getLsbD b = decide (b = off i) := by
  have h := off_lt i
  unfold bitmask
  rw [BitVec.getLsbD_shiftLeft]
  by_cases hb : b = off i
  · subst hb; simp [h]
  · simp [hb]; omega

theorem low_getLsbD {n : Nat} (hn : n ≤ 32) (b : Nat) : (low n).getLsbD b = decide (b < n) := by
  unfold low
  rw [BitVec.getLsbD_ofNat]
  by_cases hb : b < n
  · simp [hb, Nat.testBit_two_pow_sub_one]; omega
  · simp [hb, Nat.testBit_two_pow_sub_one]

theorem span_getLsbD {lo hi : Nat} (hl : lo ≤ 32) (hh : hi ≤ 32) (b : Nat) (hb : b < 32) :
    (span lo hi).getLsbD b = (decide (lo ≤ b) && decide (b < hi)) := by
  unfold span
  rw [BitVec.getLsbD_and, BitVec.getLsbD_not, low_getLsbD hl, low_getLsbD hh]
  by_cases h : b < lo
  · simp [h, Nat.not_le.2 h]
  · simp [hb, h, Nat.le_of_not_lt h]

theorem allOnes_getLsbD (b : Nat) : (0xFFFFFFFF : Word).getLsbD b = decide (b < 32) := by
  rw [show (0xFFFFFFFF : Word) = BitVec.allOnes 32 by decide, BitVec.getLsbD_allOnes]

/-- A bit of `TAILMASK` is 1 exactly at the positions of the last word that are logical indices (10_state.md R24, R25). -/
theorem tailMask_getLsbD {n : Nat} (hn : 1 ≤ n) (b : Nat) (hb : b < 32) :
    (tailMask n).getLsbD b = decide (32 * (wordCount n - 1) + b < n) := by
  unfold tailMask tailBits
  split
  · rename_i h
    rw [allOnes_getLsbD]
    have : 32 * (wordCount n - 1) + b < n := by unfold wordCount; omega
    simp [hb, this]
  · rename_i h
    have hlt : n % 32 < 32 := Nat.mod_lt _ (by decide)
    have e : ((1 : Word) <<< (n % 32)) - 1 = low (n % 32) := by
      have : ∀ m : Fin 32, ((1 : Word) <<< m.val) - 1 = low m.val := by decide
      exact this ⟨n % 32, hlt⟩
    rw [e, low_getLsbD (by omega)]
    have : (b < n % 32) ↔ (32 * (wordCount n - 1) + b < n) := by unfold wordCount; omega
    simp [this]

theorem fillWord_getLsbD (val : Bool) (b : Nat) (hb : b < 32) : (fillWord val).getLsbD b = val := by
  cases val
  · simp [fillWord]
  · show (0xFFFFFFFF : Word).getLsbD b = true
    rw [allOnes_getLsbD]; simp [hb]

theorem mem_setPositions {w : Word} {b : Nat} : b ∈ setPositions w ↔ b < 32 ∧ w.getLsbD b = true := by
  simp [setPositions]

/-- A word is 0 exactly when it has no 1 bit. -/
theorem word_ne_zero_iff (w : Word) : w ≠ 0 ↔ ∃ b, b < 32 ∧ w.getLsbD b = true := by
  constructor
  · intro h
    by_contra hno
    apply h
    apply BitVec.eq_of_getLsbD_eq
    intro i hi
    have : w.getLsbD i ≠ true := fun ht => hno ⟨i, hi, ht⟩
    simpa using this
  · rintro ⟨b, _, hb⟩ h
    subst h
    simp at hb

theorem setPositions_ne_nil {w : Word} (h : w ≠ 0) : setPositions w ≠ [] := by
  obtain ⟨b, hb, hw⟩ := (word_ne_zero_iff w).1 h
  exact List.ne_nil_of_mem (mem_setPositions.2 ⟨hb, hw⟩)

theorem setPositions_sorted (w : Word) : (setPositions w).Pairwise (· < ·) :=
  List.Pairwise.filter _ List.pairwise_lt_range

/-- `ffs32` is the position of the lowest 1 bit (43_count_search.md R164). -/
theorem ffs32_spec {w : Word} (h : w ≠ 0) :
    ffs32 w < 32 ∧ w.getLsbD (ffs32 w) = true ∧ ∀ b, b < ffs32 w → w.getLsbD b = false := by
  have hne := setPositions_ne_nil h
  have hs := setPositions_sorted w
  unfold ffs32
  cases hp : setPositions w with
  | nil => exact absurd hp hne
  | cons a l =>
    have ha : a ∈ setPositions w := by rw [hp]; exact List.mem_cons_self
    have ha' := mem_setPositions.1 ha
    rw [hp] at hs
    refine ⟨ha'.1, ha'.2, fun b hb => ?_⟩
    simp only [List.headD_cons] at hb
    by_contra hw
    have hm : b ∈ setPositions w := mem_setPositions.2 ⟨by omega, by simpa using hw⟩
    rw [hp] at hm
    rcases List.mem_cons.1 hm with hm | hm
    · omega
    · have := (List.pairwise_cons.1 hs).1 b hm
      omega

/-- `fls32` is the position of the highest 1 bit (43_count_search.md R166). -/
theorem fls32_spec {w : Word} (h : w ≠ 0) :
    fls32 w < 32 ∧ w.getLsbD (fls32 w) = true ∧ ∀ b, fls32 w < b → w.getLsbD b = false := by
  have hne := setPositions_ne_nil h
  have hs := setPositions_sorted w
  have hl : fls32 w = (setPositions w).getLast hne := by
    unfold fls32; rw [List.getLastD_eq_getLast?, List.getLast?_eq_some_getLast hne]; rfl
  have hm : fls32 w ∈ setPositions w := hl ▸ List.getLast_mem hne
  have hm' := mem_setPositions.1 hm
  refine ⟨hm'.1, hm'.2, fun b hb => ?_⟩
  by_contra hw
  have hb32 : b < 32 := by
    by_contra hge
    exact hw (BitVec.getLsbD_of_ge w b (by omega))
  have hbm : b ∈ setPositions w := mem_setPositions.2 ⟨hb32, by simpa using hw⟩
  have hsplit := List.dropLast_append_getLast hne
  rw [← hsplit] at hbm hs
  rw [List.pairwise_append] at hs
  rcases List.mem_append.1 hbm with hd | hd
  · have := hs.2.2 b hd _ (List.mem_singleton.2 rfl)
    omega
  · have := List.mem_singleton.1 hd
    omega

end Sys2Proof.Machine
end

