-- ==== Sys2Proof/Laws/Decode.lean ====
section
/-! SUPPORT. The fields of the command word an encoder writes, and what a successful decode says of a packet. -/

namespace Sys2Proof

theorem cmdWord_toNat (op : BitVec 8) (vd va vb : Slot) (val : Bool) :
    (cmdWord op vd va vb val).toNat =
      op.toNat + 256 * vd.val + 4096 * va.val + 65536 * vb.val + 1048576 * val.toNat := by
  have h0 := op.isLt
  have h1 := vd.isLt
  have h2 := va.isLt
  have h3 := vb.isLt
  have h4 : val.toNat < 2 := by cases val <;> decide
  unfold cmdWord
  simp only [BitVec.toNat_append, BitVec.toNat_ofNat, BitVec.toNat_ofBool]
  rw [← Nat.shiftLeft_add_eq_or_of_lt (by omega), ← Nat.shiftLeft_add_eq_or_of_lt (by omega),
    ← Nat.shiftLeft_add_eq_or_of_lt (by omega), ← Nat.shiftLeft_add_eq_or_of_lt (by omega),
    ← Nat.shiftLeft_add_eq_or_of_lt (by omega)]
  simp only [Nat.shiftLeft_eq]
  omega

theorem extract_toNat (w : Word) (lo n : Nat) : (w.extractLsb' lo n).toNat = w.toNat / 2 ^ lo % 2 ^ n := by
  rw [BitVec.extractLsb'_toNat, Nat.shiftRight_eq_div_pow]

@[simp] theorem fieldOP_cmdWord (op : BitVec 8) (vd va vb : Slot) (val : Bool) :
    fieldOP (cmdWord op vd va vb val) = op := by
  apply BitVec.eq_of_toNat_eq
  have h0 := op.isLt
  unfold fieldOP
  rw [extract_toNat, cmdWord_toNat]
  omega

@[simp] theorem fieldVD_cmdWord (op : BitVec 8) (vd va vb : Slot) (val : Bool) :
    fieldVD (cmdWord op vd va vb val) = vd := by
  apply Fin.ext
  have h0 := op.isLt
  have h1 := vd.isLt
  show ((cmdWord op vd va vb val).extractLsb' 8 4).toNat = vd.val
  rw [extract_toNat, cmdWord_toNat]
  omega

@[simp] theorem fieldVA_cmdWord (op : BitVec 8) (vd va vb : Slot) (val : Bool) :
    fieldVA (cmdWord op vd va vb val) = va := by
  apply Fin.ext
  have h0 := op.isLt
  have h1 := vd.isLt
  have h2 := va.isLt
  show ((cmdWord op vd va vb val).extractLsb' 12 4).toNat = va.val
  rw [extract_toNat, cmdWord_toNat]
  omega

@[simp] theorem fieldVB_cmdWord (op : BitVec 8) (vd va vb : Slot) (val : Bool) :
    fieldVB (cmdWord op vd va vb val) = vb := by
  apply Fin.ext
  have h0 := op.isLt
  have h1 := vd.isLt
  have h2 := va.isLt
  have h3 := vb.isLt
  show ((cmdWord op vd va vb val).extractLsb' 16 4).toNat = vb.val
  rw [extract_toNat, cmdWord_toNat]
  omega

@[simp] theorem fieldVAL_cmdWord (op : BitVec 8) (vd va vb : Slot) (val : Bool) :
    fieldVAL (cmdWord op vd va vb val) = val := by
  have h0 := op.isLt
  have h1 := vd.isLt
  have h2 := va.isLt
  have h3 := vb.isLt
  unfold fieldVAL BitVec.getLsbD
  rw [cmdWord_toNat, Nat.testBit_eq_decide_div_mod_eq]
  cases val <;> simp <;> omega

@[simp] theorem fieldReserved_cmdWord (op : BitVec 8) (vd va vb : Slot) (val : Bool) :
    fieldReserved (cmdWord op vd va vb val) = 0 := by
  apply BitVec.eq_of_toNat_eq
  have h0 := op.isLt
  have h1 := vd.isLt
  have h2 := va.isLt
  have h3 := vb.isLt
  have h4 : val.toNat < 2 := by cases val <;> decide
  unfold fieldReserved
  rw [extract_toNat, cmdWord_toNat]
  simp
  omega

/-- A command word with zero reserved bits is the word of its fields (R71). -/
theorem cmdWord_of_fields (w : Word) (h : fieldReserved w = 0) :
    cmdWord (fieldOP w) (fieldVD w) (fieldVA w) (fieldVB w) (fieldVAL w) = w := by
  apply BitVec.eq_of_toNat_eq
  have hw := w.isLt
  have hr : w.toNat / 2 ^ 21 % 2 ^ 11 = 0 := by
    rw [← extract_toNat]; unfold fieldReserved at h; rw [h]; rfl
  rw [cmdWord_toNat]
  have hv : (fieldVAL w).toNat = w.toNat / 2 ^ 20 % 2 := by
    unfold fieldVAL BitVec.getLsbD
    rw [Nat.testBit_eq_decide_div_mod_eq]
    rcases Nat.mod_two_eq_zero_or_one (w.toNat / 2 ^ 20) with h | h <;> rw [h] <;> rfl
  rw [hv]
  unfold fieldOP fieldVD fieldVA fieldVB
  simp only [extract_toNat]
  omega

/-- What a successful decode says: the reserved bits are 0, a row of the opcode map was found, its dead fields are 0, its live
slots name slots, and the payload is that of the row. -/
theorem decode_eq_ok {n : Nat} {p : Packet} {i : Instr} (h : decode n p = .ok i) :
    fieldReserved p.cmd = 0 ∧ ∃ r, rowOf (fieldOP p.cmd) = some r ∧ deadFieldSet r.format p.cmd = false ∧
      slotNumberBad n r.format p.cmd = false ∧ (r.op ≠ opLOADW → p.payload = []) ∧
      (r.op = opLOADW → zext32 p.arg1 = p.payload.length) ∧ i = r.build p := by
  unfold decode at h
  split at h
  · simp at h
  · rename_i h0
    split at h
    · simp at h
    · rename_i r hr
      split at h
      · simp at h
      · rename_i h1
        split at h
        · simp at h
        · rename_i h2
          split at h
          · simp at h
          · rename_i h3
            split at h
            · simp at h
            · rename_i h4
              simp only [Except.ok.injEq] at h
              refine ⟨by simpa using h0, r, hr, by simpa using h1, by simpa using h2, ?_, ?_, h.symm⟩
              · intro ho; by_contra hp; exact h3 ⟨ho, hp⟩
              · intro ho; by_contra hp; exact h4 ⟨ho, hp⟩

end Sys2Proof
end

