-- ==== Sys2Proof/Laws/State.lean ====
section
/-! SUPPORT. One lemma per field per update of the state, and slot reads after a slot write. -/

namespace Sys2Proof.Machine

/-! ### Writing a slot changes the slots alone -/

@[simp] theorem State.setSlot_slots (s : State) (d : Slot) (v : Option PackedVector) : (s.setSlot d v).slots = s.slots.set d.val v := rfl
@[simp] theorem State.setSlot_status (s : State) (d : Slot) (v : Option PackedVector) : (s.setSlot d v).status = s.status := rfl
@[simp] theorem State.setSlot_res (s : State) (d : Slot) (v : Option PackedVector) : (s.setSlot d v).res = s.res := rfl
@[simp] theorem State.setSlot_errval (s : State) (d : Slot) (v : Option PackedVector) : (s.setSlot d v).errval = s.errval := rfl
@[simp] theorem State.setSlot_errlim (s : State) (d : Slot) (v : Option PackedVector) : (s.setSlot d v).errlim = s.errlim := rfl
@[simp] theorem State.setSlot_cfg (s : State) (d : Slot) (v : Option PackedVector) : (s.setSlot d v).cfg = s.cfg := rfl
@[simp] theorem State.setSlot_maxsz (s : State) (d : Slot) (v : Option PackedVector) : (s.setSlot d v).maxsz = s.maxsz := rfl
@[simp] theorem State.setSlot_arg0 (s : State) (d : Slot) (v : Option PackedVector) : (s.setSlot d v).arg0 = s.arg0 := rfl
@[simp] theorem State.setSlot_arg1 (s : State) (d : Slot) (v : Option PackedVector) : (s.setSlot d v).arg1 = s.arg1 := rfl
@[simp] theorem State.setSlot_payload (s : State) (d : Slot) (v : Option PackedVector) : (s.setSlot d v).payload = s.payload := rfl
@[simp] theorem State.setSlot_out (s : State) (d : Slot) (v : Option PackedVector) : (s.setSlot d v).out = s.out := rfl
@[simp] theorem State.setSlot_inbox (s : State) (d : Slot) (v : Option PackedVector) : (s.setSlot d v).inbox = s.inbox := rfl
@[simp] theorem State.setSlot_rdata (s : State) (d : Slot) (v : Option PackedVector) : (s.setSlot d v).rdata = s.rdata := rfl
@[simp] theorem State.setSlot_freeCount (s : State) (d : Slot) (v : Option PackedVector) : (s.setSlot d v).freeCount = s.freeCount := rfl
@[simp] theorem State.setSlot_nslot (s : State) (d : Slot) (v : Option PackedVector) : (s.setSlot d v).nslot = s.nslot := rfl

/-! ### The success response -/

@[simp] theorem State.respond_slots (s : State) (res : Word) (beats : List Word) : (s.respond res beats).slots = s.slots := rfl
@[simp] theorem State.respond_status (s : State) (res : Word) (beats : List Word) : (s.respond res beats).status = 0 := rfl
@[simp] theorem State.respond_res (s : State) (res : Word) (beats : List Word) : (s.respond res beats).res = res := rfl
@[simp] theorem State.respond_errval (s : State) (res : Word) (beats : List Word) : (s.respond res beats).errval = 0 := rfl
@[simp] theorem State.respond_errlim (s : State) (res : Word) (beats : List Word) : (s.respond res beats).errlim = 0 := rfl
@[simp] theorem State.respond_cfg (s : State) (res : Word) (beats : List Word) : (s.respond res beats).cfg = s.cfg := rfl
@[simp] theorem State.respond_maxsz (s : State) (res : Word) (beats : List Word) : (s.respond res beats).maxsz = s.maxsz := rfl
@[simp] theorem State.respond_arg0 (s : State) (res : Word) (beats : List Word) : (s.respond res beats).arg0 = s.arg0 := rfl
@[simp] theorem State.respond_arg1 (s : State) (res : Word) (beats : List Word) : (s.respond res beats).arg1 = s.arg1 := rfl
@[simp] theorem State.respond_payload (s : State) (res : Word) (beats : List Word) : (s.respond res beats).payload = s.payload := rfl
@[simp] theorem State.respond_out (s : State) (res : Word) (beats : List Word) : (s.respond res beats).out = beats := rfl
@[simp] theorem State.respond_inbox (s : State) (res : Word) (beats : List Word) : (s.respond res beats).inbox = s.inbox := rfl
@[simp] theorem State.respond_rdata (s : State) (res : Word) (beats : List Word) : (s.respond res beats).rdata = s.rdata := rfl
@[simp] theorem State.respond_freeCount (s : State) (res : Word) (beats : List Word) : (s.respond res beats).freeCount = s.freeCount := rfl
@[simp] theorem State.respond_nslot (s : State) (res : Word) (beats : List Word) : (s.respond res beats).nslot = s.nslot := rfl
@[simp] theorem State.respond_slot (s : State) (res : Word) (beats : List Word) (a : Slot) : (s.respond res beats).slot a = s.slot a := rfl

/-! ### The error response -/

@[simp] theorem State.raise_slots (s : State) (f : Failure) : (s.raise f).slots = s.slots := rfl
@[simp] theorem State.raise_status (s : State) (f : Failure) : (s.raise f).status = statusWord f.cause := rfl
@[simp] theorem State.raise_res (s : State) (f : Failure) : (s.raise f).res = 0 := rfl
@[simp] theorem State.raise_errval (s : State) (f : Failure) : (s.raise f).errval = f.val := rfl
@[simp] theorem State.raise_errlim (s : State) (f : Failure) : (s.raise f).errlim = f.lim := rfl
@[simp] theorem State.raise_cfg (s : State) (f : Failure) : (s.raise f).cfg = s.cfg := rfl
@[simp] theorem State.raise_maxsz (s : State) (f : Failure) : (s.raise f).maxsz = s.maxsz := rfl
@[simp] theorem State.raise_arg0 (s : State) (f : Failure) : (s.raise f).arg0 = s.arg0 := rfl
@[simp] theorem State.raise_arg1 (s : State) (f : Failure) : (s.raise f).arg1 = s.arg1 := rfl
@[simp] theorem State.raise_payload (s : State) (f : Failure) : (s.raise f).payload = s.payload := rfl
@[simp] theorem State.raise_out (s : State) (f : Failure) : (s.raise f).out = [] := rfl
@[simp] theorem State.raise_inbox (s : State) (f : Failure) : (s.raise f).inbox = s.inbox := rfl
@[simp] theorem State.raise_rdata (s : State) (f : Failure) : (s.raise f).rdata = s.rdata := rfl
@[simp] theorem State.raise_freeCount (s : State) (f : Failure) : (s.raise f).freeCount = s.freeCount := rfl
@[simp] theorem State.raise_nslot (s : State) (f : Failure) : (s.raise f).nslot = s.nslot := rfl
@[simp] theorem State.raise_slot (s : State) (f : Failure) (a : Slot) : (s.raise f).slot a = s.slot a := rfl

/-! ### Consuming the pending payload -/

@[simp] theorem State.consumePayload_slots (s : State) : s.consumePayload.slots = s.slots := rfl
@[simp] theorem State.consumePayload_status (s : State) : s.consumePayload.status = s.status := rfl
@[simp] theorem State.consumePayload_res (s : State) : s.consumePayload.res = s.res := rfl
@[simp] theorem State.consumePayload_errval (s : State) : s.consumePayload.errval = s.errval := rfl
@[simp] theorem State.consumePayload_errlim (s : State) : s.consumePayload.errlim = s.errlim := rfl
@[simp] theorem State.consumePayload_cfg (s : State) : s.consumePayload.cfg = s.cfg := rfl
@[simp] theorem State.consumePayload_maxsz (s : State) : s.consumePayload.maxsz = s.maxsz := rfl
@[simp] theorem State.consumePayload_arg0 (s : State) : s.consumePayload.arg0 = s.arg0 := rfl
@[simp] theorem State.consumePayload_arg1 (s : State) : s.consumePayload.arg1 = s.arg1 := rfl
@[simp] theorem State.consumePayload_payload (s : State) : s.consumePayload.payload = [] := rfl
@[simp] theorem State.consumePayload_out (s : State) : s.consumePayload.out = s.out := rfl
@[simp] theorem State.consumePayload_inbox (s : State) : s.consumePayload.inbox = s.inbox := rfl
@[simp] theorem State.consumePayload_rdata (s : State) : s.consumePayload.rdata = s.rdata := rfl
@[simp] theorem State.consumePayload_freeCount (s : State) : s.consumePayload.freeCount = s.freeCount := rfl
@[simp] theorem State.consumePayload_nslot (s : State) : s.consumePayload.nslot = s.nslot := rfl
@[simp] theorem State.consumePayload_slot (s : State) (a : Slot) : s.consumePayload.slot a = s.slot a := rfl

/-! ### An unspecified host read -/

@[simp] theorem State.readUnspecified_slots (s : State) : s.readUnspecified.slots = s.slots := rfl
@[simp] theorem State.readUnspecified_status (s : State) : s.readUnspecified.status = s.status := rfl
@[simp] theorem State.readUnspecified_res (s : State) : s.readUnspecified.res = s.res := rfl
@[simp] theorem State.readUnspecified_errval (s : State) : s.readUnspecified.errval = s.errval := rfl
@[simp] theorem State.readUnspecified_errlim (s : State) : s.readUnspecified.errlim = s.errlim := rfl
@[simp] theorem State.readUnspecified_cfg (s : State) : s.readUnspecified.cfg = s.cfg := rfl
@[simp] theorem State.readUnspecified_maxsz (s : State) : s.readUnspecified.maxsz = s.maxsz := rfl
@[simp] theorem State.readUnspecified_arg0 (s : State) : s.readUnspecified.arg0 = s.arg0 := rfl
@[simp] theorem State.readUnspecified_arg1 (s : State) : s.readUnspecified.arg1 = s.arg1 := rfl
@[simp] theorem State.readUnspecified_payload (s : State) : s.readUnspecified.payload = s.payload := rfl
@[simp] theorem State.readUnspecified_out (s : State) : s.readUnspecified.out = s.out := rfl
@[simp] theorem State.readUnspecified_inbox (s : State) : s.readUnspecified.inbox = s.inbox := rfl
@[simp] theorem State.readUnspecified_rdata (s : State) : s.readUnspecified.rdata = Config.freeWord s.freeCount := rfl
@[simp] theorem State.readUnspecified_freeCount (s : State) : s.readUnspecified.freeCount = s.freeCount + 1 := rfl
@[simp] theorem State.readUnspecified_nslot (s : State) : s.readUnspecified.nslot = s.nslot := rfl
@[simp] theorem State.readUnspecified_slot (s : State) (a : Slot) : s.readUnspecified.slot a = s.slot a := rfl

/-! ### Reset -/

@[simp] theorem State.applyReset_slots (s : State) : s.applyReset.slots = Vector.replicate 16 none := rfl
@[simp] theorem State.applyReset_status (s : State) : s.applyReset.status = 0 := rfl
@[simp] theorem State.applyReset_res (s : State) : s.applyReset.res = 0 := rfl
@[simp] theorem State.applyReset_errval (s : State) : s.applyReset.errval = 0 := rfl
@[simp] theorem State.applyReset_errlim (s : State) : s.applyReset.errlim = 0 := rfl
@[simp] theorem State.applyReset_cfg (s : State) : s.applyReset.cfg = s.cfg := rfl
@[simp] theorem State.applyReset_maxsz (s : State) : s.applyReset.maxsz = s.maxsz := rfl
@[simp] theorem State.applyReset_arg0 (s : State) : s.applyReset.arg0 = 0 := rfl
@[simp] theorem State.applyReset_arg1 (s : State) : s.applyReset.arg1 = 0 := rfl
@[simp] theorem State.applyReset_payload (s : State) : s.applyReset.payload = [] := rfl
@[simp] theorem State.applyReset_out (s : State) : s.applyReset.out = [] := rfl
@[simp] theorem State.applyReset_inbox (s : State) : s.applyReset.inbox = s.inbox := rfl
@[simp] theorem State.applyReset_rdata (s : State) : s.applyReset.rdata = 0 := rfl
@[simp] theorem State.applyReset_freeCount (s : State) : s.applyReset.freeCount = s.freeCount := rfl
@[simp] theorem State.applyReset_nslot (s : State) : s.applyReset.nslot = s.nslot := rfl

/-! ### Placing a packet at the port -/

@[simp] theorem State.withFetchWord_slots (s : State) (nbits w : Nat) : (s.withFetchWord nbits w).slots = s.slots := rfl
@[simp] theorem State.withFetchWord_status (s : State) (nbits w : Nat) : (s.withFetchWord nbits w).status = s.status := rfl
@[simp] theorem State.withFetchWord_res (s : State) (nbits w : Nat) : (s.withFetchWord nbits w).res = s.res := rfl
@[simp] theorem State.withFetchWord_errval (s : State) (nbits w : Nat) : (s.withFetchWord nbits w).errval = s.errval := rfl
@[simp] theorem State.withFetchWord_errlim (s : State) (nbits w : Nat) : (s.withFetchWord nbits w).errlim = s.errlim := rfl
@[simp] theorem State.withFetchWord_cfg (s : State) (nbits w : Nat) : (s.withFetchWord nbits w).cfg = s.cfg := rfl
@[simp] theorem State.withFetchWord_maxsz (s : State) (nbits w : Nat) : (s.withFetchWord nbits w).maxsz = s.maxsz := rfl
@[simp] theorem State.withFetchWord_arg0 (s : State) (nbits w : Nat) : (s.withFetchWord nbits w).arg0 = s.arg0 := rfl
@[simp] theorem State.withFetchWord_arg1 (s : State) (nbits w : Nat) : (s.withFetchWord nbits w).arg1 = s.arg1 := rfl
@[simp] theorem State.withFetchWord_payload (s : State) (nbits w : Nat) : (s.withFetchWord nbits w).payload = s.payload := rfl
@[simp] theorem State.withFetchWord_out (s : State) (nbits w : Nat) : (s.withFetchWord nbits w).out = s.out := rfl
@[simp] theorem State.withFetchWord_inbox (s : State) (nbits w : Nat) : (s.withFetchWord nbits w).inbox = .present (packetOfBits nbits w) :: s.inbox := rfl
@[simp] theorem State.withFetchWord_rdata (s : State) (nbits w : Nat) : (s.withFetchWord nbits w).rdata = s.rdata := rfl
@[simp] theorem State.withFetchWord_freeCount (s : State) (nbits w : Nat) : (s.withFetchWord nbits w).freeCount = s.freeCount := rfl
@[simp] theorem State.withFetchWord_slot (s : State) (nbits w : Nat) (a : Slot) : (s.withFetchWord nbits w).slot a = s.slot a := rfl

/-! ### Slots -/

@[simp] theorem State.setSlot_slot_self (s : State) (d : Slot) (v : Option PackedVector) : (s.setSlot d v).slot d = v := by
  simp [State.slot]

theorem State.setSlot_slot_of_ne (s : State) (d e : Slot) (v : Option PackedVector) (h : e ≠ d) :
    (s.setSlot d v).slot e = s.slot e := by
  have h' : d.val ≠ e.val := fun hv => h (Fin.ext hv.symm)
  simp [State.slot, h']

@[simp] theorem State.applyReset_slot (s : State) (a : Slot) : s.applyReset.slot a = none := by
  simp [State.slot]

@[simp] theorem State.resetWith_slot (n : Nat) (a : Slot) : (State.resetWith n).slot a = none := by
  simp [State.slot, State.resetWith]

/-- Two states with equal slot reads have equal slots. -/
theorem State.slots_ext (s t : State) (h : ∀ a, t.slot a = s.slot a) : t.slots = s.slots := by
  apply Vector.ext
  intro i hi
  exact h ⟨i, hi⟩

@[simp] theorem State.applyUpdate_none (s : State) : s.applyUpdate none = s := rfl
@[simp] theorem State.applyUpdate_some (s : State) (d : Slot) (v : Option PackedVector) :
    s.applyUpdate (some (d, v)) = s.setSlot d v := rfl

end Sys2Proof.Machine
end

