-- ==== Sys2Proof/Laws/Response.lean ====
section
/-! SUPPORT. The checks and the end of a command: for each shared operation, once, everything it can do. -/

namespace Sys2Proof.Machine

/-! ### Sequencing of checks -/

@[simp] theorem check_ok_bind {α β : Type} (a : α) (f : α → Except Failure β) :
    (Except.ok a >>= f : Except Failure β) = f a := rfl

@[simp] theorem check_error_bind {α β : Type} (e : Failure) (f : α → Except Failure β) :
    (Except.error e >>= f : Except Failure β) = .error e := rfl

/-- A sequence of checks passes exactly when its first check passes and the rest passes on its value. -/
theorem check_bind_eq_ok {α β : Type} {c : Except Failure α} {f : α → Except Failure β} {b : β} :
    (c >>= f) = .ok b ↔ ∃ a, c = .ok a ∧ f a = .ok b := by
  cases c with
  | error e => simp
  | ok a => simp

/-! ### The end of a command -/

@[simp] theorem State.finish_ok (s : State) (e : Effect) :
    s.finish (.ok e) = .next ((s.applyUpdate e.update).respond e.res e.beats) := rfl

@[simp] theorem State.finish_error (s : State) (f : Failure) : s.finish (.error f) = .next (s.raise f) := rfl

/-- A command ends in a next state, whatever its checks find: with its error, or with its effect applied whole. -/
theorem State.finish_cases {s t : State} {r : Except Failure Effect} (h : s.finish r = .next t) :
    (∃ f, r = .error f ∧ t = s.raise f) ∨
      (∃ e, r = .ok e ∧ t = (s.applyUpdate e.update).respond e.res e.beats) := by
  cases r with
  | error f => exact .inl ⟨f, rfl, by simpa using h.symm⟩
  | ok e => exact .inr ⟨e, rfl, by simpa using h.symm⟩

/-! ### The slot check (60_exceptions.md R211) -/

theorem requireSlot_some {s : State} {a : Slot} {v : PackedVector} (h : s.slot a = some v) :
    requireSlot s a = .ok v := by
  unfold requireSlot; rw [h]

theorem requireSlot_none {s : State} {a : Slot} (h : s.slot a = none) :
    requireSlot s a = .error ⟨.slotInvalid, BitVec.ofNat 32 a.val, 0⟩ := by
  unfold requireSlot; rw [h]

theorem requireSlot_eq_ok {s : State} {a : Slot} {v : PackedVector} :
    requireSlot s a = .ok v ↔ s.slot a = some v := by
  unfold requireSlot
  cases s.slot a <;> simp

/-! ### The operand checks -/

/-- `word(sext_32(w))` is `w` again (60_exceptions.md R216). -/
@[simp] theorem wordOf_signedOperand (w : Word) : wordOf (signedOperand w) = w := by
  simp [wordOf, signedOperand, sext32]

@[simp] theorem wordOf_natCast (n : Nat) : wordOf (n : Int) = BitVec.ofNat 32 n := by
  simp [wordOf]

theorem validate_ok {value : Int} {maxSize : Nat} (h : 0 ≤ value ∧ value < maxSize) :
    validate value maxSize = .ok value.toNat := by
  unfold validate; rw [if_neg (by omega)]

theorem validate_error {value : Int} {maxSize : Nat} (h : ¬(0 ≤ value ∧ value < maxSize)) :
    validate value maxSize = .error ⟨.indexBounds, wordOf value, wordOf maxSize⟩ := by
  unfold validate; rw [if_pos (by omega)]

theorem validate_eq_ok {value : Int} {maxSize n : Nat} :
    validate value maxSize = .ok n ↔ value = n ∧ n < maxSize := by
  by_cases h : 0 ≤ value ∧ value < maxSize
  · rw [validate_ok h]
    simp only [Except.ok.injEq]
    omega
  · rw [validate_error h]
    simp only [reduceCtorEq, false_iff]
    omega

theorem checkSize_ok {size : Int} (h : 1 ≤ size ∧ size ≤ (Config.maxSafeSize : Int)) :
    checkSize size = .ok size.toNat := by
  unfold checkSize; rw [if_neg (by omega)]

theorem checkSize_error {size : Int} (h : ¬(1 ≤ size ∧ size ≤ (Config.maxSafeSize : Int))) :
    checkSize size = .error ⟨.outOfRange, wordOf size, 0x20000000⟩ := by
  unfold checkSize; rw [if_pos (by omega)]

theorem checkSize_eq_ok {size : Int} {n : Nat} :
    checkSize size = .ok n ↔ size = n ∧ 1 ≤ n ∧ n ≤ Config.maxSafeSize := by
  by_cases h : 1 ≤ size ∧ size ≤ (Config.maxSafeSize : Int)
  · rw [checkSize_ok h]
    simp only [Except.ok.injEq]
    omega
  · rw [checkSize_error h]
    simp only [reduceCtorEq, false_iff]
    omega

theorem checkPayload_eq_ok {n : Nat} {ws : List Word} {u : Unit} :
    checkPayload n ws = .ok u ↔ ws.length ≤ wordCount n := by
  unfold checkPayload
  split
  · simp only [reduceCtorEq, false_iff]; omega
  · simp only [true_iff]; omega

theorem checkSameSize_eq_ok {a b : PackedVector} {u : Unit} : checkSameSize a b = .ok u ↔ a.size = b.size := by
  unfold checkSameSize
  split
  · rename_i h; simp [h]
  · rename_i h; simpa using h

/-- The range check passes exactly on ranges inside the vector whose start is an index (41_bit_range.md R125). -/
theorem rangeCheck_eq_ok {size : Nat} {start count : Int} {r : Nat × Nat} :
    rangeCheck size start count = .ok r ↔
      start = r.1 ∧ count = r.2 ∧ r.1 < size ∧ r.1 + r.2 ≤ size := by
  obtain ⟨a, b⟩ := r
  unfold rangeCheck
  rw [check_bind_eq_ok]
  constructor
  · rintro ⟨x, hx, h⟩
    rw [check_bind_eq_ok] at h
    obtain ⟨y, hy, h⟩ := h
    rw [validate_eq_ok] at hx hy
    split at h
    · simp at h
    · simp only [Except.ok.injEq, Prod.mk.injEq] at h
      obtain ⟨rfl, rfl⟩ := h
      exact ⟨hx.1, hy.1, hx.2, by omega⟩
  · rintro ⟨h1, h2, h3, h4⟩
    simp only at h1 h2 h3 h4
    refine ⟨a, validate_eq_ok.2 ⟨h1, h3⟩, ?_⟩
    rw [check_bind_eq_ok]
    refine ⟨b, validate_eq_ok.2 ⟨h2, by omega⟩, ?_⟩
    rw [if_neg (by omega)]

/-! ### What a command leaves, in the terms of claims -/

/-- Taking an error leaves the state of a failed command (60_exceptions.md R207). -/
theorem State.raise_failed (s : State) (c : Cause) (val lim status : Word) (h : statusWord c = status) :
    s.Failed (s.raise ⟨c, val, lim⟩) status val lim :=
  ⟨rfl, h, rfl, rfl, rfl, rfl, rfl, rfl, rfl, rfl, rfl, rfl, rfl, rfl⟩

/-- A slot write and the success response leave the state of a command that stores. -/
theorem State.update_stored (s : State) (d : Slot) (v : Option PackedVector) (res : Word) :
    s.Stored ((s.applyUpdate (some (d, v))).respond res []) d v res :=
  ⟨by simp, fun e he => by simpa using State.setSlot_slot_of_ne s d e v he, ⟨rfl, rfl, rfl, rfl, rfl⟩,
    rfl, rfl, rfl, rfl, rfl, rfl, rfl, rfl⟩

/-- The success response alone leaves the state of a command that answers. -/
theorem State.respond_answered (s : State) (res : Word) (beats : List Word) :
    s.Answered ((s.applyUpdate none).respond res beats) res beats :=
  ⟨rfl, ⟨rfl, rfl, rfl, rfl, rfl⟩, rfl, rfl, rfl, rfl, rfl, rfl, rfl, rfl⟩

/-! ### STATUS (60_exceptions.md R203) -/

/-- The words the causes write to `STATUS`. -/
theorem statusWord_values (c : Cause) : statusWord c =
    match c with
    | .invalidSize => 0x11
    | .notInteger => 0x21
    | .outOfRange => 0x32
    | .indexBounds => 0x42
    | .rangeExceeded => 0x52
    | .sizeMismatch => 0x62
    | .rawTooLong => 0x72
    | .bufferTooSmall => 0x82
    | .illegalCommand => 0x93
    | .slotInvalid => 0xA3 := by
  cases c <;> decide

/-- No error writes 0 to `STATUS`. -/
theorem statusWord_ne_zero (c : Cause) : statusWord c ≠ 0 := by cases c <;> decide

end Sys2Proof.Machine
end

