-- ==== Sys2Proof/Laws/Memory.lean ====
section
/-! SUPPORT. The word store: read after write, what `ofWords` holds, and that every memory operation keeps the canonical
form. -/

namespace Sys2Proof.Machine

@[simp] theorem Memory.read_nil (k : Nat) : Memory.read [] k = 0 := rfl

theorem Memory.read_cons (j : Nat) (x : Word) (m : Memory) (k : Nat) :
    Memory.read ((j, x) :: m) k = if j = k then x else Memory.read m k := rfl

/-- Below its first word number a canonical memory reads 0. -/
theorem Memory.read_below {lo : Nat} {m : Memory} (h : Memory.wfFrom lo m = true) {k : Nat} (hk : k < lo) :
    Memory.read m k = 0 := by
  induction m generalizing lo with
  | nil => rfl
  | cons c m ih =>
    obtain ⟨j, x⟩ := c
    simp only [Memory.wfFrom, Bool.and_eq_true, decide_eq_true_eq] at h
    rw [Memory.read_cons, if_neg (by omega)]
    exact ih h.2 (by omega)

theorem Memory.wfFrom_mono {lo lo' : Nat} {m : Memory} (h : Memory.wfFrom lo m = true) (hle : lo' ≤ lo) :
    Memory.wfFrom lo' m = true := by
  cases m with
  | nil => rfl
  | cons c m =>
    simp only [Memory.wfFrom, Bool.and_eq_true, decide_eq_true_eq] at h ⊢
    exact ⟨⟨by omega, h.1.2⟩, h.2⟩

/-- Read after write, from any word number on. -/
theorem Memory.read_write_from {lo : Nat} {m : Memory} (h : Memory.wfFrom lo m = true) (k j : Nat) (w : Word) :
    Memory.read (Memory.write m k w) j = if j = k then w else Memory.read m j := by
  induction m generalizing lo with
  | nil =>
    simp only [Memory.write]
    by_cases hw : w = unlistedWord
    · rw [if_pos hw, hw]; simp [unlistedWord]
    · rw [if_neg hw, Memory.read_cons]
      by_cases hj : j = k
      · subst hj; simp
      · rw [if_neg (fun he => hj he.symm), if_neg hj]
  | cons c m ih =>
    obtain ⟨i, x⟩ := c
    simp only [Memory.wfFrom, Bool.and_eq_true, decide_eq_true_eq] at h
    obtain ⟨⟨hlo, hx⟩, hm⟩ := h
    simp only [Memory.write]
    split
    · rename_i hik
      rw [Memory.read_cons, Memory.read_cons, ih hm]
      by_cases hj : j = k
      · subst hj; rw [if_neg (by omega)]; simp
      · simp [hj]
    · split
      · rename_i hik; subst hik
        by_cases hw : w = unlistedWord
        · rw [if_pos hw]
          by_cases hj : j = i
          · subst hj; simp [Memory.read_below hm (Nat.lt_succ_self _), hw, unlistedWord]
          · rw [if_neg hj, Memory.read_cons, if_neg (fun he => hj he.symm)]
        · rw [if_neg hw, Memory.read_cons, Memory.read_cons]
          by_cases hj : j = i
          · subst hj; simp
          · rw [if_neg (fun he => hj he.symm), if_neg hj, if_neg (fun he => hj he.symm)]
      · rename_i h1 h2
        by_cases hw : w = unlistedWord
        · rw [if_pos hw]
          by_cases hj : j = k
          · subst hj
            rw [if_pos rfl, Memory.read_cons, if_neg h2, Memory.read_below hm (by omega), hw]
            rfl
          · rw [if_neg hj]
        · rw [if_neg hw, Memory.read_cons]
          by_cases hj : j = k
          · subst hj; simp
          · rw [if_neg (fun he => hj he.symm), if_neg hj]

theorem Memory.read_write {m : Memory} (h : Memory.wf m = true) (k j : Nat) (w : Word) :
    Memory.read (Memory.write m k w) j = if j = k then w else Memory.read m j :=
  Memory.read_write_from h k j w

theorem Memory.write_wfFrom {lo : Nat} {m : Memory} (h : Memory.wfFrom lo m = true) (k : Nat) (w : Word)
    (hk : lo ≤ k) : Memory.wfFrom lo (Memory.write m k w) = true := by
  induction m generalizing lo with
  | nil =>
    by_cases hw : w = unlistedWord
    · simp [Memory.write, hw, Memory.wfFrom]
    · simp [Memory.write, hw, Memory.wfFrom, hk]
  | cons c m ih =>
    obtain ⟨i, x⟩ := c
    simp only [Memory.wfFrom, Bool.and_eq_true, decide_eq_true_eq] at h
    obtain ⟨⟨hlo, hx⟩, hm⟩ := h
    simp only [Memory.write]
    split
    · rename_i hik
      simp only [Memory.wfFrom, Bool.and_eq_true, decide_eq_true_eq]
      exact ⟨⟨hlo, hx⟩, ih hm (by omega)⟩
    · split
      · rename_i hik; subst hik
        split
        · exact Memory.wfFrom_mono hm (by omega)
        · rename_i hw
          simp only [Memory.wfFrom, Bool.and_eq_true, decide_eq_true_eq]
          exact ⟨⟨hlo, hw⟩, hm⟩
      · split
        · simp only [Memory.wfFrom, Bool.and_eq_true, decide_eq_true_eq]
          exact ⟨⟨hlo, hx⟩, hm⟩
        · rename_i hw
          simp only [Memory.wfFrom, Bool.and_eq_true, decide_eq_true_eq]
          exact ⟨⟨hk, hw⟩, ⟨by omega, hx⟩, hm⟩

/-- A write keeps the canonical form. -/
theorem Memory.write_wf {m : Memory} (h : Memory.wf m = true) (k : Nat) (w : Word) :
    Memory.wf (Memory.write m k w) = true :=
  Memory.write_wfFrom h k w (Nat.zero_le _)

/-- A write lists no word number but its own beside those listed before. -/
theorem Memory.write_keys {m : Memory} {k : Nat} {w : Word} {c : Nat × Word} (h : c ∈ Memory.write m k w) :
    c.1 = k ∨ c ∈ m := by
  induction m with
  | nil =>
    by_cases hw : w = unlistedWord <;> simp_all [Memory.write]
  | cons d m ih =>
    obtain ⟨i, x⟩ := d
    simp only [Memory.write] at h
    split at h
    · rcases List.mem_cons.1 h with h | h
      · exact .inr (List.mem_cons.2 (.inl h))
      · rcases ih h with h | h
        · exact .inl h
        · exact .inr (List.mem_cons.2 (.inr h))
    · split at h
      · split at h
        · exact .inr (List.mem_cons.2 (.inr h))
        · rcases List.mem_cons.1 h with h | h
          · exact .inl (by rw [h])
          · exact .inr (List.mem_cons.2 (.inr h))
      · split at h
        · exact .inr h
        · rcases List.mem_cons.1 h with h | h
          · exact .inl (by rw [h])
          · exact .inr h

theorem Memory.ofWords_wfFrom (start : Nat) (ws : List Word) :
    Memory.wfFrom start (Memory.ofWords start ws) = true := by
  induction ws generalizing start with
  | nil => rfl
  | cons w ws ih =>
    simp only [Memory.ofWords]
    split
    · exact Memory.wfFrom_mono (ih (start + 1)) (Nat.le_succ _)
    · rename_i hw
      simp [Memory.wfFrom, hw, ih (start + 1)]

/-- `ofWords` is in canonical form. -/
theorem Memory.ofWords_wf (ws : List Word) : Memory.wf (Memory.ofWords 0 ws) = true :=
  Memory.ofWords_wfFrom 0 ws

theorem Memory.read_ofWords_from (start : Nat) (ws : List Word) (k : Nat) :
    Memory.read (Memory.ofWords start ws) k = if k < start then 0 else ws.getD (k - start) 0 := by
  induction ws generalizing start with
  | nil => simp [Memory.ofWords]
  | cons w ws ih =>
    have hrest : Memory.read (Memory.ofWords (start + 1) ws) k =
        if k < start + 1 then 0 else ws.getD (k - (start + 1)) 0 := ih (start + 1)
    simp only [Memory.ofWords]
    by_cases hks : k = start
    · subst hks
      split
      · rename_i hw; rw [hrest]; simp [hw, unlistedWord]
      · rw [Memory.read_cons]; simp
    · have hgo : Memory.read (Memory.ofWords (start + 1) ws) k =
          if k < start then 0 else (w :: ws).getD (k - start) 0 := by
        rw [hrest]
        by_cases hlt : k < start
        · rw [if_pos (by omega), if_pos hlt]
        · rw [if_neg (by omega), if_neg hlt]
          obtain ⟨d, rfl⟩ : ∃ d, k = start + 1 + d := ⟨k - (start + 1), by omega⟩
          have h1 : start + 1 + d - (start + 1) = d := by omega
          have h2 : start + 1 + d - start = d + 1 := by omega
          rw [h1, h2, List.getD_cons_succ]
      split
      · exact hgo
      · rw [Memory.read_cons, if_neg (fun he => hks he.symm)]; exact hgo

/-- Word `k` of `ofWords 0 ws` is the `k`-th word of the list, or 0 beyond it. -/
theorem Memory.read_ofWords (ws : List Word) (k : Nat) :
    Memory.read (Memory.ofWords 0 ws) k = ws.getD k 0 := by
  simpa using Memory.read_ofWords_from 0 ws k

theorem Memory.ofWords_keys {start : Nat} {ws : List Word} {c : Nat × Word} (h : c ∈ Memory.ofWords start ws) :
    start ≤ c.1 ∧ c.1 < start + ws.length := by
  induction ws generalizing start c with
  | nil => simp [Memory.ofWords] at h
  | cons w ws ih =>
    simp only [Memory.ofWords] at h
    have step : ∀ {c : Nat × Word}, c ∈ Memory.ofWords (start + 1) ws →
        start ≤ c.1 ∧ c.1 < start + (w :: ws).length := by
      intro c hc
      have := ih hc
      simp only [List.length_cons]
      omega
    split at h
    · exact step h
    · rcases List.mem_cons.1 h with h | h
      · subst h; simp
      · exact step h

/-- A word that no entry lists reads 0. -/
theorem Memory.read_of_not_listed {m : Memory} {k : Nat} (h : ∀ c ∈ m, c.1 ≠ k) : Memory.read m k = 0 := by
  induction m with
  | nil => rfl
  | cons c m ih =>
    obtain ⟨j, x⟩ := c
    rw [Memory.read_cons, if_neg (h (j, x) (by simp))]
    exact ih (fun d hd => h d (by simp [hd]))

/-- Canonical memories with equal reads are equal data. -/
theorem Memory.ext_from {lo : Nat} {m m' : Memory} (h : Memory.wfFrom lo m = true) (h' : Memory.wfFrom lo m' = true)
    (hr : ∀ k, Memory.read m k = Memory.read m' k) : m = m' := by
  induction m generalizing lo m' with
  | nil =>
    cases m' with
    | nil => rfl
    | cons c m' =>
      obtain ⟨j, x⟩ := c
      simp only [Memory.wfFrom, Bool.and_eq_true, decide_eq_true_eq] at h'
      have := hr j
      rw [Memory.read_cons, if_pos rfl, Memory.read_nil] at this
      exact absurd this.symm h'.1.2
  | cons c m ih =>
    obtain ⟨i, x⟩ := c
    simp only [Memory.wfFrom, Bool.and_eq_true, decide_eq_true_eq] at h
    cases m' with
    | nil =>
      have := hr i
      rw [Memory.read_cons, if_pos rfl, Memory.read_nil] at this
      exact absurd this h.1.2
    | cons d m' =>
      obtain ⟨j, y⟩ := d
      simp only [Memory.wfFrom, Bool.and_eq_true, decide_eq_true_eq] at h'
      have hij : i = j := by
        rcases Nat.lt_trichotomy i j with hlt | heq | hgt
        · have := hr i
          rw [Memory.read_cons, if_pos rfl, Memory.read_cons, if_neg (by omega),
            Memory.read_below h'.2 (by omega)] at this
          exact absurd this h.1.2
        · exact heq
        · have := hr j
          rw [Memory.read_cons, if_neg (by omega), Memory.read_below h.2 (by omega), Memory.read_cons,
            if_pos rfl] at this
          exact absurd this.symm h'.1.2
      subst hij
      have hxy : x = y := by simpa [Memory.read_cons] using hr i
      subst hxy
      have : m = m' := ih h.2 h'.2 (fun k => by
        by_cases hk : i = k
        · subst hk; rw [Memory.read_below h.2 (Nat.lt_succ_self _), Memory.read_below h'.2 (Nat.lt_succ_self _)]
        · have := hr k
          rwa [Memory.read_cons, if_neg hk, Memory.read_cons, if_neg hk] at this)
      rw [this]

theorem Memory.ext {m m' : Memory} (h : Memory.wf m = true) (h' : Memory.wf m' = true)
    (hr : ∀ k, Memory.read m k = Memory.read m' k) : m = m' :=
  Memory.ext_from h h' hr

end Sys2Proof.Machine
end

