-- ==== Sys2Proof/Laws/Vector.lean ====
section
/-! SUPPORT. Vectors: what each operation leaves in each word and in each bit, and that each keeps a vector well formed. -/

namespace Sys2Proof.Machine

/-! ### Well-formed vectors -/

/-- The tail-masking invariant, bit by bit: no bit of the last word is 1 at or above the size. -/
theorem tail_clear_iff {n : Nat} (hn : 1 ≤ n) (w : Word) :
    w &&& ~~~(tailMask n) = 0 ↔
      ∀ b, b < 32 → n ≤ 32 * (Machine.wordCount n - 1) + b → w.getLsbD b = false := by
  constructor
  · intro h b hb hge
    have hbit : (w &&& ~~~(tailMask n)).getLsbD b = false := by rw [h]; simp
    rw [BitVec.getLsbD_and, BitVec.getLsbD_not, tailMask_getLsbD hn b hb] at hbit
    simpa [hb, Nat.not_lt.2 hge] using hbit
  · intro h
    apply BitVec.eq_of_getLsbD_eq
    intro b hb
    rw [BitVec.getLsbD_and, BitVec.getLsbD_not, tailMask_getLsbD hn b hb]
    by_cases hlt : 32 * (Machine.wordCount n - 1) + b < n
    · simp [hlt]
    · simp [h b hb (by omega)]

theorem PackedVector.wf_iff (v : PackedVector) : v.wf = true ↔
    1 ≤ v.size ∧ v.size ≤ Config.maxSafeSize ∧ Memory.wf v.words = true ∧
      (∀ c ∈ v.words, c.1 < v.wordCount) ∧ v.memRead (v.wordCount - 1) &&& ~~~v.tailMask = 0 := by
  unfold PackedVector.wf
  simp only [Bool.and_eq_true, decide_eq_true_eq, List.all_eq_true]
  tauto

/-- Words at or beyond `WORDCOUNT` are not stored and read 0. -/
theorem PackedVector.memRead_beyond {v : PackedVector} (h : v.wf = true) {k : Nat} (hk : v.wordCount ≤ k) :
    v.memRead k = 0 := by
  obtain ⟨_, _, _, hkeys, _⟩ := (PackedVector.wf_iff v).1 h
  exact Memory.read_of_not_listed (fun c hc => by have := hkeys c hc; omega)

/-- No bit at or above the size is 1 (10_state.md R25). -/
theorem PackedVector.bit_beyond {v : PackedVector} (h : v.wf = true) {i : Nat} (hi : v.size ≤ i) :
    v.bit i = false := by
  obtain ⟨h1, _, _, _, htail⟩ := (PackedVector.wf_iff v).1 h
  unfold PackedVector.bit
  by_cases hk : chunk i < v.wordCount
  · have hlast : chunk i = v.wordCount - 1 := by
      unfold PackedVector.wordCount Machine.wordCount at *
      unfold chunk at *
      omega
    rw [hlast]
    refine (tail_clear_iff h1 _).1 htail (off i) (off_lt i) ?_
    have := chunk_add_off i
    rw [hlast] at this
    unfold PackedVector.wordCount at this
    omega
  · rw [PackedVector.memRead_beyond h (by omega)]
    simp

/-- The bit of word `k` at offset `b` is the logical bit `32 k + b` (20_memory.md R51). -/
theorem PackedVector.bit_index (v : PackedVector) (k b : Nat) (hb : b < 32) :
    v.bit (32 * k + b) = (v.memRead k).getLsbD b := by
  unfold PackedVector.bit
  rw [chunk_of_index hb, off_of_index hb]

/-- Equal bits are equal words. -/
theorem PackedVector.memRead_eq_of_bits {v w : PackedVector} (k : Nat)
    (h : ∀ b, b < 32 → v.bit (32 * k + b) = w.bit (32 * k + b)) : v.memRead k = w.memRead k := by
  apply BitVec.eq_of_getLsbD_eq
  intro b hb
  rw [← PackedVector.bit_index v k b hb, ← PackedVector.bit_index w k b hb]
  exact h b hb

/-- Well-formed vectors of one size with equal logical bits are equal data. -/
theorem PackedVector.ext_bits {v w : PackedVector} (hv : v.wf = true) (hw : w.wf = true) (hs : v.size = w.size)
    (h : ∀ i, i < v.size → v.bit i = w.bit i) : v = w := by
  have hbits : ∀ i, v.bit i = w.bit i := by
    intro i
    by_cases hi : i < v.size
    · exact h i hi
    · rw [PackedVector.bit_beyond hv (by omega), PackedVector.bit_beyond hw (by omega)]
  have hm : v.words = w.words :=
    Memory.ext ((PackedVector.wf_iff v).1 hv).2.2.1 ((PackedVector.wf_iff w).1 hw).2.2.1
      (fun k => PackedVector.memRead_eq_of_bits k (fun b _ => hbits _))
  cases v; cases w; simp_all

/-! ### Sizes -/

@[simp] theorem PackedVector.memWrite_size (v : PackedVector) (k : Nat) (w : Word) : (v.memWrite k w).size = v.size := rfl
@[simp] theorem PackedVector.memWrite_wordCount (v : PackedVector) (k : Nat) (w : Word) :
    (v.memWrite k w).wordCount = v.wordCount := rfl
@[simp] theorem PackedVector.memWrite_tailMask (v : PackedVector) (k : Nat) (w : Word) :
    (v.memWrite k w).tailMask = v.tailMask := rfl
@[simp] theorem PackedVector.maskedWrite_size (v : PackedVector) (k : Nat) (m : Word) (val : Bool) :
    (v.maskedWrite k m val).size = v.size := by unfold PackedVector.maskedWrite; split <;> rfl
@[simp] theorem PackedVector.maskTail_size (v : PackedVector) : v.maskTail.size = v.size := rfl
@[simp] theorem PackedVector.assignWords_size (v : PackedVector) (val : Bool) (k n : Nat) :
    (v.assignWords val k n).size = v.size := by
  induction n generalizing v k with
  | zero => rfl
  | succ n ih => rw [PackedVector.assignWords, ih]; rfl
@[simp] theorem zeroVector_size (n : Nat) : (zeroVector n).size = n := rfl
@[simp] theorem vectorOfWords_size (n : Nat) (ws : List Word) : (vectorOfWords n ws).size = n := rfl
@[simp] theorem PackedVector.writeRange_size (v : PackedVector) (start count : Nat) (val : Bool) :
    (v.writeRange start count val).size = v.size := by
  unfold PackedVector.writeRange; dsimp only; split <;> simp
@[simp] theorem PackedVector.setRange_size (v : PackedVector) (start count : Nat) (val : Bool) :
    (v.setRange start count val).size = v.size := by
  unfold PackedVector.setRange; split <;> simp
@[simp] theorem combine_size (f : Word → Word → Word) (a b : PackedVector) : (combine f a b).size = a.size := rfl
@[simp] theorem complement_size (a : PackedVector) : (complement a).size = a.size := rfl

/-! ### Canonical words: the half of well-formedness that no operation can break on the way -/

/-- The words are in canonical form and below `WORDCOUNT`; the tail may be dirty. -/
def PackedVector.Stored (v : PackedVector) : Prop :=
  Memory.wf v.words = true ∧ ∀ c ∈ v.words, c.1 < v.wordCount

theorem PackedVector.wf_stored {v : PackedVector} (h : v.wf = true) : v.Stored := by
  obtain ⟨_, _, h1, h2, _⟩ := (PackedVector.wf_iff v).1 h
  exact ⟨h1, h2⟩

theorem PackedVector.memWrite_stored {v : PackedVector} (h : v.Stored) {k : Nat} (hk : k < v.wordCount) (w : Word) :
    (v.memWrite k w).Stored := by
  refine ⟨Memory.write_wf h.1 k w, fun c hc => ?_⟩
  rcases Memory.write_keys hc with hc | hc
  · rw [hc]; exact hk
  · exact h.2 c hc

/-- Read after write (20_memory.md R66). -/
theorem PackedVector.memRead_memWrite {v : PackedVector} (h : Memory.wf v.words = true) (k j : Nat) (w : Word) :
    (v.memWrite k w).memRead j = if j = k then w else v.memRead j :=
  Memory.read_write h k j w

theorem PackedVector.maskedWrite_stored {v : PackedVector} (h : v.Stored) {k : Nat} (hk : k < v.wordCount) (m : Word)
    (val : Bool) : (v.maskedWrite k m val).Stored := by
  unfold PackedVector.maskedWrite
  split <;> exact PackedVector.memWrite_stored h hk _

/-- `MaskedWrite` bit by bit: the bits of word `k` that `m` selects take the value, every other bit stays. -/
theorem PackedVector.bit_maskedWrite {v : PackedVector} (h : Memory.wf v.words = true) (k : Nat) (m : Word) (val : Bool)
    (i : Nat) :
    (v.maskedWrite k m val).bit i = if chunk i = k ∧ m.getLsbD (off i) = true then val else v.bit i := by
  have hoff := off_lt i
  unfold PackedVector.bit PackedVector.maskedWrite
  by_cases hk : chunk i = k
  · subst hk
    cases val
    · rw [if_neg (by simp), PackedVector.memRead_memWrite h, if_pos rfl, BitVec.getLsbD_and, BitVec.getLsbD_not]
      cases hm : m.getLsbD (off i) <;> simp [hoff]
    · rw [if_pos rfl, PackedVector.memRead_memWrite h, if_pos rfl, BitVec.getLsbD_or]
      cases hm : m.getLsbD (off i) <;> simp
  · have hno : ¬(chunk i = k ∧ m.getLsbD (off i) = true) := fun hc => hk hc.1
    cases val
    · rw [if_neg hno, if_neg (by simp), PackedVector.memRead_memWrite h, if_neg hk]
    · rw [if_neg hno, if_pos rfl, PackedVector.memRead_memWrite h, if_neg hk]

theorem PackedVector.assignWords_stored {v : PackedVector} (h : v.Stored) (val : Bool) (k n : Nat)
    (hk : k + n ≤ v.wordCount) : (v.assignWords val k n).Stored := by
  induction n generalizing v k with
  | zero => exact h
  | succ n ih =>
    rw [PackedVector.assignWords]
    exact ih (PackedVector.memWrite_stored h (by omega) _) (k + 1) (by rw [PackedVector.memWrite_wordCount]; omega)

theorem PackedVector.memRead_assignWords {v : PackedVector} (h : Memory.wf v.words = true) (val : Bool) (k n j : Nat) :
    (v.assignWords val k n).memRead j = if k ≤ j ∧ j < k + n then fillWord val else v.memRead j := by
  induction n generalizing v k with
  | zero => rw [if_neg (by omega)]; rfl
  | succ n ih =>
    rw [PackedVector.assignWords, ih (v := v.memWrite k (fillWord val)) (Memory.write_wf h k _),
      PackedVector.memRead_memWrite h]
    by_cases h1 : k + 1 ≤ j ∧ j < k + 1 + n
    · rw [if_pos h1, if_pos (by omega)]
    · rw [if_neg h1]
      by_cases h2 : j = k
      · rw [if_pos h2, if_pos (by omega)]
      · rw [if_neg h2, if_neg (by omega)]

theorem PackedVector.bit_assignWords {v : PackedVector} (h : Memory.wf v.words = true) (val : Bool) (k n i : Nat) :
    (v.assignWords val k n).bit i = if k ≤ chunk i ∧ chunk i < k + n then val else v.bit i := by
  unfold PackedVector.bit
  rw [PackedVector.memRead_assignWords h]
  split
  · exact fillWord_getLsbD val _ (off_lt i)
  · rfl

theorem PackedVector.memRead_maskTail {v : PackedVector} (h : Memory.wf v.words = true) (k : Nat) :
    v.maskTail.memRead k = if k = v.wordCount - 1 then v.memRead k &&& v.tailMask else v.memRead k := by
  unfold PackedVector.maskTail
  rw [PackedVector.memRead_memWrite h]
  split
  · rename_i hk; rw [hk]
  · rfl

/-- Tail masking leaves every logical bit as it was. -/
theorem PackedVector.bit_maskTail {v : PackedVector} (h : Memory.wf v.words = true) {i : Nat} (hi : i < v.size) :
    v.maskTail.bit i = v.bit i := by
  unfold PackedVector.bit
  rw [PackedVector.memRead_maskTail h]
  split
  · rename_i hk
    have h1 : 1 ≤ v.size := by omega
    have := chunk_add_off i
    rw [hk] at this
    rw [BitVec.getLsbD_and]
    unfold PackedVector.tailMask
    rw [tailMask_getLsbD h1 _ (off_lt i)]
    unfold PackedVector.wordCount at this
    simp [this, hi]
  · rfl

/-- Tail masking makes stored words a well-formed vector. -/
theorem PackedVector.maskTail_wf {v : PackedVector} (h : v.Stored) (h1 : 1 ≤ v.size) (h2 : v.size ≤ Config.maxSafeSize) :
    v.maskTail.wf = true := by
  have hpos : 1 ≤ v.wordCount := wordCount_pos h1
  have hs : v.maskTail.Stored := PackedVector.memWrite_stored h (by omega) _
  rw [PackedVector.wf_iff]
  refine ⟨h1, h2, hs.1, hs.2, ?_⟩
  rw [show v.maskTail.wordCount = v.wordCount from rfl, show v.maskTail.tailMask = v.tailMask from rfl,
    PackedVector.memRead_maskTail h.1, if_pos rfl]
  apply BitVec.eq_of_getLsbD_eq
  intro b hb
  simp only [BitVec.getLsbD_and, BitVec.getLsbD_not]
  cases v.tailMask.getLsbD b <;> simp

/-- A write below the size's last word, or one that keeps the tail clear, keeps a vector well formed. -/
theorem PackedVector.memWrite_wf {v : PackedVector} (h : v.wf = true) {k : Nat} (hk : k < v.wordCount) {w : Word}
    (hw : k = v.wordCount - 1 → w &&& ~~~v.tailMask = 0) : (v.memWrite k w).wf = true := by
  obtain ⟨h1, h2, h3, _, h5⟩ := (PackedVector.wf_iff v).1 h
  have hs := PackedVector.memWrite_stored (PackedVector.wf_stored h) hk w
  rw [PackedVector.wf_iff]
  refine ⟨h1, h2, hs.1, hs.2, ?_⟩
  rw [PackedVector.memWrite_wordCount, PackedVector.memWrite_tailMask, PackedVector.memRead_memWrite h3]
  split
  · rename_i hlast; exact hw hlast.symm
  · exact h5

/-- Well-formedness from the bits: stored words whose bits at and above the size are all 0. -/
theorem PackedVector.wf_of_bits {v : PackedVector} (h : v.Stored) (h1 : 1 ≤ v.size) (h2 : v.size ≤ Config.maxSafeSize)
    (hb : ∀ i, v.size ≤ i → v.bit i = false) : v.wf = true := by
  rw [PackedVector.wf_iff]
  refine ⟨h1, h2, h.1, h.2, (tail_clear_iff h1 _).2 (fun b hlt hge => ?_)⟩
  rw [← PackedVector.bit_index v _ b hlt]
  exact hb _ hge

/-! ### The operations of the commands -/

/-- A fresh vector is well formed. -/
theorem zeroVector_wf {n : Nat} (h1 : 1 ≤ n) (h2 : n ≤ Config.maxSafeSize) : (zeroVector n).wf = true := by
  rw [PackedVector.wf_iff]
  refine ⟨h1, h2, rfl, ?_, ?_⟩
  · intro c hc; simp [zeroVector] at hc
  · simp [PackedVector.memRead, zeroVector]

@[simp] theorem zeroVector_memRead (n k : Nat) : (zeroVector n).memRead k = 0 := rfl
@[simp] theorem zeroVector_bit (n i : Nat) : (zeroVector n).bit i = false := by simp [PackedVector.bit]

theorem ofWords_stored {n : Nat} {ws : List Word} (h : ws.length ≤ Machine.wordCount n) :
    PackedVector.Stored { size := n, words := Memory.ofWords 0 ws } := by
  refine ⟨Memory.ofWords_wf ws, fun c hc => ?_⟩
  have := (Memory.ofWords_keys hc).2
  show c.1 < Machine.wordCount n
  omega

/-- Making a vector from at most `WORDCOUNT` words gives a well-formed vector. -/
theorem vectorOfWords_wf {n : Nat} {ws : List Word} (h1 : 1 ≤ n) (h2 : n ≤ Config.maxSafeSize)
    (h : ws.length ≤ Machine.wordCount n) : (vectorOfWords n ws).wf = true :=
  PackedVector.maskTail_wf (ofWords_stored h) h1 h2

/-- Word `k` of a vector made from words: the `k`-th word, 0 beyond them, the last word tail-masked. -/
theorem vectorOfWords_memRead (n : Nat) (ws : List Word) (k : Nat) :
    (vectorOfWords n ws).memRead k =
      if k = Machine.wordCount n - 1 then ws.getD k 0 &&& Machine.tailMask n else ws.getD k 0 := by
  unfold vectorOfWords
  rw [PackedVector.memRead_maskTail (Memory.ofWords_wf ws)]
  unfold PackedVector.memRead
  simp only [Memory.read_ofWords]
  rfl

theorem vectorOfWords_bit {n : Nat} {ws : List Word} {i : Nat} (hi : i < n) :
    (vectorOfWords n ws).bit i = (ws.getD (chunk i) 0).getLsbD (off i) := by
  unfold vectorOfWords
  rw [PackedVector.bit_maskTail (v := { size := n, words := Memory.ofWords 0 ws }) (Memory.ofWords_wf ws) hi]
  unfold PackedVector.bit PackedVector.memRead
  simp only [Memory.read_ofWords]

theorem getD_map_range (f : Nat → Word) {n k : Nat} (h : k < n) : ((List.range n).map f).getD k 0 = f k := by
  rw [List.getD_eq_getElem?_getD, List.getElem?_map, List.getElem?_range h]; rfl

/-- A binary command's result is well formed (42_bitwise.md R141). -/
theorem combine_wf {a b : PackedVector} (h : a.wf = true) (f : Word → Word → Word) : (combine f a b).wf = true := by
  obtain ⟨h1, h2, _⟩ := (PackedVector.wf_iff a).1 h
  exact vectorOfWords_wf h1 h2 (by simp [PackedVector.wordCount])

theorem combine_bit {f : Word → Word → Word} {a b : PackedVector} {i : Nat} (hi : i < a.size) :
    (combine f a b).bit i = (f (a.memRead (chunk i)) (b.memRead (chunk i))).getLsbD (off i) := by
  have : chunk i < a.wordCount := chunk_lt_wordCount hi
  unfold combine
  rw [vectorOfWords_bit hi, getD_map_range (fun k => f (a.memRead k) (b.memRead k)) this]

theorem complement_wf {a : PackedVector} (h : a.wf = true) : (complement a).wf = true := by
  obtain ⟨h1, h2, _⟩ := (PackedVector.wf_iff a).1 h
  exact vectorOfWords_wf h1 h2 (by simp [PackedVector.wordCount])

/-- The complement inverts every logical bit (42_bitwise.md R150). -/
theorem complement_bit {a : PackedVector} {i : Nat} (hi : i < a.size) : (complement a).bit i = !a.bit i := by
  have : chunk i < a.wordCount := chunk_lt_wordCount hi
  unfold complement
  rw [vectorOfWords_bit hi, getD_map_range (fun k => ~~~(a.memRead k)) this, BitVec.getLsbD_not]
  simp [off_lt, PackedVector.bit]

/-- A masked write of one logical bit changes that bit alone (41_bit_range.md R122). -/
theorem bit_maskedWrite_bitmask {v : PackedVector} (h : v.wf = true) (n : Nat) (val : Bool) (i : Nat) :
    (v.maskedWrite (chunk n) (bitmask n) val).bit i = if i = n then val else v.bit i := by
  rw [PackedVector.bit_maskedWrite (PackedVector.wf_stored h).1, bitmask_getLsbD]
  have e : (chunk i = chunk n ∧ decide (off i = off n) = true) ↔ i = n := by
    simp only [decide_eq_true_eq]
    constructor
    · rintro ⟨h1, h2⟩
      rw [← chunk_add_off i, ← chunk_add_off n, h1, h2]
    · rintro rfl; exact ⟨rfl, rfl⟩
  simp only [e]

theorem maskedWrite_bitmask_wf {v : PackedVector} (h : v.wf = true) {n : Nat} (hn : n < v.size) (val : Bool) :
    (v.maskedWrite (chunk n) (bitmask n) val).wf = true := by
  obtain ⟨h1, h2, _⟩ := (PackedVector.wf_iff v).1 h
  refine PackedVector.wf_of_bits
    (PackedVector.maskedWrite_stored (PackedVector.wf_stored h) (chunk_lt_wordCount hn) _ _) (by simpa using h1)
    (by simpa using h2) (fun i hi => ?_)
  rw [PackedVector.maskedWrite_size] at hi
  rw [bit_maskedWrite_bitmask h, if_neg (by omega)]
  exact PackedVector.bit_beyond h hi

/-- Toggling one logical bit inverts that bit alone (41_bit_range.md R123). -/
theorem bit_toggle {v : PackedVector} (h : v.wf = true) (n i : Nat) :
    (v.memWrite (chunk n) (v.memRead (chunk n) ^^^ bitmask n)).bit i = if i = n then !v.bit i else v.bit i := by
  unfold PackedVector.bit
  rw [PackedVector.memRead_memWrite (PackedVector.wf_stored h).1]
  by_cases hc : chunk i = chunk n
  · rw [if_pos hc, BitVec.getLsbD_xor, bitmask_getLsbD, ← hc]
    by_cases ho : off i = off n
    · have : i = n := by rw [← chunk_add_off i, ← chunk_add_off n, hc, ho]
      rw [if_pos this]; simp [ho]
    · have : i ≠ n := fun he => ho (by rw [he])
      rw [if_neg this]; simp [ho]
  · have : i ≠ n := fun he => hc (by rw [he])
    rw [if_neg hc, if_neg this]

theorem toggle_wf {v : PackedVector} (h : v.wf = true) {n : Nat} (hn : n < v.size) :
    (v.memWrite (chunk n) (v.memRead (chunk n) ^^^ bitmask n)).wf = true := by
  obtain ⟨h1, h2, _⟩ := (PackedVector.wf_iff v).1 h
  refine PackedVector.wf_of_bits
    (PackedVector.memWrite_stored (PackedVector.wf_stored h) (chunk_lt_wordCount hn) _) h1 h2 (fun i hi => ?_)
  rw [PackedVector.memWrite_size] at hi
  rw [bit_toggle h, if_neg (by omega)]
  exact PackedVector.bit_beyond h hi

/-- The words of a fill before its tail mask (41_bit_range.md R127). -/
theorem fill_wf {v : PackedVector} (h : v.wf = true) (val : Bool) :
    (v.assignWords val 0 v.wordCount).maskTail.wf = true := by
  obtain ⟨h1, h2, _⟩ := (PackedVector.wf_iff v).1 h
  exact PackedVector.maskTail_wf (PackedVector.assignWords_stored (PackedVector.wf_stored h) val 0 _ (by omega))
    (by simpa using h1) (by simpa using h2)

theorem fill_bit {v : PackedVector} (h : v.wf = true) (val : Bool) {i : Nat} (hi : i < v.size) :
    (v.assignWords val 0 v.wordCount).maskTail.bit i = val := by
  have hst := PackedVector.assignWords_stored (PackedVector.wf_stored h) val 0 v.wordCount (by omega)
  rw [PackedVector.bit_maskTail hst.1 (by simpa using hi), PackedVector.bit_assignWords (PackedVector.wf_stored h).1]
  have : chunk i < v.wordCount := chunk_lt_wordCount hi
  rw [if_pos ⟨Nat.zero_le _, by omega⟩]

/-- The range walk keeps the words stored. -/
theorem PackedVector.writeRange_stored {v : PackedVector} (h : v.Stored) {start count : Nat} (hc : 1 ≤ count)
    (hs : start + count ≤ v.size) (val : Bool) : (v.writeRange start count val).Stored := by
  have hlast : chunk (start + count - 1) < v.wordCount := chunk_lt_wordCount (by omega)
  have hle : chunk start ≤ chunk (start + count - 1) := by unfold chunk; omega
  have hwc : ∀ (u : PackedVector), u.size = v.size → u.wordCount = v.wordCount := fun u hu => by
    unfold PackedVector.wordCount; rw [hu]
  unfold PackedVector.writeRange
  dsimp only
  split
  · exact PackedVector.maskedWrite_stored h (by omega) _ _
  · rename_i hne
    refine PackedVector.maskedWrite_stored (PackedVector.assignWords_stored
      (PackedVector.maskedWrite_stored h (by omega) _ _) _ _ _ ?_) ?_ _ _
    · rw [hwc _ (by simp)]; omega
    · rw [hwc _ (by simp)]; exact hlast

/-- The range walk sets exactly the logical bits of the range (41_bit_range.md R125). -/
theorem PackedVector.bit_writeRange {v : PackedVector} (h : v.Stored) {start count : Nat} (hc : 1 ≤ count)
    (hs : start + count ≤ v.size) (val : Bool) (i : Nat) :
    (v.writeRange start count val).bit i = if start ≤ i ∧ i < start + count then val else v.bit i := by
  have hlast : chunk (start + count - 1) < v.wordCount := chunk_lt_wordCount (by omega)
  have hle : chunk start ≤ chunk (start + count - 1) := by unfold chunk; omega
  have e1 := chunk_add_off i
  have e2 := chunk_add_off start
  have e3 := chunk_add_off (start + count - 1)
  have o1 := off_lt i
  have o2 := off_lt start
  have o3 := off_lt (start + count - 1)
  have hwc : ∀ (u : PackedVector), u.size = v.size → u.wordCount = v.wordCount := fun u hu => by
    unfold PackedVector.wordCount; rw [hu]
  unfold PackedVector.writeRange
  dsimp only
  by_cases hfl : chunk start = chunk (start + count - 1)
  · rw [if_pos hfl]
    rw [PackedVector.bit_maskedWrite h.1, span_getLsbD (by omega) (by omega) _ o1]
    have : (chunk i = chunk start ∧
        (decide (off start ≤ off i) && decide (off i < off (start + count - 1) + 1)) = true) ↔
          (start ≤ i ∧ i < start + count) := by
      simp only [Bool.and_eq_true, decide_eq_true_eq]
      constructor
      · rintro ⟨h1, h2, h3⟩; omega
      · rintro ⟨h1, h2⟩
        have : chunk i = chunk start := by unfold chunk at *; omega
        omega
    simp only [this]
  · rw [if_neg hfl]
    have hs1 := PackedVector.maskedWrite_stored h (k := chunk start) (by omega) (span (off start) 32) val
    have hs2 := PackedVector.assignWords_stored hs1 val (chunk start + 1)
      (chunk (start + count - 1) - (chunk start + 1)) (by rw [hwc _ (by simp)]; omega)
    rw [PackedVector.bit_maskedWrite hs2.1, PackedVector.bit_assignWords hs1.1, PackedVector.bit_maskedWrite h.1,
      span_getLsbD (by omega) (by omega) _ o1, span_getLsbD (by omega) (by omega) _ o1]
    simp only [Bool.and_eq_true, decide_eq_true_eq]
    by_cases ha : chunk i = chunk (start + count - 1) ∧ 0 ≤ off i ∧ off i < off (start + count - 1) + 1
    · rw [if_pos ha, if_pos (by omega)]
    · rw [if_neg ha]
      by_cases hb : chunk start + 1 ≤ chunk i ∧
          chunk i < chunk start + 1 + (chunk (start + count - 1) - (chunk start + 1))
      · rw [if_pos hb, if_pos (by omega)]
      · rw [if_neg hb]
        by_cases hd : chunk i = chunk start ∧ off start ≤ off i ∧ off i < 32
        · rw [if_pos hd, if_pos (by omega)]
        · rw [if_neg hd, if_neg (by omega)]

/-- A range set keeps a vector well formed (41_bit_range.md R126). -/
theorem PackedVector.setRange_wf {v : PackedVector} (h : v.wf = true) {start count : Nat} (hs : start + count ≤ v.size)
    (val : Bool) : (v.setRange start count val).wf = true := by
  obtain ⟨h1, h2, _⟩ := (PackedVector.wf_iff v).1 h
  unfold PackedVector.setRange
  split
  · exact h
  · exact PackedVector.maskTail_wf (PackedVector.writeRange_stored (PackedVector.wf_stored h) (by omega) hs val)
      (by simpa using h1) (by simpa using h2)

/-- A range set gives every logical bit of the range the value and leaves every other bit (41_bit_range.md R126). -/
theorem PackedVector.bit_setRange {v : PackedVector} (h : v.wf = true) {start count : Nat} (hs : start + count ≤ v.size)
    (val : Bool) {i : Nat} (hi : i < v.size) :
    (v.setRange start count val).bit i = if start ≤ i ∧ i < start + count then val else v.bit i := by
  unfold PackedVector.setRange
  split
  · rename_i h0
    rw [if_neg (by omega)]
  · have hst := PackedVector.writeRange_stored (PackedVector.wf_stored h) (start := start) (count := count) (by omega) hs val
    rw [PackedVector.bit_maskTail hst.1 (by simpa using hi),
      PackedVector.bit_writeRange (PackedVector.wf_stored h) (by omega) hs]

end Sys2Proof.Machine
end

