-- ==== Sys2Proof/Laws/Meanings.lean ====
section
/-! SUPPORT. One inversion of all meanings: every command is the end of one sequence of checks, whose error and whose effect are
described once. The claims about all commands cite this and unfold no meaning. -/

namespace Sys2Proof.Machine

/-- A sequence of checks fails at its first check or in the rest. -/
theorem check_bind_eq_error {α β : Type} {c : Except Failure α} {g : α → Except Failure β} {f : Failure}
    (h : (c >>= g) = .error f) : c = .error f ∨ ∃ a, c = .ok a ∧ g a = .error f := by
  cases c with
  | error e => left; simpa using h
  | ok a => right; exact ⟨a, rfl, by simpa using h⟩

/-- The causes a legal command can end with (60_exceptions.md R204): all but the decode error and the reserved codes. -/
def Cause.ofCommand (c : Cause) : Prop :=
  c = .outOfRange ∨ c = .indexBounds ∨ c = .rangeExceeded ∨ c = .sizeMismatch ∨ c = .rawTooLong ∨ c = .slotInvalid

theorem validate_cause {a : Int} {b : Nat} {f : Failure} (h : validate a b = .error f) : f.cause.ofCommand := by
  unfold validate at h
  split at h <;> simp only [Except.error.injEq, reduceCtorEq] at h
  rw [← h]; simp [Cause.ofCommand]

theorem requireSlot_cause {s : State} {a : Slot} {f : Failure} (h : requireSlot s a = .error f) : f.cause.ofCommand := by
  unfold requireSlot at h
  split at h <;> simp only [Except.error.injEq, reduceCtorEq] at h
  rw [← h]; simp [Cause.ofCommand]

theorem checkSize_cause {a : Int} {f : Failure} (h : checkSize a = .error f) : f.cause.ofCommand := by
  unfold checkSize at h
  split at h <;> simp only [Except.error.injEq, reduceCtorEq] at h
  rw [← h]; simp [Cause.ofCommand]

theorem checkPayload_cause {n : Nat} {ws : List Word} {f : Failure} (h : checkPayload n ws = .error f) :
    f.cause.ofCommand := by
  unfold checkPayload at h
  split at h <;> simp only [Except.error.injEq, reduceCtorEq] at h
  rw [← h]; simp [Cause.ofCommand]

theorem checkSameSize_cause {a b : PackedVector} {f : Failure} (h : checkSameSize a b = .error f) :
    f.cause.ofCommand := by
  unfold checkSameSize at h
  split at h <;> simp only [Except.error.injEq, reduceCtorEq] at h
  rw [← h]; simp [Cause.ofCommand]

theorem rangeCheck_cause {n : Nat} {a b : Int} {f : Failure} (h : rangeCheck n a b = .error f) : f.cause.ofCommand := by
  unfold rangeCheck at h
  rcases check_bind_eq_error h with h | ⟨x, _, h⟩
  · exact validate_cause h
  rcases check_bind_eq_error h with h | ⟨y, _, h⟩
  · exact validate_cause h
  split at h <;> simp only [Except.error.injEq, reduceCtorEq] at h
  rw [← h]; simp [Cause.ofCommand]

/-- What the checks and the effect of a command can be: an error of a legal command, or an effect that changes at most the
command's destination, and that puts a well-formed vector there when the slots hold well-formed vectors. -/
def CommandResult (i : Instr) (s : State) (r : Except Failure Effect) : Prop :=
  (∀ f, r = .error f → f.cause.ofCommand) ∧
    ∀ e, r = .ok e → e.update = none ∨ ∃ d v, destination i = some d ∧ e.update = some (d, v) ∧
      ((∀ a u, s.slot a = some u → u.wf = true) → ∀ u, v = some u → u.wf = true)

/-- A command without checks. -/
theorem CommandResult.ok_store {i : Instr} {s : State} {d : Slot} {v : Option PackedVector} {res : Word}
    (hd : destination i = some d) (hv : (∀ a u, s.slot a = some u → u.wf = true) → ∀ u, v = some u → u.wf = true) :
    CommandResult i s (.ok { res := res, update := some (d, v) }) :=
  ⟨fun f h => by simp at h, fun e h => .inr ⟨d, v, hd, by simp only [Except.ok.injEq] at h; rw [← h], hv⟩⟩

theorem CommandResult.ok_answer {i : Instr} {s : State} {res : Word} {beats : List Word} :
    CommandResult i s (.ok { res := res, beats := beats }) :=
  ⟨fun f h => by simp at h, fun e h => .inl (by simp only [Except.ok.injEq] at h; rw [← h])⟩

/-- A check before the rest of a command. -/
theorem CommandResult.check {α : Type} {i : Instr} {s : State} {c : Except Failure α} {g : α → Except Failure Effect}
    (hc : ∀ f, c = .error f → f.cause.ofCommand) (hg : ∀ a, c = .ok a → CommandResult i s (g a)) :
    CommandResult i s (c >>= g) := by
  cases c with
  | error e => exact ⟨fun f h => hc f (by simpa using h), fun e h => by simp at h⟩
  | ok a => exact hg a rfl

/-- The slot check before the rest of a command. -/
theorem CommandResult.slot {i : Instr} {s : State} {a : Slot} {g : PackedVector → Except Failure Effect}
    (hg : ∀ v, s.slot a = some v → CommandResult i s (g v)) : CommandResult i s (requireSlot s a >>= g) :=
  .check (fun _ h => requireSlot_cause h) (fun v h => hg v (requireSlot_eq_ok.1 h))

theorem binaryCommand_result (f : Word → Word → Word) {i : Instr} {vd : Slot} (va vb : Slot)
    (hd : destination i = some vd) (s : State) :
    ∃ r, binaryCommand f vd va vb s = s.finish r ∧ CommandResult i s r :=
  ⟨_, rfl, .slot fun a ha => .slot fun _ _ => .check (fun _ h => checkSameSize_cause h) fun _ _ =>
    .ok_store hd fun hw u hu => by cases hu; exact combine_wf (hw _ _ ha) f⟩

/-- Every command is the end of one sequence of checks. -/
theorem exec_result (i : Instr) (s : State) : ∃ r, exec i s = s.finish r ∧ CommandResult i s r := by
  cases i with
  | create vd size =>
    exact ⟨_, rfl, .check (fun _ h => checkSize_cause h) fun n hn => .ok_store rfl fun _ u hu => by
      cases hu; have := checkSize_eq_ok.1 hn; exact zeroVector_wf this.2.1 this.2.2⟩
  | loadw vd size ws =>
    exact ⟨_, rfl, .check (fun _ h => checkSize_cause h) fun n hn => .check (fun _ h => checkPayload_cause h) fun _ hp =>
      .ok_store rfl fun _ u hu => by
        cases hu; have := checkSize_eq_ok.1 hn; exact vectorOfWords_wf this.2.1 this.2.2 (checkPayload_eq_ok.1 hp)⟩
  | copy vd va => exact ⟨_, rfl, .slot fun v hv => .ok_store rfl fun hw u hu => by cases hu; exact hw _ _ hv⟩
  | free vd => exact ⟨.ok { update := some (vd, none) }, rfl, .ok_store rfl fun _ u hu => by cases hu⟩
  | vsize va => exact ⟨_, rfl, .slot fun _ _ => .ok_answer⟩
  | rdw va k => exact ⟨_, rfl, .slot fun _ _ => .check (fun _ h => validate_cause h) fun _ _ => .ok_answer⟩
  | getb va k => exact ⟨_, rfl, .slot fun _ _ => .check (fun _ h => validate_cause h) fun _ _ => .ok_answer⟩
  | setb vd val k =>
    exact ⟨_, rfl, .slot fun v hv => .check (fun _ h => validate_cause h) fun n hn => .ok_store rfl fun hw u hu => by
      cases hu; exact maskedWrite_bitmask_wf (hw _ _ hv) (validate_eq_ok.1 hn).2 val⟩
  | tglb vd k =>
    exact ⟨_, rfl, .slot fun v hv => .check (fun _ h => validate_cause h) fun n hn => .ok_store rfl fun hw u hu => by
      cases hu; exact toggle_wf (hw _ _ hv) (validate_eq_ok.1 hn).2⟩
  | getr va st n => exact ⟨_, rfl, .slot fun _ _ => .check (fun _ h => rangeCheck_cause h) fun _ _ => .ok_answer⟩
  | setr vd val st n =>
    exact ⟨_, rfl, .slot fun v hv => .check (fun _ h => rangeCheck_cause h) fun r hr => .ok_store rfl fun hw u hu => by
      cases hu; exact PackedVector.setRange_wf (hw _ _ hv) (rangeCheck_eq_ok.1 hr).2.2.2 val⟩
  | fill vd val => exact ⟨_, rfl, .slot fun v hv => .ok_store rfl fun hw u hu => by cases hu; exact fill_wf (hw _ _ hv) val⟩
  | and vd va vb => exact binaryCommand_result _ va vb rfl s
  | or vd va vb => exact binaryCommand_result _ va vb rfl s
  | xor vd va vb => exact binaryCommand_result _ va vb rfl s
  | nand vd va vb => exact binaryCommand_result _ va vb rfl s
  | nor vd va vb => exact binaryCommand_result _ va vb rfl s
  | xnor vd va vb => exact binaryCommand_result _ va vb rfl s
  | diff vd va vb => exact binaryCommand_result _ va vb rfl s
  | not vd va => exact ⟨_, rfl, .slot fun v hv => .ok_store rfl fun hw u hu => by cases hu; exact complement_wf (hw _ _ hv)⟩
  | eq va vb => exact ⟨_, rfl, .slot fun _ _ => .slot fun _ _ => .ok_answer⟩
  | popc va => exact ⟨_, rfl, .slot fun _ _ => .ok_answer⟩
  | idxof va _ _ => exact ⟨_, rfl, .slot fun _ _ => .ok_answer⟩
  | lidxof va _ _ => exact ⟨_, rfl, .slot fun _ _ => .ok_answer⟩
  | tidx va _ _ =>
    exact ⟨_, rfl, .slot fun _ _ => .check (fun _ h => validate_cause h) fun _ _ =>
      .check (fun _ h => validate_cause h) fun _ _ => .ok_answer⟩

/-- The invariant's slot half, place by place. -/
theorem State.slotsWf_iff (s : State) :
    s.slotsWf = true ↔ ∀ a v, s.slot a = some v → v.wf = true ∧ a.val < s.nslot := by
  unfold State.slotsWf
  simp only [List.all_eq_true, List.mem_finRange, true_implies]
  constructor
  · intro h a v hv
    have := h a
    rw [hv] at this
    simpa using this
  · intro h a
    split
    · rfl
    · rename_i v hv; simpa using h a v hv

/-- The invariant's response half. -/
theorem State.responseWf_iff (s : State) :
    s.responseWf = true ↔ s.status ∈ statusValues ∧ (s.status = 0 → s.errval = 0 ∧ s.errlim = 0) ∧
      (s.status ≠ 0 → s.res = 0 ∧ s.out = []) := by
  unfold State.responseWf
  by_cases h : s.status = 0
  · simp [h]
  · simp only [Bool.and_eq_true, List.contains_iff_mem, if_neg h, decide_eq_true_eq]; tauto

end Sys2Proof.Machine
end

