-- ==== Sys2Proof/Laws/PerInstr.lean ====
section
/-! SUPPORT. A law per command: its packet selects its own row of opcode_table.json, with every dead field 0. -/

namespace Sys2Proof.Laws

/-- The mnemonic of a command's row in opcode_table.json. -/
def mnemonicOf : Instr → String
  | .create _ _ => "CREATE"
  | .loadw _ _ _ => "LOADW"
  | .copy _ _ => "COPY"
  | .free _ => "FREE"
  | .vsize _ => "VSIZE"
  | .rdw _ _ => "RDW"
  | .getb _ _ => "GETB"
  | .setb _ _ _ => "SETB"
  | .tglb _ _ => "TGLB"
  | .getr _ _ _ => "GETR"
  | .setr _ _ _ _ => "SETR"
  | .fill _ _ => "FILL"
  | .and _ _ _ => "AND"
  | .or _ _ _ => "OR"
  | .xor _ _ _ => "XOR"
  | .nand _ _ _ => "NAND"
  | .nor _ _ _ => "NOR"
  | .xnor _ _ _ => "XNOR"
  | .diff _ _ _ => "DIFF"
  | .not _ _ => "NOT"
  | .eq _ _ => "EQ"
  | .popc _ => "POPC"
  | .idxof _ _ _ => "IDXOF"
  | .lidxof _ _ _ => "LIDXOF"
  | .tidx _ _ _ => "TIDX"

/-- The packet of a command selects the row of its own mnemonic, and the row's dead fields are 0 in it (30_encoding.md R74,
R75). -/
def EncodesOwnRow.Statement (i : Instr) : Prop :=
  ∃ r, rowOf (fieldOP (encode i).cmd) = some r ∧ r.mnemonic = mnemonicOf i ∧
    fieldReserved (encode i).cmd = 0 ∧ deadFieldSet r.format (encode i).cmd = false

theorem EncodesOwnRow.create (vd : Slot) (x : Word) : EncodesOwnRow.Statement (.create vd x) := by
  refine ⟨_, by simp only [encode, fieldOP_cmdWord]; rfl, rfl, by simp [encode], by simp [encode, deadFieldSet, Format.usesVD, Format.usesVA, Format.usesVB, Format.usesVAL]⟩
theorem EncodesOwnRow.loadw (vd : Slot) (x : Word) (ws : List Word) : EncodesOwnRow.Statement (.loadw vd x ws) := by
  refine ⟨_, by simp only [encode, fieldOP_cmdWord]; rfl, rfl, by simp [encode], by simp [encode, deadFieldSet, Format.usesVD, Format.usesVA, Format.usesVB, Format.usesVAL]⟩
theorem EncodesOwnRow.copy (vd : Slot) (va : Slot) : EncodesOwnRow.Statement (.copy vd va) := by
  refine ⟨_, by simp only [encode, fieldOP_cmdWord]; rfl, rfl, by simp [encode], by simp [encode, deadFieldSet, Format.usesVD, Format.usesVA, Format.usesVB, Format.usesVAL]⟩
theorem EncodesOwnRow.free (vd : Slot) : EncodesOwnRow.Statement (.free vd) := by
  refine ⟨_, by simp only [encode, fieldOP_cmdWord]; rfl, rfl, by simp [encode], by simp [encode, deadFieldSet, Format.usesVD, Format.usesVA, Format.usesVB, Format.usesVAL]⟩
theorem EncodesOwnRow.vsize (va : Slot) : EncodesOwnRow.Statement (.vsize va) := by
  refine ⟨_, by simp only [encode, fieldOP_cmdWord]; rfl, rfl, by simp [encode], by simp [encode, deadFieldSet, Format.usesVD, Format.usesVA, Format.usesVB, Format.usesVAL]⟩
theorem EncodesOwnRow.rdw (va : Slot) (x : Word) : EncodesOwnRow.Statement (.rdw va x) := by
  refine ⟨_, by simp only [encode, fieldOP_cmdWord]; rfl, rfl, by simp [encode], by simp [encode, deadFieldSet, Format.usesVD, Format.usesVA, Format.usesVB, Format.usesVAL]⟩
theorem EncodesOwnRow.getb (va : Slot) (x : Word) : EncodesOwnRow.Statement (.getb va x) := by
  refine ⟨_, by simp only [encode, fieldOP_cmdWord]; rfl, rfl, by simp [encode], by simp [encode, deadFieldSet, Format.usesVD, Format.usesVA, Format.usesVB, Format.usesVAL]⟩
theorem EncodesOwnRow.setb (vd : Slot) (b : Bool) (x : Word) : EncodesOwnRow.Statement (.setb vd b x) := by
  refine ⟨_, by simp only [encode, fieldOP_cmdWord]; rfl, rfl, by simp [encode], by simp [encode, deadFieldSet, Format.usesVD, Format.usesVA, Format.usesVB, Format.usesVAL]⟩
theorem EncodesOwnRow.tglb (vd : Slot) (x : Word) : EncodesOwnRow.Statement (.tglb vd x) := by
  refine ⟨_, by simp only [encode, fieldOP_cmdWord]; rfl, rfl, by simp [encode], by simp [encode, deadFieldSet, Format.usesVD, Format.usesVA, Format.usesVB, Format.usesVAL]⟩
theorem EncodesOwnRow.getr (va : Slot) (x : Word) (y : Word) : EncodesOwnRow.Statement (.getr va x y) := by
  refine ⟨_, by simp only [encode, fieldOP_cmdWord]; rfl, rfl, by simp [encode], by simp [encode, deadFieldSet, Format.usesVD, Format.usesVA, Format.usesVB, Format.usesVAL]⟩
theorem EncodesOwnRow.setr (vd : Slot) (b : Bool) (x : Word) (y : Word) : EncodesOwnRow.Statement (.setr vd b x y) := by
  refine ⟨_, by simp only [encode, fieldOP_cmdWord]; rfl, rfl, by simp [encode], by simp [encode, deadFieldSet, Format.usesVD, Format.usesVA, Format.usesVB, Format.usesVAL]⟩
theorem EncodesOwnRow.fill (vd : Slot) (b : Bool) : EncodesOwnRow.Statement (.fill vd b) := by
  refine ⟨_, by simp only [encode, fieldOP_cmdWord]; rfl, rfl, by simp [encode], by simp [encode, deadFieldSet, Format.usesVD, Format.usesVA, Format.usesVB, Format.usesVAL]⟩
theorem EncodesOwnRow.and (vd : Slot) (va : Slot) (vb : Slot) : EncodesOwnRow.Statement (.and vd va vb) := by
  refine ⟨_, by simp only [encode, fieldOP_cmdWord]; rfl, rfl, by simp [encode], by simp [encode, deadFieldSet, Format.usesVD, Format.usesVA, Format.usesVB, Format.usesVAL]⟩
theorem EncodesOwnRow.or (vd : Slot) (va : Slot) (vb : Slot) : EncodesOwnRow.Statement (.or vd va vb) := by
  refine ⟨_, by simp only [encode, fieldOP_cmdWord]; rfl, rfl, by simp [encode], by simp [encode, deadFieldSet, Format.usesVD, Format.usesVA, Format.usesVB, Format.usesVAL]⟩
theorem EncodesOwnRow.xor (vd : Slot) (va : Slot) (vb : Slot) : EncodesOwnRow.Statement (.xor vd va vb) := by
  refine ⟨_, by simp only [encode, fieldOP_cmdWord]; rfl, rfl, by simp [encode], by simp [encode, deadFieldSet, Format.usesVD, Format.usesVA, Format.usesVB, Format.usesVAL]⟩
theorem EncodesOwnRow.nand (vd : Slot) (va : Slot) (vb : Slot) : EncodesOwnRow.Statement (.nand vd va vb) := by
  refine ⟨_, by simp only [encode, fieldOP_cmdWord]; rfl, rfl, by simp [encode], by simp [encode, deadFieldSet, Format.usesVD, Format.usesVA, Format.usesVB, Format.usesVAL]⟩
theorem EncodesOwnRow.nor (vd : Slot) (va : Slot) (vb : Slot) : EncodesOwnRow.Statement (.nor vd va vb) := by
  refine ⟨_, by simp only [encode, fieldOP_cmdWord]; rfl, rfl, by simp [encode], by simp [encode, deadFieldSet, Format.usesVD, Format.usesVA, Format.usesVB, Format.usesVAL]⟩
theorem EncodesOwnRow.xnor (vd : Slot) (va : Slot) (vb : Slot) : EncodesOwnRow.Statement (.xnor vd va vb) := by
  refine ⟨_, by simp only [encode, fieldOP_cmdWord]; rfl, rfl, by simp [encode], by simp [encode, deadFieldSet, Format.usesVD, Format.usesVA, Format.usesVB, Format.usesVAL]⟩
theorem EncodesOwnRow.diff (vd : Slot) (va : Slot) (vb : Slot) : EncodesOwnRow.Statement (.diff vd va vb) := by
  refine ⟨_, by simp only [encode, fieldOP_cmdWord]; rfl, rfl, by simp [encode], by simp [encode, deadFieldSet, Format.usesVD, Format.usesVA, Format.usesVB, Format.usesVAL]⟩
theorem EncodesOwnRow.not (vd : Slot) (va : Slot) : EncodesOwnRow.Statement (.not vd va) := by
  refine ⟨_, by simp only [encode, fieldOP_cmdWord]; rfl, rfl, by simp [encode], by simp [encode, deadFieldSet, Format.usesVD, Format.usesVA, Format.usesVB, Format.usesVAL]⟩
theorem EncodesOwnRow.eq (va : Slot) (vb : Slot) : EncodesOwnRow.Statement (.eq va vb) := by
  refine ⟨_, by simp only [encode, fieldOP_cmdWord]; rfl, rfl, by simp [encode], by simp [encode, deadFieldSet, Format.usesVD, Format.usesVA, Format.usesVB, Format.usesVAL]⟩
theorem EncodesOwnRow.popc (va : Slot) : EncodesOwnRow.Statement (.popc va) := by
  refine ⟨_, by simp only [encode, fieldOP_cmdWord]; rfl, rfl, by simp [encode], by simp [encode, deadFieldSet, Format.usesVD, Format.usesVA, Format.usesVB, Format.usesVAL]⟩
theorem EncodesOwnRow.idxof (va : Slot) (b : Bool) (x : Word) : EncodesOwnRow.Statement (.idxof va b x) := by
  refine ⟨_, by simp only [encode, fieldOP_cmdWord]; rfl, rfl, by simp [encode], by simp [encode, deadFieldSet, Format.usesVD, Format.usesVA, Format.usesVB, Format.usesVAL]⟩
theorem EncodesOwnRow.lidxof (va : Slot) (b : Bool) (x : Word) : EncodesOwnRow.Statement (.lidxof va b x) := by
  refine ⟨_, by simp only [encode, fieldOP_cmdWord]; rfl, rfl, by simp [encode], by simp [encode, deadFieldSet, Format.usesVD, Format.usesVA, Format.usesVB, Format.usesVAL]⟩
theorem EncodesOwnRow.tidx (va : Slot) (x : Word) (y : Word) : EncodesOwnRow.Statement (.tidx va x y) := by
  refine ⟨_, by simp only [encode, fieldOP_cmdWord]; rfl, rfl, by simp [encode], by simp [encode, deadFieldSet, Format.usesVD, Format.usesVA, Format.usesVB, Format.usesVAL]⟩

end Sys2Proof.Laws
end

