-- ==== Sys2Proof/Laws/Search.lean ====
section
/-! SUPPORT. The searches: the word a scan sees, everything each scan can answer, the leading-zero formulas and the set indices. -/

namespace Sys2Proof.Machine

/-- The word a search scans, bit by bit: a 1 exactly at the logical indices that hold the searched value (R163, R165). -/
theorem searchWord_getLsbD {v : PackedVector} (h : v.wf = true) (val : Bool) {k b : Nat} (hk : k < v.wordCount)
    (hb : b < 32) : (searchWord v val k).getLsbD b = (decide (32 * k + b < v.size) && (v.bit (32 * k + b) == val)) := by
  have h1 := ((PackedVector.wf_iff v).1 h).1
  have hx : (if val then v.memRead k else ~~~(v.memRead k)).getLsbD b = (v.bit (32 * k + b) == val) := by
    rw [PackedVector.bit_index v k b hb]
    cases val <;> simp [hb]
  unfold searchWord
  dsimp only
  split
  · rename_i hl
    rw [BitVec.getLsbD_and, hx]
    unfold PackedVector.tailMask
    rw [tailMask_getLsbD h1 b hb, hl, Bool.and_comm]
    rfl
  · rename_i hl
    have : 32 * k + b < v.size := index_lt_of_full (by unfold PackedVector.wordCount at hk hl; omega) hb
    rw [hx]; simp [this]

/-- Everything the ascending scan can answer: the least index with a 1 bit, or none when there is none. -/
theorem scanUp_spec (x : Nat → Word) (n k : Nat) :
    (∀ i, scanUp x n k = some i → 32 * k ≤ i ∧ chunk i < k + n ∧ (x (chunk i)).getLsbD (off i) = true ∧
      ∀ j, 32 * k ≤ j → j < i → (x (chunk j)).getLsbD (off j) = false) ∧
    (scanUp x n k = none → ∀ j, 32 * k ≤ j → chunk j < k + n → (x (chunk j)).getLsbD (off j) = false) := by
  induction n generalizing k with
  | zero =>
    refine ⟨fun i hi => by simp [scanUp] at hi, fun _ j h1 h2 => ?_⟩
    unfold chunk at h2; omega
  | succ n ih =>
    obtain ⟨ih1, ih2⟩ := ih (k + 1)
    simp only [scanUp]
    by_cases hx : x k = 0
    · rw [if_neg (by simpa using hx)]
      have hz : ∀ j, chunk j = k → (x (chunk j)).getLsbD (off j) = false := by
        intro j hj; rw [hj, hx]; simp
      refine ⟨fun i hi => ?_, fun hn j h1 h2 => ?_⟩
      · obtain ⟨a1, a2, a3, a4⟩ := ih1 i hi
        refine ⟨by omega, by omega, a3, fun j h1 h2 => ?_⟩
        by_cases hj : chunk j = k
        · exact hz j hj
        · exact a4 j (by unfold chunk at hj; omega) h2
      · by_cases hj : chunk j = k
        · exact hz j hj
        · exact ih2 hn j (by unfold chunk at hj; omega) (by omega)
    · rw [if_pos (by simpa using hx)]
      obtain ⟨f1, f2, f3⟩ := ffs32_spec hx
      refine ⟨fun i hi => ?_, fun hn => by simp at hn⟩
      simp only [Option.some.injEq] at hi
      subst hi
      rw [chunk_of_index f1, off_of_index f1]
      refine ⟨by omega, by omega, f2, fun j h1 h2 => ?_⟩
      have hj : chunk j = k := by unfold chunk; omega
      rw [hj]
      exact f3 _ (by have := chunk_add_off j; rw [hj] at this; omega)

/-- Everything the descending scan can answer: the greatest index with a 1 bit, or none when there is none. -/
theorem scanDown_spec (x : Nat → Word) (k : Nat) :
    (∀ i, scanDown x k = some i → chunk i ≤ k ∧ (x (chunk i)).getLsbD (off i) = true ∧
      ∀ j, chunk j ≤ k → i < j → (x (chunk j)).getLsbD (off j) = false) ∧
    (scanDown x k = none → ∀ j, chunk j ≤ k → (x (chunk j)).getLsbD (off j) = false) := by
  have hit : ∀ k, x k ≠ 0 → ∀ i, some (32 * k + fls32 (x k)) = some i → chunk i ≤ k ∧ (x (chunk i)).getLsbD (off i) = true ∧
      ∀ j, chunk j ≤ k → i < j → (x (chunk j)).getLsbD (off j) = false := by
    intro k hx i hi
    obtain ⟨f1, f2, f3⟩ := fls32_spec hx
    simp only [Option.some.injEq] at hi
    subst hi
    rw [chunk_of_index f1, off_of_index f1]
    refine ⟨by omega, f2, fun j h1 h2 => ?_⟩
    have hj : chunk j = k := by unfold chunk at *; omega
    rw [hj]
    exact f3 _ (by have := chunk_add_off j; rw [hj] at this; omega)
  have hz : ∀ k, x k = 0 → ∀ j, chunk j = k → (x (chunk j)).getLsbD (off j) = false := by
    intro k hx j hj; rw [hj, hx]; simp
  induction k with
  | zero =>
    simp only [scanDown]
    by_cases hx : x 0 = 0
    · rw [if_neg (by simpa using hx)]
      exact ⟨fun i hi => by simp at hi, fun _ j h => hz 0 hx j (by omega)⟩
    · rw [if_pos (by simpa using hx)]
      refine ⟨fun i hi => hit 0 hx i (by simpa using hi), fun hn => by simp at hn⟩
  | succ k ih =>
    obtain ⟨ih1, ih2⟩ := ih
    simp only [scanDown]
    by_cases hx : x (k + 1) = 0
    · rw [if_neg (by simpa using hx)]
      refine ⟨fun i hi => ?_, fun hn j h1 => ?_⟩
      · obtain ⟨a1, a2, a3⟩ := ih1 i hi
        refine ⟨by omega, a2, fun j h1 h2 => ?_⟩
        by_cases hj : chunk j = k + 1
        · exact hz _ hx j hj
        · exact a3 j (by omega) h2
      · by_cases hj : chunk j = k + 1
        · exact hz _ hx j hj
        · exact ih2 hn j (by omega)
    · rw [if_pos (by simpa using hx)]
      exact ⟨fun i hi => hit _ hx i hi, fun hn => by simp at hn⟩
/-- `x & -x` holds the lowest 1 bit of `x` alone (43_count_search.md R164). -/
theorem isolated_getLsbD {x : Word} (hx : x ≠ 0) : ∀ b, b < 32 → (x &&& -x).getLsbD b = decide (b = ffs32 x) := by
  intro b hb
  obtain ⟨f1, f2, f3⟩ := ffs32_spec hx
  rw [BitVec.getLsbD_and, BitVec.getLsbD_neg]
  rcases Nat.lt_trichotomy b (ffs32 x) with h | h | h
  · rw [f3 b h]; simp; omega
  · subst h
    have : ¬ ∃ j < ffs32 x, x.getLsbD j = true := by rintro ⟨j, hj, h⟩; rw [f3 j hj] at h; simp at h
    simp only [this, f2]; simp [f1]
  · have : ∃ j < b, x.getLsbD j = true := ⟨_, h, f2⟩
    have ne : b ≠ ffs32 x := by omega
    simp only [this]; cases x.getLsbD b <;> simp [ne, hb]

/-- The leading-zero count gives the position of the highest 1 bit (43_count_search.md R166). -/
theorem clz32_eq {x : Word} (hx : x ≠ 0) : 31 - clz32 x = fls32 x := by
  obtain ⟨f1, f2, f3⟩ := fls32_spec hx
  have : clz32 x = 31 - fls32 x := by
    unfold clz32
    obtain ⟨d, hd⟩ : ∃ d, 31 = fls32 x + d := ⟨31 - fls32 x, by omega⟩
    have e : (32 : Nat) = d + (fls32 x + 1) := by omega
    have e2 : List.range 32 = List.range d ++ List.map (fun x => d + x) (List.range (fls32 x + 1)) := by rw [e, List.range_add]
    have hd' : d = 31 - fls32 x := by omega
    rw [e2, List.takeWhile_append_of_pos]
    · rw [List.range_succ_eq_map, List.map_cons, List.takeWhile_cons_of_neg]
      · simp; omega
      · simp; rw [show 31 - d = fls32 x by omega]; exact f2
    · intro b hb
      simp at hb
      rw [f3 (31 - b) (by omega)]; rfl
  omega

theorem fls32_isolated {x : Word} (hx : x ≠ 0) : (x &&& -x) ≠ 0 ∧ fls32 (x &&& -x) = ffs32 x := by
  obtain ⟨f1, f2, f3⟩ := ffs32_spec hx
  have hne : (x &&& -x) ≠ 0 := (word_ne_zero_iff _).2 ⟨ffs32 x, f1, by rw [isolated_getLsbD hx _ f1]; simp⟩
  refine ⟨hne, ?_⟩
  obtain ⟨g1, g2, g3⟩ := fls32_spec hne
  rw [isolated_getLsbD hx _ g1] at g2; simpa using g2

/-- Clearing the lowest 1 bit leaves the other positions (44_iteration.md R184). -/
theorem setPositions_step {x : Word} (hx : x ≠ 0) : setPositions x = ffs32 x :: setPositions (x ^^^ (x &&& -x)) := by
  obtain ⟨f1, f2, f3⟩ := ffs32_spec hx
  have mem : ∀ b, b ∈ setPositions (x ^^^ (x &&& -x)) ↔ b ∈ setPositions x ∧ b ≠ ffs32 x := by
    intro b; rw [mem_setPositions, mem_setPositions]
    constructor
    · rintro ⟨h1, h2⟩
      rw [BitVec.getLsbD_xor, isolated_getLsbD hx b h1] at h2
      by_cases hb : b = ffs32 x
      · subst hb; simp [f2] at h2
      · simp [hb] at h2; exact ⟨⟨h1, h2⟩, hb⟩
    · rintro ⟨⟨h1, h2⟩, h3⟩
      refine ⟨h1, ?_⟩
      rw [BitVec.getLsbD_xor, isolated_getLsbD hx b h1, h2]; simp [h3]
  apply List.Perm.eq_of_pairwise' (r := (· < ·)) (setPositions_sorted x)
  · rw [List.pairwise_cons]
    refine ⟨fun b hb => ?_, setPositions_sorted _⟩
    have := (mem b).1 hb
    have h2 := mem_setPositions.1 this.1
    by_contra hlt
    have := f3 b (by omega)
    rw [h2.2] at this; simp at this
  · rw [List.perm_ext_iff_of_nodup ((setPositions_sorted x).imp (fun h => by omega))]
    · intro b
      rw [List.mem_cons, mem]
      constructor
      · intro h; by_cases hb : b = ffs32 x
        · exact .inl hb
        · exact .inr ⟨h, hb⟩
      · rintro (rfl | h)
        · exact mem_setPositions.2 ⟨f1, f2⟩
        · exact h.1
    · rw [List.nodup_cons]
      exact ⟨fun h => ((mem _).1 h).2 rfl, (setPositions_sorted _).imp (fun h => by omega)⟩

/-- The indices `TIDX` emits (44_iteration.md R181). -/
theorem mem_setIndices {v : PackedVector} {b e i : Nat} : i ∈ setIndices v b e ↔ b ≤ i ∧ i < e ∧ v.bit i = true := by
  unfold setIndices; simp [List.mem_range']; constructor
  · rintro ⟨⟨j, hj, rfl⟩, h⟩; exact ⟨by omega, by omega, h⟩
  · rintro ⟨h1, h2, h3⟩; exact ⟨⟨i - b, by omega, by omega⟩, h3⟩

end Sys2Proof.Machine
end

