-- ==== Sys2Proof/Tests/Slice0.lean ====
section
/-! SUPPORT. Tests on fixed values. Unless a comment says otherwise, the packets and the expected responses are those of the row
of 95_test_vectors.md named in the comment (`T-…`, `S-…`), or of the example of the rule named. The witnesses at the end show,
for every statement with hypotheses, a state and operands that meet them. -/

namespace Sys2Proof.Tests

open Sys2Proof Sys2Proof.Machine Sys2Proof.Claims

/-! ### Helpers -/

/-- The reset state with a vector in slot 0. -/
def with0 (n : Nat) (ws : List Word) : State := State.reset.setSlot 0 (some (vectorOfWords n ws))

/-- The reset state with vectors in slots 0 and 1. -/
def with01 (n : Nat) (ws : List Word) (m : Nat) (us : List Word) : State :=
  (with0 n ws).setSlot 1 (some (vectorOfWords m us))

/-- The state after one step on a packet; none if the machine stops. -/
def after (s : State) (cmd arg0 arg1 : Word) (payload : List Word := []) : Option State :=
  match step { s with inbox := [.present ⟨cmd, arg0, arg1, payload⟩] } with
  | .next t => some t
  | .fault _ => none
  | .refused _ => none

/-- `STATUS`, `RES`, `ERRVAL`, `ERRLIM` and the `OUT` beats. -/
def response (t : State) : List Word × List Word := ([t.status, t.res, t.errval, t.errlim], t.out)

/-- The size and the words of the vector in a slot. -/
def contents (t : State) (a : Slot) : Option (Nat × List Word) :=
  (t.slot a).map fun v => (v.size, (List.range v.wordCount).map v.memRead)

/-- What one packet answers. -/
def answer (s : State) (cmd arg0 arg1 : Word) (payload : List Word := []) : Option (List Word × List Word) :=
  (after s cmd arg0 arg1 payload).map response

/-- What one packet answers, and what slot `a` then holds. -/
structure Seen where
  response : List Word × List Word
  slot : Option (Nat × List Word)
  deriving DecidableEq, Repr

def stored (a : Slot) (s : State) (cmd arg0 arg1 : Word) (payload : List Word := []) : Option Seen :=
  (after s cmd arg0 arg1 payload).map fun t => ⟨response t, contents t a⟩

/-- The answer of a success without beats. -/
def ok (res : Word) : List Word × List Word := ([0, res, 0, 0], [])

/-- The answer of an error. -/
def error (status errval errlim : Word) : List Word × List Word := ([status, 0, errval, errlim], [])

/-- The 70-bit vector of the T-41 and T-44 rows. -/
def v70 : State := with0 70 [0x80000221, 0x80000001, 0x00000021]

/-- The 70-bit vector `B` of the T-43 rows. -/
def b70 : State := with0 70 [0x00000008, 0x00000100, 0x00000020]

/-- The 40-bit operands of the T-42 rows. -/
def v40 : State := with01 40 [0x12345678, 0x000000AB] 40 [0x0F0F0F0F, 0x0000003C]

/-! ### Well-formedness -/

theorem test_wf_destination_slot : (Instr.create 4 1).wf 4 = false := by decide
theorem test_wf_left_slot : (Instr.popc 4).wf 4 = false := by decide
theorem test_wf_right_slot : (Instr.eq 0 4).wf 4 = false := by decide
theorem test_wf_ok : (Instr.eq 0 3).wf 4 = true := by decide

/-- A payload longer than `ARG1` can say (R73, R81). -/
theorem test_wf_payload_length : (Instr.loadw 0 1 (List.replicate 4294967296 0)).wf 4 = false := by
  have h : (Instr.loadw 0 1 (List.replicate 4294967296 0)).payloadFits = false := by
    unfold Instr.payloadFits Instr.payloadOf
    rw [List.length_replicate]
    exact decide_eq_false (Nat.lt_irrefl _)
  unfold Instr.wf
  rw [h, Bool.and_false]

/-- A vector of size 0, one with a set padding bit and one with a word beyond `WORDCOUNT` are not well formed (R22, R25, R23);
a memory out of order or with a listed 0 is not canonical. -/
theorem test_vector_wf :
    (zeroVector 0).wf = false ∧ (zeroVector 536870912).wf = false ∧ (PackedVector.mk 10 [(0, 0x400)]).wf = false ∧
      (PackedVector.mk 10 [(1, 1)]).wf = false ∧ (PackedVector.mk 10 [(0, 0x221)]).wf = true ∧
      Memory.wf [(1, 1), (0, 1)] = false ∧ Memory.wf [(0, 0)] = false := by decide

/-! ### Decoding: every command from a word written out from R71 and R75 -/

theorem test_decode_lifecycle :
    decodeTableWord 32 0x00000001 = some (.create 0 0) ∧ decodeTableWord 32 0x00000202 = some (.loadw 2 0 []) ∧
      decodeTableWord 32 0x00000103 = some (.copy 1 0) ∧ decodeTableWord 32 0x00000204 = some (.free 2) ∧
      decodeTableWord 32 0x00001005 = some (.vsize 1) ∧ decodeTableWord 32 0x00002006 = some (.rdw 2 0) := by decide

theorem test_decode_bit_range :
    decodeTableWord 32 0x00001010 = some (.getb 1 0) ∧ decodeTableWord 32 0x00100111 = some (.setb 1 true 0) ∧
      decodeTableWord 32 0x00000312 = some (.tglb 3 0) ∧ decodeTableWord 32 0x00003013 = some (.getr 3 0 0) ∧
      decodeTableWord 32 0x00000214 = some (.setr 2 false 0 0) ∧ decodeTableWord 32 0x00100315 = some (.fill 3 true) := by
  decide

theorem test_decode_bitwise :
    decodeTableWord 32 0x00010220 = some (.and 2 0 1) ∧ decodeTableWord 32 0x00010221 = some (.or 2 0 1) ∧
      decodeTableWord 32 0x00010222 = some (.xor 2 0 1) ∧ decodeTableWord 32 0x00010223 = some (.nand 2 0 1) ∧
      decodeTableWord 32 0x00010224 = some (.nor 2 0 1) ∧ decodeTableWord 32 0x00010225 = some (.xnor 2 0 1) ∧
      decodeTableWord 32 0x00001226 = some (.diff 2 1 0) ∧ decodeTableWord 32 0x00000127 = some (.not 1 0) ∧
      decodeTableWord 32 0x00020028 = some (.eq 0 2) := by decide

theorem test_decode_search :
    decodeTableWord 32 0x00003030 = some (.popc 3) ∧ decodeTableWord 32 0x00101031 = some (.idxof 1 true 0) ∧
      decodeTableWord 32 0x00002032 = some (.lidxof 2 false 0) ∧ decodeTableWord 32 0x00002040 = some (.tidx 2 0 0) := by
  decide

/-- Operand words (R70, R73): `GETR v1, 5, -1` and a `LOADW` of two words; `ARG0` and `ARG1` in their places of a table word. -/
theorem test_decode_operands :
    decode 4 ⟨0x00001013, 5, 0xFFFFFFFF, []⟩ = .ok (.getr 1 5 0xFFFFFFFF) ∧
      decode 4 ⟨0x00000002, 100, 2, [7, 8]⟩ = .ok (.loadw 0 100 [7, 8]) ∧
      decodeTableWord 96 (0x13 + 0x100000000 * 3 + 0x10000000000000000 * 4) = some (.getr 0 3 4) := by decide

/-- Each condition of R76, in the order of R78, and the framing of R81 (T-60-03, T-60-04, T-60-07, T-60-13, T-60-14). -/
theorem test_decode_errors :
    decode 4 ⟨0x00200001, 33, 0, []⟩ = .error .reservedBits ∧ decode 4 ⟨0x00000007, 0, 0, []⟩ = .error .reservedOpcode ∧
      decode 4 ⟨0x00100012, 5, 0, []⟩ = .error .deadField ∧ decode 4 ⟨0x00004030, 0, 0, []⟩ = .error .slotNumber ∧
      decode 4 ⟨0x00000030, 0, 0, [1]⟩ = .error .strayPayload ∧ decode 4 ⟨0x00000002, 100, 2, [7]⟩ = .error .payloadLength := by
  decide

/-- The decoder's rows are the rows of R75, and no two of them overlap. -/
theorem test_opcode_rows :
    opcodeTable.map (fun r => (r.format.mask, r.pattern)) = specRows ∧
      (specRows.map Prod.snd).Nodup ∧ specRows.all (fun r => r.1 &&& 0xFF == 0xFF && r.2 &&& ~~~r.1 == 0) = true := by decide

/-! ### Lifecycle -/

/-- T-40-02, T-40-09. -/
theorem test_create :
    stored 0 State.reset 0x00000001 33 0 = some ⟨ok 0, some (33, [0, 0])⟩ ∧
      stored 0 (with0 10 [0x221]) 0x00000001 0 0 = some ⟨error 0x32 0 0x20000000, some (10, [0x221])⟩ := by decide

/-- T-40-04, T-40-06, T-40-07: sizes at the ends of the range. -/
theorem test_create_bounds :
    answer State.reset 0x00000001 0x80000000 0 = some (error 0x32 0x80000000 0x20000000) ∧
      answer State.reset 0x00000001 0x20000000 0 = some (error 0x32 0x20000000 0x20000000) ∧
      answer State.reset 0x00000001 0x1FFFFFFF 0 = some (ok 0) := by decide

/-- S-9. -/
theorem test_loadw :
    stored 0 State.reset 0x00000002 100 4 [1, 0, 0x80000000, 0xFFFFFFF5] =
      some ⟨ok 0, some (100, [1, 0, 0x80000000, 5])⟩ := by decide

/-- T-40-11, T-40-13, T-40-14. -/
theorem test_loadw_length :
    stored 0 State.reset 0x00000002 100 1 [0xDEADBEEF] = some ⟨ok 0, some (100, [0xDEADBEEF, 0, 0, 0])⟩ ∧
      answer State.reset 0x00000002 33 3 [1, 2, 3] = some (error 0x72 3 3) ∧
      answer State.reset 0x00000002 0 1 [1] = some (error 0x32 0 0x20000000) := by decide

/-- Example of R104; an empty source (R211). -/
theorem test_copy :
    stored 1 (with0 10 [0x221]) 0x00000103 0 0 = some ⟨ok 0, some (10, [0x221])⟩ ∧
      answer State.reset 0x00000103 0 0 = some (error 0xA3 0 0) := by decide

/-- P-3 rows 6 and 7; `FREE` of an empty slot succeeds (R105). -/
theorem test_free :
    stored 1 (with01 10 [0x221] 8 [8]) 0x00000104 0 0 = some ⟨ok 0, none⟩ ∧
      stored 2 State.reset 0x00000204 0 0 = some ⟨ok 0, none⟩ := by decide

/-- Example of R107; T-70-02. -/
theorem test_vsize :
    answer (with0 33 []) 0x00000005 0 0 = some (ok 0x21) ∧ answer State.reset 0x00000005 0 0 = some (error 0xA3 0 0) := by decide

/-- Example of R108. -/
theorem test_rdw :
    answer (with0 33 [0xFFFFFFFF, 1]) 0x00000006 0 0 = some (ok 0xFFFFFFFF) ∧
      answer (with0 33 [0xFFFFFFFF, 1]) 0x00000006 1 0 = some (ok 1) ∧
      answer (with0 33 [0xFFFFFFFF, 1]) 0x00000006 2 0 = some (error 0x42 2 2) := by decide

/-! ### Bits and ranges -/

/-- T-41-02 to T-41-07. -/
theorem test_getb :
    answer v70 0x00000010 31 0 = some (ok 1) ∧ answer v70 0x00000010 32 0 = some (ok 1) ∧
      answer v70 0x00000010 33 0 = some (ok 0) ∧ answer v70 0x00000010 69 0 = some (ok 1) ∧
      answer v70 0x00000010 70 0 = some (error 0x42 70 70) ∧
      answer v70 0x00000010 0xFFFFFFFF 0 = some (error 0x42 0xFFFFFFFF 70) := by decide

/-- T-41-08, T-41-09, T-41-11, T-41-13. -/
theorem test_setb :
    stored 0 (with0 64 []) 0x00100011 31 0 = some ⟨ok 0, some (64, [0x80000000, 0])⟩ ∧
      stored 0 (with0 64 []) 0x00100011 32 0 = some ⟨ok 0, some (64, [0, 1])⟩ ∧
      stored 0 v70 0x00000011 5 0 = some ⟨ok 0, some (70, [0x80000201, 0x80000001, 0x21])⟩ ∧
      answer v70 0x00100011 70 0 = some (error 0x42 70 70) := by decide

/-- T-41-14, T-41-15. -/
theorem test_tglb :
    stored 0 v70 0x00000012 5 0 = some ⟨ok 0, some (70, [0x80000201, 0x80000001, 0x21])⟩ ∧
      stored 0 v70 0x00000012 6 0 = some ⟨ok 1, some (70, [0x80000261, 0x80000001, 0x21])⟩ := by decide

/-- T-41-21. -/
theorem test_getr : answer v70 0x00000013 62 8 = some ([0, 8, 0, 0], [0, 1, 1, 0, 0, 0, 0, 1]) := by decide

/-- T-41-18, T-41-22, T-41-23, T-41-24. -/
theorem test_getr_errors :
    answer v70 0x00000013 70 0 = some (error 0x42 70 70) ∧
      answer v70 0x00000013 0xFFFFFFFF 0xFFFFFFFF = some (error 0x42 0xFFFFFFFF 70) ∧
      answer v70 0x00000013 5 99 = some (error 0x42 99 71) ∧ answer v70 0x00000013 5 66 = some (error 0x52 71 71) := by decide

/-- T-41-27, T-41-28, T-41-31. -/
theorem test_setr :
    stored 0 (with0 100 []) 0x00100014 30 40 = some ⟨ok 0, some (100, [0xC0000000, 0xFFFFFFFF, 0x3F, 0])⟩ ∧
      stored 0 (with0 100 [0xC0000000, 0xFFFFFFFF, 0x3F]) 0x00000014 31 2 =
        some ⟨ok 0, some (100, [0x40000000, 0xFFFFFFFE, 0x3F, 0])⟩ ∧
      stored 0 v70 0x00100014 4 3 = some ⟨ok 0, some (70, [0x80000271, 0x80000001, 0x21])⟩ := by decide

/-- T-41-29, T-41-30, T-41-33, T-41-36. -/
theorem test_setr_edges :
    answer v70 0x00100014 70 0 = some (error 0x42 70 70) ∧
      stored 0 v70 0x00100014 10 0 = some ⟨ok 0, some (70, [0x80000221, 0x80000001, 0x21])⟩ ∧
      stored 0 v70 0x00100014 32 38 = some ⟨ok 0, some (70, [0x80000221, 0xFFFFFFFF, 0x3F])⟩ ∧
      stored 0 v70 0x00000014 1 68 = some ⟨ok 0, some (70, [1, 0, 0x20])⟩ := by decide

/-- T-41-39, T-41-40, T-41-41, T-41-42. -/
theorem test_fill :
    stored 0 (with0 33 []) 0x00100015 0 0 = some ⟨ok 0, some (33, [0xFFFFFFFF, 1])⟩ ∧
      stored 0 (with0 33 [0xFFFFFFFF, 1]) 0x00000015 0 0 = some ⟨ok 0, some (33, [0, 0])⟩ ∧
      stored 0 (with0 32 []) 0x00100015 0 0 = some ⟨ok 0, some (32, [0xFFFFFFFF])⟩ ∧
      stored 0 (with0 1 []) 0x00100015 0 0 = some ⟨ok 0, some (1, [1])⟩ := by decide

/-! ### Set algebra -/

/-- T-42-08 to T-42-11. -/
theorem test_and_or_xor_nand :
    stored 2 v40 0x00010220 0 0 = some ⟨ok 0, some (40, [0x02040608, 0x28])⟩ ∧
      stored 2 v40 0x00010221 0 0 = some ⟨ok 0, some (40, [0x1F3F5F7F, 0xBF])⟩ ∧
      stored 2 v40 0x00010222 0 0 = some ⟨ok 0, some (40, [0x1D3B5977, 0x97])⟩ ∧
      stored 2 v40 0x00010223 0 0 = some ⟨ok 0, some (40, [0xFDFBF9F7, 0xD7])⟩ := by decide

/-- T-42-12 to T-42-15. -/
theorem test_nor_xnor_diff :
    stored 2 v40 0x00010224 0 0 = some ⟨ok 0, some (40, [0xE0C0A080, 0x40])⟩ ∧
      stored 2 v40 0x00010225 0 0 = some ⟨ok 0, some (40, [0xE2C4A688, 0x68])⟩ ∧
      stored 2 v40 0x00010226 0 0 = some ⟨ok 0, some (40, [0x10305070, 0x83])⟩ ∧
      stored 2 (with01 10 [0x221] 10 [0xF1]) 0x00001226 0 0 = some ⟨ok 0, some (10, [0xD0])⟩ := by decide

/-- T-42-16, T-42-17, T-42-19: the destination is a source. -/
theorem test_binary_aliasing :
    stored 0 (with01 10 [0x221] 10 [0xF1]) 0x00010020 0 0 = some ⟨ok 0, some (10, [0x21])⟩ ∧
      stored 1 (with01 10 [0x221] 10 [0xF1]) 0x00010124 0 0 = some ⟨ok 0, some (10, [0x10E])⟩ ∧
      stored 0 (with01 10 [0x221] 10 [0xF1]) 0x00000023 0 0 = some ⟨ok 0, some (10, [0x1DE])⟩ := by decide

/-- T-42-22, T-42-24, T-42-25, T-42-26. -/
theorem test_binary_errors :
    answer (with01 33 [] 40 []) 0x00010220 0 0 = some (error 0x62 0x28 0x21) ∧
      answer (State.reset.setSlot 1 (some (vectorOfWords 10 []))) 0x00010220 0 0 = some (error 0xA3 0 0) ∧
      answer (with0 10 []) 0x00010220 0 0 = some (error 0xA3 1 0) ∧
      answer State.reset 0x00021020 0 0 = some (error 0xA3 1 0) := by decide

/-- T-42-27, T-42-30. -/
theorem test_not :
    stored 1 (with0 10 [0x221]) 0x00000127 0 0 = some ⟨ok 0, some (10, [0x1DE])⟩ ∧
      stored 1 (with0 33 []) 0x00000127 0 0 = some ⟨ok 0, some (33, [0xFFFFFFFF, 1])⟩ := by decide

/-- T-42-32 to T-42-35. -/
theorem test_eq :
    answer (with01 10 [0x221] 10 [0x221]) 0x00010028 0 0 = some (ok 1) ∧
      answer (with01 10 [0x221] 10 [0x21]) 0x00010028 0 0 = some (ok 0) ∧
      answer (with01 33 [] 40 []) 0x00010028 0 0 = some (ok 0) ∧ answer (with0 10 [0x221]) 0x00000028 0 0 = some (ok 1) := by
  decide

/-! ### Count, search, enumeration -/

/-- T-43-01, T-43-03, T-60-15. -/
theorem test_popc :
    answer b70 0x00000030 0 0 = some (ok 3) ∧
      answer (with0 70 [0xFFFFFFFF, 0xFFFFFFFF, 0x3F]) 0x00000030 0 0 = some (ok 70) ∧
      answer (with0 10 [0x221]) 0x00000030 0xDEADBEEF 0x12345678 = some (ok 3) := by decide

/-- T-43-06, T-43-07, T-43-10, T-43-11, T-43-14, T-43-16. -/
theorem test_idxof_true :
    answer b70 0x00100031 3 0 = some (ok 3) ∧ answer b70 0x00100031 4 0 = some (ok 40) ∧
      answer b70 0x00100031 70 0 = some (ok 0xFFFFFFFF) ∧ answer b70 0x00100031 0x7FFFFFFF 0 = some (ok 0xFFFFFFFF) ∧
      answer b70 0x00100031 0xFFFFFFE3 0 = some (ok 69) ∧ answer b70 0x00100031 0xFFFFFFB9 0 = some (ok 3) := by decide

/-- T-43-19, T-43-20, T-43-23. -/
theorem test_idxof_false :
    answer b70 0x00000031 3 0 = some (ok 4) ∧ answer b70 0x00000031 69 0 = some (ok 0xFFFFFFFF) ∧
      answer (with0 70 []) 0x00000031 64 0 = some (ok 64) := by decide

/-- T-43-24, T-43-25, T-43-27, T-43-30, T-43-31, T-43-32, T-43-33, T-43-38. -/
theorem test_lidxof_true :
    answer b70 0x00100032 70 0 = some (ok 69) ∧ answer b70 0x00100032 69 0 = some (ok 40) ∧
      answer b70 0x00100032 40 0 = some (ok 3) ∧ answer b70 0x00100032 1000 0 = some (ok 69) ∧
      answer b70 0x00100032 0xFFFFFFFF 0 = some (ok 40) ∧ answer b70 0x00100032 0xFFFFFFBB 0 = some (ok 0xFFFFFFFF) ∧
      answer b70 0x00100032 0 0 = some (ok 0xFFFFFFFF) ∧ answer (with0 70 [1]) 0x00100032 0xFFFFFF38 0 = some (ok 0) := by decide

/-- T-43-36, T-43-39, T-43-40. -/
theorem test_lidxof_false :
    answer b70 0x00000032 0x80000000 0 = some (ok 0) ∧ answer b70 0x00000032 70 0 = some (ok 68) ∧
      answer (with0 70 []) 0x00000032 70 0 = some (ok 69) := by decide

/-- T-44-02, T-44-06, T-44-07. -/
theorem test_tidx :
    answer v70 0x00000040 1 64 = some ([0, 5, 0, 0], [5, 9, 31, 32, 63]) ∧ answer v70 0x00000040 40 40 = some (ok 0) ∧
      answer v70 0x00000040 40 5 = some (ok 0) := by decide

/-- T-44-09, T-44-10, T-44-11, T-44-12. -/
theorem test_tidx_errors :
    answer v70 0x00000040 70 70 = some (error 0x42 70 70) ∧ answer v70 0x00000040 0 71 = some (error 0x42 71 71) ∧
      answer v70 0x00000040 0xFFFFFFFF 71 = some (error 0x42 0xFFFFFFFF 70) ∧
      answer v70 0x00000040 0 0xFFFFFFFF = some (error 0x42 0xFFFFFFFF 71) := by decide

/-- The word-level walk on the vector of T-44-02. -/
theorem test_walk : walkIndices (vectorOfWords 70 [0x80000221, 0x80000001, 0x21]) 1 64 = [5, 9, 31, 32, 63] := by decide

/-! ### Helper functions: the tables of 95_test_vectors.md section 3, and S-10 -/

theorem test_word_functions :
    [0, 1, 0x221, 0x220, 0x80000000, 0xFFFFFFFF, 0x7FFFFFFF, 0x10000, 0xDEADBEEF].map
        (fun w : Word => (popcount32 w, clz32 w)) =
      [(0, 32), (1, 31), (3, 22), (2, 22), (1, 0), (32, 0), (31, 1), (1, 15), (24, 0)] ∧
    [1, 0x221, 0x220, 0x80000000, 0xFFFFFFFF, 0x7FFFFFFF, 0x10000, 0xDEADBEEF].map (fun w : Word => (ffs32 w, fls32 w)) =
      [(0, 0), (0, 9), (5, 9), (31, 31), (0, 31), (0, 30), (16, 16), (0, 31)] := by decide

theorem test_masks :
    [(0, 0), (0, 1), (0, 32), (4, 7), (30, 32), (31, 32), (0, 6), (5, 5)].map (fun p : Nat × Nat => span p.1 p.2) =
      [0, 1, 0xFFFFFFFF, 0x70, 0xC0000000, 0x80000000, 0x3F, 0] ∧
    [0, 1, 4, 10, 31, 32, 6, 30].map low = [0, 1, 0xF, 0x3FF, 0x7FFFFFFF, 0xFFFFFFFF, 0x3F, 0x3FFFFFFF] ∧
    [1, 10, 31, 32, 33, 64, 100].map (fun n => (tailBits n, tailMask n, wordCount n)) =
      [(1, 1, 1), (10, 0x3FF, 1), (31, 0x7FFFFFFF, 1), (0, 0xFFFFFFFF, 1), (1, 1, 2), (0, 0xFFFFFFFF, 2), (4, 0xF, 4)] ∧
    [0, 31, 32, 37, 99].map (fun i => (chunk i, off i, bitmask i)) =
      [(0, 0, 1), (0, 31, 0x80000000), (1, 0, 1), (1, 5, 0x20), (3, 3, 8)] := by decide

/-- The STATUS column of R203. -/
theorem test_status_words :
    [Cause.invalidSize, .notInteger, .outOfRange, .indexBounds, .rangeExceeded, .sizeMismatch, .rawTooLong, .bufferTooSmall,
        .illegalCommand, .slotInvalid].map statusWord =
      [0x11, 0x21, 0x32, 0x42, 0x52, 0x62, 0x72, 0x82, 0x93, 0xA3] := by decide

/-! ### The port -/

/-- T-60-01 to T-60-05: illegal command words leave the slot as it was. -/
theorem test_illegal :
    ([0, 0xFFFFFFFF, 0x00200001, 7, 0x41] : List Word).all (fun w =>
      stored 0 (with0 10 [0x221]) w 0 0 == some ⟨error 0x93 w 0, some (10, [0x221])⟩) = true := by decide

/-- T-60-06 to T-60-11, T-60-13, T-60-17: dead fields and slot numbers at or above `NSLOT`. -/
theorem test_illegal_fields :
    ([0x1001, 0x00100012, 0x00100030, 0x130, 0x00010013, 0x00100911, 0x4030, 0x1910] : List Word).all (fun w =>
      stored 0 (with0 10 [0x221]) w 0 0 == some ⟨error 0x93 w 0, some (10, [0x221])⟩) = true := by decide

/-- T-60-12, T-60-14, T-60-16. -/
theorem test_decode_stage :
    answer (State.resetWith 16) 0x00100911 0 0 = some (error 0xA3 9 0) ∧
      answer (with0 10 [0x221]) 0x00000030 0 0 [1] = some (error 0x93 0x30 0) ∧
      answer (with0 10 [0x221]) 0x00001010 0xFFFFFFFF 0 = some (error 0xA3 1 0) := by decide

/-- T-70-01, T-70-03, T-70-04, T-70-08. -/
theorem test_reset :
    response State.reset = ok 0 ∧ State.reset.cfg = 4 ∧ State.reset.maxsz = 0x1FFFFFFF ∧ (State.resetWith 16).cfg = 0x10 ∧
      answer State.reset 0x00003030 0 0 = some (error 0xA3 3 0) ∧
      stored 0 State.reset 0x00000001 10 0 = some ⟨ok 0, some (10, [0])⟩ := by decide

/-- T-70-05: reset empties the slot. -/
theorem test_reset_event :
    (match step { with0 10 [0x221] with inbox := [.reset], out := [5, 9], res := 3 } with
      | .next t => some (contents t 0, response t)
      | _ => none) = some (none, ok 0) := by decide

/-- R37: a word written to `CMD` is presented with the staged operand words and payload, which it consumes (R81). -/
theorem test_write_cmd :
    (match step { State.reset with arg0 := 33, arg1 := 2, payload := [7, 1], inbox := [.write .cmd 0x102] } with
      | .next t => some (contents t 1, t.payload)
      | _ => none) = some (some (33, [7, 1]), []) := by decide

/-- R37: a read of `OUT` takes the next beat. -/
theorem test_read_out :
    (match step { State.reset with out := [5, 9], inbox := [.read .out] } with
      | .next t => some (t.rdata, t.out)
      | _ => none) = some (5, [9]) := by decide

/-- R61: register numbers and addresses; R60: the bytes of a word. -/
theorem test_addresses :
    HostReg.address 0x1000 .cmd = 0x1000 ∧ HostReg.address 0x1000 .out = 0x1028 ∧
      wordBytes 0x80000221 = [0x21, 0x02, 0x00, 0x80] := by decide

/-- A table word placed at the port is what the next step runs. -/
theorem test_fetch_word :
    (match step (State.reset.withFetchWord 32 0x00003030) with
      | .next t => some (response t)
      | _ => none) = some (error 0xA3 3 0) := by decide

/-! ### Witnesses: states and operands that meet the hypotheses of each statement, one per clause -/

/-- The state whose host presents a packet. -/
def presenting (cmd arg0 arg1 : Word) (payload : List Word := []) : State :=
  { State.reset with inbox := [.present ⟨cmd, arg0, arg1, payload⟩] }

/-- The 10-bit vector of the spec's examples, and the reset state with it in slot 0. -/
def v10 : PackedVector := vectorOfWords 10 [0x221]
def s10 : State := with0 10 [0x221]

theorem witness_DecodeOfEncodeIsTheCommand : (Instr.setr 15 true 4294967295 2147483648).wf 16 = true := by decide

theorem witness_DecodedPacketIsItsEncoding : decode 4 ⟨0x00103031, 5, 9, []⟩ = .ok (.idxof 3 true 5) := by decide

theorem legal_idxof : Legal 4 ⟨0x00103031, 5, 9, []⟩ :=
  ⟨(0xFFEF0FFF, 0x31), by decide, by unfold Selects; decide, by unfold LiveSlotsBelow; decide, .inr rfl⟩

theorem legal_loadw (arg1 : Word) (ws : List Word) : Legal 4 ⟨0x00000302, 64, arg1, ws⟩ :=
  ⟨(0xFFFFF0FF, 0x02), by decide, by unfold Selects; exact (by decide : (0x00000302 &&& 0xFFFFF0FF : Word) = 0x02),
    ⟨fun _ => (by decide : (0x00000302 : Word).toNat / 256 % 16 < 4), fun h => absurd h (by decide), fun h => absurd h (by decide)⟩, .inl rfl⟩

/-- Both a packet without a payload and a `LOADW` packet of the right length. -/
theorem witness_LegalPacketDecodes :
    (Legal 4 ⟨0x00103031, 5, 9, []⟩ ∧ fieldOP 0x00103031 ≠ 0x02) ∧
      (Legal 4 ⟨0x00000302, 64, 2, [7, 8]⟩ ∧ (2 : Word).toNat = ([7, 8] : List Word).length) :=
  ⟨⟨legal_idxof, by decide⟩, legal_loadw 2 [7, 8], by decide⟩

theorem witness_StepRunsDecodedCommand :
    (presenting 0x00003030 0 0).inbox = .present ⟨0x00003030, 0, 0, []⟩ :: [] ∧
      decode (presenting 0x00003030 0 0).nslot ⟨0x00003030, 0, 0, []⟩ = .ok (.popc 3) := by decide

/-- An all-zero command word, and a slot number at `NSLOT`. -/
theorem witness_IllegalPacketRaisesIllegalCommand :
    (presenting 0 0 0).inbox = .present ⟨0, 0, 0, []⟩ :: [] ∧ ¬Legal (presenting 0 0 0).nslot ⟨0, 0, 0, []⟩ ∧
      ¬Legal 4 ⟨0x00004030, 0, 0, []⟩ := by
  unfold Legal Selects LiveSlotsBelow; decide

theorem witness_LoadwLengthMismatchIsRefused :
    (presenting 0x00000302 64 3 [7, 8]).inbox = .present ⟨0x00000302, 64, 3, [7, 8]⟩ :: [] ∧
      Legal (presenting 0x00000302 64 3 [7, 8]).nslot ⟨0x00000302, 64, 3, [7, 8]⟩ ∧ fieldOP 0x00000302 = 0x02 ∧
      (3 : Word).toNat ≠ ([7, 8] : List Word).length :=
  ⟨rfl, legal_loadw 3 [7, 8], by decide, by decide⟩

theorem witness_HostWritesStageOrDoNothing :
    { State.reset with inbox := [.write .payload 7] }.inbox = .write .payload 7 :: [] ∧ HostReg.payload ≠ .cmd := by decide

/-- A register and a pending beat. -/
theorem witness_HostReadsReturnTheRegister :
    { State.reset with inbox := [.read .maxsz] }.inbox = .read .maxsz :: [] ∧
      (HostReg.maxsz, (0x1FFFFFFF : Word)) ∈ [(HostReg.status, State.reset.status), (.maxsz, State.reset.maxsz)] ∧
      { State.reset with inbox := [.read .out], out := [5, 9] }.out.head? = some 5 := by decide

/-- A write-only register, and `OUT` with no beat pending. -/
theorem witness_UnspecifiedReadChangesNoEngineState :
    { State.reset with inbox := [.read .arg0] }.inbox = .read .arg0 :: [] ∧
      HostReg.arg0 ∈ [HostReg.cmd, .arg0, .arg1, .payload] ∧
      { State.reset with inbox := [.read .out] }.inbox = .read .out :: [] ∧ State.reset.out = [] := by decide

theorem witness_ResetEmptiesTheEngine : { s10 with inbox := [.reset], res := 3 }.inbox = .reset :: [] := by decide

theorem witness_ResetKeepsTheHostsActions :
    { s10 with inbox := [.reset, .read .res], arg0 := 7 }.inbox = .reset :: [.read .res] := by decide

/-- Both ends of the range of `NSLOT`. -/
theorem witness_ResetStateIsTheResetTable : 1 ≤ 1 ∧ 1 ≤ 16 ∧ (State.resetWith 16).cfg.toNat % 32 = 16 := by decide

/-- A step that makes a vector, and a step that raises an error, from well-formed states. -/
theorem witness_StepKeepsWellFormed :
    (presenting 0x00000101 33 0).wf = true ∧ (∃ t, step (presenting 0x00000101 33 0) = .next t) ∧
      (presenting 0 0 0).wf = true ∧ ∃ t, step (presenting 0 0 0) = .next t :=
  ⟨by decide, ⟨_, rfl⟩, by decide, _, rfl⟩

theorem witness_ResetIsWellFormed : (State.resetWith 1).wf = true ∧ (State.resetWith 16).wf = true := by decide

theorem witness_StepKeepsConfiguration : ∃ t, step { s10 with inbox := [.write .maxsz 5] } = .next t := ⟨_, rfl⟩

/-- A command with a destination and another slot. -/
theorem witness_CommandChangesOnlyItsDestination :
    (∃ t, exec (.not 1 0) s10 = .next t) ∧ destination (.not 1 0) ≠ some 0 := ⟨⟨_, rfl⟩, by decide⟩

theorem witness_ResponseIsSuccessOrFailure : ∃ t, exec (.getb 0 10) s10 = .next t := ⟨_, rfl⟩

/-- Two states with the same slots and different responses. -/
theorem witness_CommandReadsSlotsOnly :
    s10.slots = { s10 with status := 0x42, errval := 10, errlim := 10, out := [1] }.slots ∧
      (∃ t, exec (.popc 0) s10 = .next t) ∧
      ∃ t, exec (.popc 0) { s10 with status := 0x42, errval := 10, errlim := 10, out := [1] } = .next t :=
  ⟨rfl, ⟨_, rfl⟩, _, rfl⟩

/-- The left slot empty, and the right one. -/
theorem witness_EmptySlotRaisesSlotInvalid :
    (checkedSlots (.and 0 1 2)).find? (fun b => (s10.slot b).isNone) = some 1 ∧
      (checkedSlots (.and 2 0 1)).find? (fun b => (s10.slot b).isNone) = some 1 := by decide

/-- The clause `Decodes` of the statements about commands: an engine with 4 slots has the slots these commands name. -/
theorem witness_Decodes :
    ([.create 3 1, .loadw 3 1 [7], .copy 3 3, .free 3, .vsize 3, .rdw 3 0, .getb 3 0, .setb 3 true 0, .tglb 3 0, .getr 3 0 0,
        .setr 3 true 0 0, .fill 3 true, .and 3 3 3, .or 3 3 3, .xor 3 3 3, .nand 3 3 3, .nor 3 3 3, .xnor 3 3 3,
        .diff 3 3 3, .not 3 3, .eq 3 3, .popc 3, .idxof 3 true 0, .lidxof 3 true 0, .tidx 3 0 0] : List Instr).all
      (Instr.wf 4) = true := by decide

/-- Sizes at both ends of the range and just outside; `Decodes` for a slot an engine has. -/
theorem witness_CreateMakesZeroVector :
    (Spells 1 1 ∧ LegalSize 1) ∧ (Spells 0x1FFFFFFF 536870911 ∧ LegalSize 536870911) ∧
      ¬(1 ≤ (0 : Word).toInt ∧ (0 : Word).toInt ≤ 536870911) ∧
      ¬(1 ≤ (0x20000000 : Word).toInt ∧ (0x20000000 : Word).toInt ≤ 536870911) ∧ (Instr.create 3 1).wf 4 = true := by
  unfold Spells LegalSize; decide

/-- A payload at the capacity, one word above it, an illegal size; a last word that is masked and one that is not. -/
theorem witness_LoadwMakesVectorOfWords :
    (Spells 33 33 ∧ LegalSize 33 ∧ ([1, 2] : List Word).length ≤ (33 + 31) / 32 ∧
      (33 + 31) / 32 < ([1, 2, 3] : List Word).length ∧ 0 + 1 < (33 + 31) / 32 ∧ 1 + 1 = (33 + 31) / 32 ∧ 33 % 32 ≠ 0) ∧
    (Spells 64 64 ∧ LegalSize 64 ∧ 1 + 1 = (64 + 31) / 32 ∧ 64 % 32 = 0) ∧
    ¬(1 ≤ (0 : Word).toInt ∧ (0 : Word).toInt ≤ 536870911) := by
  unfold Spells LegalSize; decide

/-- A valid slot, and an empty one. -/
theorem witness_CopyDuplicatesTheVector :
    s10.slot 0 = some v10 ∧ (∃ t, exec (.copy 1 0) s10 = .next t) ∧ s10.slot 1 = none := ⟨rfl, ⟨_, rfl⟩, rfl⟩

theorem witness_VsizeAnswersTheSize : s10.slot 0 = some v10 ∧ s10.slot 1 = none := by decide

/-- The last word, the first number above it, and -1. -/
theorem witness_RdwAnswersTheWord :
    s10.slot 0 = some v10 ∧ s10.slot 1 = none ∧ (Spells 0 0 ∧ 0 < (v10.size + 31) / 32) ∧
      Outside 1 ((v10.size + 31) / 32) ∧ Outside 0xFFFFFFFF ((v10.size + 31) / 32) := by
  unfold Spells Outside; decide

theorem witness_LogicalBitIsBitOfItsWord : (0 : Nat) < 32 ∧ (31 : Nat) < 32 := by decide

/-- The last index, the first above it, and -1: for `GETB`, `SETB` and `TGLB`. -/
theorem witness_GetbAnswersTheBit :
    s10.slot 0 = some v10 ∧ s10.slot 1 = none ∧ v10.wf = true ∧ (Spells 9 9 ∧ 9 < v10.size) ∧ Outside 10 v10.size ∧
      Outside 0xFFFFFFFF v10.size := by
  unfold Spells Outside; decide

theorem witness_SetbWritesOneBit :
    s10.slot 0 = some v10 ∧ s10.slot 1 = none ∧ v10.wf = true ∧ (Spells 0 0 ∧ 0 < v10.size) ∧ Outside 10 v10.size := by
  unfold Spells Outside; decide

theorem witness_GetbAfterSetb :
    s10.slot 0 = some v10 ∧ v10.wf = true ∧ 0 ≤ (9 : Word).toInt ∧ (9 : Word).toInt < v10.size := by decide

theorem witness_TglbInvertsOneBit :
    s10.slot 0 = some v10 ∧ s10.slot 1 = none ∧ v10.wf = true ∧ (Spells 5 5 ∧ 5 < v10.size) ∧ Outside 10 v10.size := by
  unfold Spells Outside; decide

theorem witness_TglbTwiceRestores :
    s10.slot 0 = some v10 ∧ v10.wf = true ∧ 0 ≤ (5 : Word).toInt ∧ (5 : Word).toInt < v10.size := by decide

/-- Each clause of the range check at its boundary, a range up to the last bit, and an empty range. -/
theorem witness_GetrDeliversTheRange :
    s10.slot 0 = some v10 ∧ s10.slot 1 = none ∧ v10.wf = true ∧ Outside 10 v10.size ∧
      (¬Outside 9 v10.size ∧ Outside 11 (v10.size + 1)) ∧
      (¬Outside 5 v10.size ∧ ¬Outside 6 (v10.size + 1) ∧ (v10.size : Int) < (5 : Word).toInt + (6 : Word).toInt) ∧
      (Spells 5 5 ∧ 5 < v10.size ∧ 5 + 5 ≤ v10.size) ∧ (Spells 9 9 ∧ Spells 0 0 ∧ 9 < v10.size ∧ 9 + 0 ≤ v10.size) := by
  unfold Spells Outside; decide

theorem witness_SetrWritesTheRange :
    s10.slot 0 = some v10 ∧ s10.slot 1 = none ∧ v10.wf = true ∧ Outside 10 v10.size ∧
      (¬Outside 0 v10.size ∧ Outside 11 (v10.size + 1)) ∧
      (¬Outside 1 v10.size ∧ ¬Outside 10 (v10.size + 1) ∧ (v10.size : Int) < (1 : Word).toInt + (10 : Word).toInt) ∧
      (Spells 0 0 ∧ Spells 10 10 ∧ 0 < v10.size ∧ 0 + 10 ≤ v10.size) := by
  unfold Spells Outside; decide

theorem witness_SetrEqualsSuccessiveSetb :
    s10.slot 0 = some v10 ∧ v10.wf = true ∧ Spells 4 4 ∧ Spells 6 6 ∧ 4 < v10.size ∧ 4 + 6 ≤ v10.size := by
  unfold Spells; decide

/-- An index below the size and one above it. -/
theorem witness_FillSetsEveryBit :
    s10.slot 0 = some v10 ∧ s10.slot 1 = none ∧ v10.wf = true ∧ decide (9 < v10.size) = true ∧
      decide (10 < v10.size) = false := by decide

/-- Equal sizes, different sizes, the left slot empty and the right slot empty. -/
theorem witness_BinaryCommandsCombineBits :
    (binaryCommands.map fun c => c.2.1) = [0x20, 0x21, 0x22, 0x23, 0x24, 0x25, 0x26] ∧
      v40.slot 0 = some (vectorOfWords 40 [0x12345678, 0xAB]) ∧ v40.slot 1 = some (vectorOfWords 40 [0x0F0F0F0F, 0x3C]) ∧
      (vectorOfWords 40 [0x12345678, 0xAB]).wf = true ∧ v40.slot 2 = none ∧
      (with01 33 [] 40 []).slot 0 = some (zeroVector 33) ∧ (with01 33 [] 40 []).slot 1 = some (zeroVector 40) := by decide

theorem witness_NotComplementsBits : s10.slot 0 = some v10 ∧ s10.slot 1 = none ∧ v10.wf = true ∧ 9 < v10.size := by decide

/-- Equal vectors, vectors that differ in one bit, vectors of different sizes. -/
theorem witness_EqComparesVectors :
    s10.slot 0 = some v10 ∧ s10.slot 1 = none ∧ v10.wf = true ∧
      (v10.size = v10.size ∧ ∀ i, i < v10.size → v10.bit i = v10.bit i) ∧
      ((vectorOfWords 10 [0x21]).wf = true ∧ 9 < v10.size ∧ v10.bit 9 ≠ (vectorOfWords 10 [0x21]).bit 9) ∧
      ((zeroVector 33).wf = true ∧ v10.size ≠ (zeroVector 33).size) :=
  ⟨rfl, rfl, by decide, ⟨rfl, fun _ _ => rfl⟩, by decide, by decide⟩

theorem witness_SetAlgebraLaws :
    v40.slot 0 = some (vectorOfWords 40 [0x12345678, 0xAB]) ∧ v40.slot 1 = some (vectorOfWords 40 [0x0F0F0F0F, 0x3C]) ∧
      (vectorOfWords 40 [0x12345678, 0xAB]).wf = true ∧ (vectorOfWords 40 [0x0F0F0F0F, 0x3C]).wf = true ∧
      (2 : Slot) ≠ 3 ∧ (2 : Slot) ≠ 0 ∧ (2 : Slot) ≠ 1 ∧ (3 : Slot) ≠ 0 ∧ (3 : Slot) ≠ 1 := by decide

theorem witness_PopcCountsLogicalBits : s10.slot 0 = some v10 ∧ s10.slot 1 = none ∧ v10.wf = true := by decide

theorem witness_LeadingZeroFormulas : (0x220 : Word) ≠ 0 := by decide

/-- A hit at the last bit from the offset -1, and no hit from an index above the size. -/
theorem witness_IdxofFindsLeastIndex :
    s10.slot 0 = some v10 ∧ s10.slot 1 = none ∧ v10.wf = true ∧
      (9 < v10.size ∧ adjustedStart v10.size 0xFFFFFFFF ≤ (9 : Nat) ∧ v10.bit 9 = true ∧
        ∀ j, j < 9 → adjustedStart v10.size 0xFFFFFFFF ≤ (j : Nat) → v10.bit j ≠ true) ∧
      ∀ i, i < v10.size → adjustedStart v10.size 10 ≤ (i : Nat) → v10.bit i ≠ true := by
  refine ⟨by decide, by decide, by decide, ⟨by decide, by decide, by decide, ?_⟩, ?_⟩
  · intro j hj h
    have : adjustedStart v10.size 0xFFFFFFFF = 9 := by decide
    omega
  · intro i hi h
    have : adjustedStart v10.size 10 = 10 := by decide
    have : v10.size = 10 := by decide
    omega

/-- The bound 0 (index 0 alone), a hit below the bound 9, and no hit below the bound 1 for false. -/
theorem witness_LidxofFindsGreatestIndex :
    s10.slot 0 = some v10 ∧ s10.slot 1 = none ∧ v10.wf = true ∧ adjustedBound v10.size 0 ≤ 0 ∧
      (1 ≤ adjustedBound v10.size 9 ∧ ((5 : Nat) : Int) < adjustedBound v10.size 9 ∧ v10.bit 5 = true ∧
        ∀ j : Nat, 5 < j → j < adjustedBound v10.size 9 → v10.bit j ≠ true) ∧
      (1 ≤ adjustedBound v10.size 1 ∧ ∀ i : Nat, i < adjustedBound v10.size 1 → v10.bit i ≠ false) := by
  have h9 : adjustedBound v10.size 9 = 9 := by decide
  have h1 : adjustedBound v10.size 1 = 1 := by decide
  rw [h9, h1]
  refine ⟨by decide, by decide, by decide, by decide, ⟨by decide, by decide, by decide, ?_⟩, by decide, ?_⟩
  · intro j h5 hj
    have hj : j < 9 := by omega
    have : ∀ j : Nat, j < 9 → 5 < j → v10.bit j ≠ true := by decide
    exact this j hj h5
  · intro i hi
    obtain rfl : i = 0 := by omega
    decide

theorem witness_FlsQuirkIsBoundOne : s10.slot 0 = some v10 ∧ v10.wf = true := by decide

/-- Each check at its boundary, the whole vector, and an empty interval. -/
theorem witness_TidxEnumeratesSetIndices :
    s10.slot 0 = some v10 ∧ s10.slot 1 = none ∧ Outside 10 v10.size ∧ (¬Outside 9 v10.size ∧ Outside 11 (v10.size + 1)) ∧
      (Spells 0 0 ∧ Spells 10 10 ∧ 0 < v10.size ∧ 10 ≤ v10.size) ∧ (Spells 6 6 ∧ Spells 3 3 ∧ 6 < v10.size ∧ 3 ≤ v10.size) := by
  unfold Spells Outside; decide

theorem witness_TidxWordWalkIsTheDefinition : v10.wf = true ∧ 0 < 10 ∧ 10 ≤ v10.size := by decide

/-- Indices inside the vector, and a list with one outside it. -/
theorem witness_FromIndicesBuildsOrFrees :
    Spells 8 8 ∧ LegalSize 8 ∧ (∀ w ∈ ([3, 7, 0] : List Word), ¬Outside w 8) ∧ ∃ w ∈ ([3, 8, 1] : List Word), Outside w 8 := by
  have h3 : ¬Outside 3 8 := by unfold Outside; decide
  have h7 : ¬Outside 7 8 := by unfold Outside; decide
  have h0 : ¬Outside 0 8 := by unfold Outside; decide
  have h8 : Outside 8 8 := by unfold Outside; decide
  exact ⟨by unfold Spells; decide, by unfold LegalSize; decide, by simp; exact ⟨h3, h7, h0⟩, 8, by simp, h8⟩

theorem witness_SerialisedBitLandsInItsByte : 9 < v10.size := by decide

end Sys2Proof.Tests
end

section
/-! The state after reset, part by part of the invariant (R5, R25, R38). -/

namespace Sys2Proof.Machine

/-- `CFG` has five bits for `NSLOT`, and 16 fits (R33). -/
theorem State.resetWith_nslot {n : Nat} (hn : n ≤ 16) : (State.resetWith n).nslot = n := by
  have hmod : n % 4294967296 % 32 = n := by omega
  simpa [State.nslot, State.resetWith] using hmod

theorem State.resetWith_configWf {n : Nat} (h1 : 1 ≤ n) (hn : n ≤ 16) : (State.resetWith n).configWf = true := by
  have hcfg : (State.resetWith n).cfg = BitVec.ofNat 32 n := rfl
  have hmaxsz : (State.resetWith n).maxsz = BitVec.ofNat 32 Config.maxSafeSize := rfl
  simp [State.configWf, State.resetWith_nslot hn, hcfg, hmaxsz, h1, hn]

/-- Every slot is empty, so no vector can break R22 to R25. -/
theorem State.resetWith_slotsWf (n : Nat) : (State.resetWith n).slotsWf = true := by
  rw [State.slotsWf_iff]
  intro a v hv
  rw [State.resetWith_slot] at hv
  contradiction

/-- `STATUS`, `ERRVAL` and `ERRLIM` are 0 after reset: the response of a success. -/
theorem State.resetWith_responseWf (n : Nat) : (State.resetWith n).responseWf = true := rfl

theorem State.resetWith_wf {n : Nat} (h1 : 1 ≤ n) (hn : n ≤ 16) : (State.resetWith n).wf = true := by
  simp only [State.wf, State.resetWith_configWf h1 hn, State.resetWith_slotsWf, State.resetWith_responseWf, Bool.and_self]

end Sys2Proof.Machine

namespace Sys2Proof.Proofs
open Sys2Proof.Machine

/-- Settles O16: each of the three parts of the invariant holds of the reset table, and the default `NSLOT` is 4. -/
theorem resetIsWellFormed : Obligations.ResetIsWellFormed := by
  unfold Obligations.ResetIsWellFormed
  refine ⟨fun n h1 hn => ⟨State.resetWith_wf h1 hn, State.resetWith_nslot hn⟩, ?_⟩
  rw [State.reset, Config.nslot]

end Sys2Proof.Proofs
end

section
/-! What a command can leave, said once for all 25: its end state, the slot it may write, what stands beside slots and
response, and that its checks read the slots alone. -/

namespace Sys2Proof.Machine

/-! ### The end of a command -/

/-- Everything a command that completes can have done: it raised an error of a legal command, or it answered, or it wrote its
destination, with a well-formed vector when the slots hold such. -/
theorem exec_cases {i : Instr} {s t : State} (h : exec i s = .next t) :
    (∃ f, f.cause.ofCommand ∧ t = s.raise f) ∨ (∃ res beats, t = s.respond res beats) ∨
      ∃ d v res beats, destination i = some d ∧ t = (s.setSlot d v).respond res beats ∧
        ((∀ a u, s.slot a = some u → u.wf = true) → ∀ u, v = some u → u.wf = true) := by
  obtain ⟨r, hr, hcause, hupdate⟩ := exec_result i s
  rw [hr] at h
  obtain ⟨f, hf, rfl⟩ | ⟨e, he, rfl⟩ := State.finish_cases h
  · exact .inl ⟨f, hcause f hf, rfl⟩
  · obtain hnone | ⟨d, v, hd, hsome, hwf⟩ := hupdate e he
    · exact .inr (.inl ⟨e.res, e.beats, by rw [hnone, State.applyUpdate_none]⟩)
    · exact .inr (.inr ⟨d, v, e.res, e.beats, hd, by rw [hsome, State.applyUpdate_some], hwf⟩)

/-! ### What a command leaves beside slots and response -/

theorem State.raise_sameBeside (s : State) (f : Failure) : s.SameBeside (s.raise f) :=
  ⟨rfl, rfl, rfl, rfl, rfl, rfl, rfl, rfl⟩

theorem State.respond_sameBeside (s : State) (res : Word) (beats : List Word) : s.SameBeside (s.respond res beats) :=
  ⟨rfl, rfl, rfl, rfl, rfl, rfl, rfl, rfl⟩

theorem State.setSlot_respond_sameBeside (s : State) (d : Slot) (v : Option PackedVector) (res : Word)
    (beats : List Word) : s.SameBeside ((s.setSlot d v).respond res beats) :=
  ⟨rfl, rfl, rfl, rfl, rfl, rfl, rfl, rfl⟩

theorem exec_sameBeside {i : Instr} {s t : State} (h : exec i s = .next t) : s.SameBeside t := by
  obtain ⟨f, -, rfl⟩ | ⟨res, beats, rfl⟩ | ⟨d, v, res, beats, -, rfl, -⟩ := exec_cases h
  · exact s.raise_sameBeside f
  · exact s.respond_sameBeside res beats
  · exact s.setSlot_respond_sameBeside d v res beats

/-- A slot that is not the destination keeps its vector (R26). -/
theorem exec_slot_of_ne_destination {i : Instr} {s t : State} (h : exec i s = .next t) {a : Slot}
    (ha : destination i ≠ some a) : t.slot a = s.slot a := by
  obtain ⟨f, -, rfl⟩ | ⟨res, beats, rfl⟩ | ⟨d, v, res, beats, hd, rfl, -⟩ := exec_cases h
  · exact s.raise_slot f a
  · exact s.respond_slot res beats a
  · have hne : a ≠ d := by rintro rfl; exact ha hd
    rw [State.respond_slot, State.setSlot_slot_of_ne s d a v hne]

/-! ### The checks of a command read the slots alone -/

/-- A sequence of checks that sees the slots and nothing else of the state. -/
def ReadsSlotsOnly (c : State → Except Failure Effect) : Prop :=
  ∀ s₁ s₂ : State, s₁.slots = s₂.slots → c s₁ = c s₂

theorem requireSlot_congr {s₁ s₂ : State} (h : s₁.slots = s₂.slots) (a : Slot) : requireSlot s₁ a = requireSlot s₂ a := by
  unfold requireSlot State.slot
  rw [h]

theorem ReadsSlotsOnly.const (r : Except Failure Effect) : ReadsSlotsOnly fun _ => r := fun _ _ _ => rfl

theorem ReadsSlotsOnly.slot {a : Slot} {g : PackedVector → State → Except Failure Effect}
    (hg : ∀ v, ReadsSlotsOnly (g v)) : ReadsSlotsOnly fun s => requireSlot s a >>= fun v => g v s := by
  intro s₁ s₂ h
  have hrest : (fun v => g v s₁) = fun v => g v s₂ := funext fun v => hg v s₁ s₂ h
  simp only [requireSlot_congr h a, hrest]

/-- Every command is the end of checks that read the slots alone, with at most two slot checks among them (R211). -/
theorem exec_readsSlotsOnly (i : Instr) : ∃ c, (∀ s, exec i s = s.finish (c s)) ∧ ReadsSlotsOnly c := by
  cases i with
  | free vd => exact ⟨fun _ => .ok { update := some (vd, none) }, fun _ => rfl, .const _⟩
  | create _ _ | loadw _ _ _ => exact ⟨_, fun _ => rfl, .const _⟩
  | copy _ _ | vsize _ | rdw _ _ | getb _ _ | setb _ _ _ | tglb _ _ | getr _ _ _ | setr _ _ _ _ | fill _ _ | not _ _
  | popc _ | idxof _ _ _ | lidxof _ _ _ | tidx _ _ _ => exact ⟨_, fun _ => rfl, .slot fun _ => .const _⟩
  | and _ _ _ | or _ _ _ | xor _ _ _ | nand _ _ _ | nor _ _ _ | xnor _ _ _ | diff _ _ _ | eq _ _ =>
    exact ⟨_, fun _ => rfl, .slot fun _ => .slot fun _ => .const _⟩

/-- One update of equal slots gives equal slots. -/
theorem State.applyUpdate_slots_congr {s₁ s₂ : State} (h : s₁.slots = s₂.slots) (u : Option (Slot × Option PackedVector)) :
    (s₁.applyUpdate u).slots = (s₂.applyUpdate u).slots := by
  cases u with
  | none => exact h
  | some dv =>
    obtain ⟨d, v⟩ := dv
    simp only [State.applyUpdate_some, State.setSlot_slots, h]

end Sys2Proof.Machine
end

section
/-! The port: what each action of the host leads to, and what one step can have done. -/

namespace Sys2Proof.Machine

/-! ### One step -/

theorem step_of_inbox_nil {s : State} (h : s.inbox = []) : step s = .next s := by
  unfold step serveInbox
  rw [h]

theorem step_of_inbox_cons {s : State} {e : HostEvent} {rest : List HostEvent} (h : s.inbox = e :: rest) :
    step s = hostEvent e { s with inbox := rest } := by
  unfold step serveInbox
  rw [h]

/-! ### Host reads and writes (R37) -/

theorem hostWrite_cmd (w : Word) (s : State) : hostWrite .cmd w s = presentPacket ⟨w, s.arg0, s.arg1, s.payload⟩ s := rfl

/-- A write of a register other than `CMD` stages its word in `ARG0`, `ARG1` or `PAYLOAD`, or does nothing. -/
theorem hostWrite_of_ne_cmd {r : HostReg} (hr : r ≠ .cmd) (w : Word) (s : State) :
    hostWrite r w s = .next { s with
      arg0 := if r = .arg0 then w else s.arg0
      arg1 := if r = .arg1 then w else s.arg1
      payload := if r = .payload then s.payload ++ [w] else s.payload } := by
  cases r with
  | cmd => exact absurd rfl hr
  | arg0 | arg1 | payload => rfl
  | status | res | errval | errlim | cfg | maxsz | out => rfl

/-- The registers a read returns, with their words in a state; `OUT` is a stream and is read by `readOut`. -/
def State.readable (s : State) : List (HostReg × Word) :=
  [(.status, s.status), (.res, s.res), (.errval, s.errval), (.errlim, s.errlim), (.cfg, s.cfg), (.maxsz, s.maxsz)]

theorem hostRead_of_mem_readable {s : State} {r : HostReg} {w : Word} (h : (r, w) ∈ s.readable) :
    r ≠ .out ∧ hostRead r s = { s with rdata := w } := by
  simp only [State.readable, List.mem_cons, Prod.mk.injEq, List.not_mem_nil, or_false] at h
  obtain ⟨rfl, rfl⟩ | ⟨rfl, rfl⟩ | ⟨rfl, rfl⟩ | ⟨rfl, rfl⟩ | ⟨rfl, rfl⟩ | ⟨rfl, rfl⟩ := h <;> exact ⟨by decide, rfl⟩

/-- Reading `OUT` with a beat pending returns the oldest and takes it. -/
theorem hostRead_out_of_cons {s : State} {b : Word} {bs : List Word} (h : s.out = b :: bs) :
    hostRead .out s = { s with rdata := b, out := bs } := by
  simp only [hostRead, State.readOut, h]

theorem hostRead_out_of_nil {s : State} (h : s.out = []) : hostRead .out s = s.readUnspecified := by
  simp only [hostRead, State.readOut, h]

theorem hostRead_of_writeOnly {r : HostReg} (h : r ∈ [HostReg.cmd, .arg0, .arg1, .payload]) (s : State) :
    hostRead r s = s.readUnspecified := by
  simp only [List.mem_cons, List.not_mem_nil, or_false] at h
  obtain rfl | rfl | rfl | rfl := h <;> rfl

/-- A read changes the model's own `rdata` and counter, and of the engine at most `OUT`: it may take a beat. -/
theorem hostRead_frame (r : HostReg) (s : State) :
    ∃ w n beats, hostRead r s = { s with rdata := w, freeCount := n, out := beats } ∧ (s.out = [] → beats = []) := by
  cases r with
  | status | res | errval | errlim | cfg | maxsz => exact ⟨_, s.freeCount, s.out, rfl, id⟩
  | cmd | arg0 | arg1 | payload => exact ⟨_, s.freeCount + 1, s.out, rfl, id⟩
  | out =>
    cases hout : s.out with
    | nil => exact ⟨_, s.freeCount + 1, s.out, hostRead_out_of_nil hout, fun _ => hout⟩
    | cons b bs => exact ⟨b, s.freeCount, bs, hostRead_out_of_cons hout, fun h => by simp at h⟩

/-! ### Presenting a packet -/

theorem State.fetch_eq_command {s : State} {p : Packet} {i : Instr} (h : s.fetch p = .command i) :
    decode s.nslot p = .ok i := by
  unfold State.fetch at h
  split at h
  · next hd => rw [hd, Presented.command.inj h]
  all_goals exact absurd h (by simp)

/-- A presented packet with a next state ran the command it decodes to, or raised `IllegalCommand` (R205, R210). -/
theorem presentPacket_cases {p : Packet} {s t : State} (h : presentPacket p s = .next t) :
    (∃ i, decode s.nslot p = .ok i ∧ exec i s.consumePayload = .next t) ∨
      t = s.consumePayload.raise (illegalCommand p) := by
  unfold presentPacket at h
  split at h
  · next i hi => exact .inl ⟨i, State.fetch_eq_command hi, h⟩
  · exact .inr (Host.Outcome.next.inj h).symm
  · exact absurd h (by simp)

/-! ### What an action of the host can do -/

/-- The next states an action of the host at the port can lead to; `hostEvent_portStep` ties it to the port. -/
inductive PortStep (s : State) : State → Prop where
  /-- A packet was presented, whole or by writing `CMD`, and its command ran. -/
  | command {p : Packet} {i : Instr} {t : State} (decoded : decode s.nslot p = .ok i)
      (ran : exec i s.consumePayload = .next t) : PortStep s t
  /-- An illegal packet was presented. -/
  | illegal (p : Packet) : PortStep s (s.consumePayload.raise (illegalCommand p))
  /-- A register other than `CMD` was written. -/
  | staged (arg0 arg1 : Word) (beats : List Word) : PortStep s { s with arg0 := arg0, arg1 := arg1, payload := beats }
  /-- A register was read. -/
  | read (r : HostReg) : PortStep s (hostRead r s)
  /-- Reset was applied. -/
  | reset : PortStep s s.applyReset

theorem presentPacket_portStep {p : Packet} {s t : State} (h : presentPacket p s = .next t) : PortStep s t := by
  obtain ⟨i, hd, he⟩ | rfl := presentPacket_cases h
  · exact .command hd he
  · exact .illegal p

theorem hostEvent_portStep {e : HostEvent} {s t : State} (h : hostEvent e s = .next t) : PortStep s t := by
  cases e with
  | present p => exact presentPacket_portStep h
  | write r w =>
    by_cases hr : r = .cmd
    · subst hr
      exact presentPacket_portStep h
    · obtain rfl := Host.Outcome.next.inj ((hostWrite_of_ne_cmd hr w s).symm.trans h)
      exact .staged _ _ _
  | read r =>
    obtain rfl := Host.Outcome.next.inj h
    exact .read r
  | reset =>
    obtain rfl := Host.Outcome.next.inj h
    exact .reset

/-- A step idles, or takes the host's oldest action. -/
theorem step_cases {s t : State} (h : step s = .next t) : t = s ∨ ∃ rest, PortStep { s with inbox := rest } t := by
  cases hin : s.inbox with
  | nil =>
    rw [step_of_inbox_nil hin] at h
    exact .inl (Host.Outcome.next.inj h).symm
  | cons e rest =>
    rw [step_of_inbox_cons hin] at h
    exact .inr ⟨rest, hostEvent_portStep h⟩

end Sys2Proof.Machine
end

section
/-! The constants `CFG` and `MAXSZ` under every action (R33), and that every action keeps the invariant. -/

namespace Sys2Proof.Machine

/-! ### The constants -/

theorem PortStep.keeps_constants {s t : State} (h : PortStep s t) : t.cfg = s.cfg ∧ t.maxsz = s.maxsz := by
  cases h with
  | command _ ran =>
    obtain ⟨hcfg, hmaxsz, -⟩ := exec_sameBeside ran
    exact ⟨hcfg, hmaxsz⟩
  | illegal p => exact ⟨rfl, rfl⟩
  | staged _ _ _ => exact ⟨rfl, rfl⟩
  | read r =>
    obtain ⟨w, n, beats, heq, -⟩ := hostRead_frame r s
    rw [heq]
    exact ⟨rfl, rfl⟩
  | reset => exact ⟨rfl, rfl⟩

/-! ### The destination of a decoded command names a slot (R76 condition 4, R77) -/

/-- Every row of the opcode map builds a command whose destination is its live `VD`, if it has one (R72, R75). -/
theorem destination_build (p : Packet) : ∀ r ∈ opcodeTable,
    destination (r.build p) = if r.format.usesVD then some (fieldVD p.cmd) else none := by
  simp [opcodeTable, lifecycleRows, bitRangeRows, bitwiseRows, searchRows, destination, Format.usesVD]

theorem fieldVD_lt_of_not_slotNumberBad {n : Nat} {f : Format} {w : Word} (h : slotNumberBad n f w = false)
    (hf : f.usesVD = true) : (fieldVD w).val < n := by
  simp only [slotNumberBad, Slot.ok, hf, Bool.true_and, Bool.or_eq_false_iff, Bool.not_eq_false',
    decide_eq_true_eq] at h
  obtain ⟨⟨hvd, -⟩, -⟩ := h
  exact hvd

theorem destination_lt_of_decode {n : Nat} {p : Packet} {i : Instr} (h : decode n p = .ok i) {d : Slot}
    (hd : destination i = some d) : d.val < n := by
  obtain ⟨-, r, hrow, -, hslots, -, -, rfl⟩ := decode_eq_ok h
  rw [destination_build p r (List.mem_of_find?_eq_some hrow)] at hd
  split at hd
  · next hf =>
    obtain rfl := Option.some.inj hd
    exact fieldVD_lt_of_not_slotNumberBad hslots hf
  · contradiction

/-! ### The invariant under the operations of the state -/

theorem State.wf_iff (s : State) : s.wf = true ↔ s.configWf = true ∧ s.slotsWf = true ∧ s.responseWf = true := by
  simp only [State.wf, Bool.and_eq_true, and_assoc]

/-- The response registers of a success meet the invariant with any result and beats (R206). -/
theorem State.respond_wf {s : State} (h : s.wf = true) (res : Word) (beats : List Word) :
    (s.respond res beats).wf = true := by
  obtain ⟨hconfig, hslots, -⟩ := s.wf_iff.1 h
  refine (State.wf_iff _).2 ⟨hconfig, hslots, ?_⟩
  rw [State.responseWf_iff]
  exact ⟨by simp [statusValues], fun _ => ⟨rfl, rfl⟩, fun hne => absurd rfl hne⟩

/-- The response registers of an error meet the invariant when the engine can write its `STATUS` (R207). -/
theorem State.raise_wf {s : State} (h : s.wf = true) {f : Failure} (hf : statusWord f.cause ∈ statusValues) :
    (s.raise f).wf = true := by
  obtain ⟨hconfig, hslots, -⟩ := s.wf_iff.1 h
  refine (State.wf_iff _).2 ⟨hconfig, hslots, ?_⟩
  rw [State.responseWf_iff]
  exact ⟨hf, fun hz => absurd hz (statusWord_ne_zero f.cause), fun _ => ⟨rfl, rfl⟩⟩

/-- Writing a slot below `NSLOT` keeps the invariant when what is written is empty or well formed (R26). -/
theorem State.setSlot_wf {s : State} (h : s.wf = true) {d : Slot} (hd : d.val < s.nslot) {v : Option PackedVector}
    (hv : ∀ u, v = some u → u.wf = true) : (s.setSlot d v).wf = true := by
  obtain ⟨hconfig, hslots, hresponse⟩ := s.wf_iff.1 h
  refine (State.wf_iff _).2 ⟨hconfig, ?_, hresponse⟩
  rw [State.slotsWf_iff] at hslots ⊢
  intro a u hu
  rw [State.setSlot_nslot]
  by_cases had : a = d
  · subst had
    rw [State.setSlot_slot_self] at hu
    exact ⟨hv u hu, hd⟩
  · rw [State.setSlot_slot_of_ne s d a v had] at hu
    exact hslots a u hu

theorem State.applyReset_wf {s : State} (h : s.wf = true) : s.applyReset.wf = true := by
  obtain ⟨hconfig, -, -⟩ := s.wf_iff.1 h
  refine (State.wf_iff _).2 ⟨hconfig, ?_, rfl⟩
  rw [State.slotsWf_iff]
  intro a v hv
  rw [State.applyReset_slot] at hv
  contradiction

/-- A beat taken from `OUT` leaves a response that the invariant allows: after an error there was none to take. -/
theorem hostRead_wf {s : State} (h : s.wf = true) (r : HostReg) : (hostRead r s).wf = true := by
  obtain ⟨hconfig, hslots, hresponse⟩ := s.wf_iff.1 h
  obtain ⟨w, n, beats, heq, hbeats⟩ := hostRead_frame r s
  rw [heq]
  refine (State.wf_iff _).2 ⟨hconfig, hslots, ?_⟩
  rw [State.responseWf_iff] at hresponse ⊢
  obtain ⟨hstatus, hsuccess, herror⟩ := hresponse
  refine ⟨hstatus, hsuccess, fun hne => ?_⟩
  obtain ⟨hres, hout⟩ := herror hne
  exact ⟨hres, hbeats hout⟩

theorem statusWord_mem_of_ofCommand {c : Cause} (h : c.ofCommand) : statusWord c ∈ statusValues := by
  obtain rfl | rfl | rfl | rfl | rfl | rfl := h <;> decide

/-! ### The invariant under commands and actions -/

/-- A command keeps the invariant when its destination names a slot (R77, R106, R206, R207). -/
theorem exec_keeps_wf {i : Instr} {s t : State} (hs : s.wf = true) (hd : ∀ d, destination i = some d → d.val < s.nslot)
    (h : exec i s = .next t) : t.wf = true := by
  obtain ⟨f, hf, rfl⟩ | ⟨res, beats, rfl⟩ | ⟨d, v, res, beats, hdest, rfl, hv⟩ := exec_cases h
  · exact State.raise_wf hs (statusWord_mem_of_ofCommand hf)
  · exact State.respond_wf hs res beats
  · obtain ⟨-, hslots, -⟩ := s.wf_iff.1 hs
    have hvectors : ∀ a u, s.slot a = some u → u.wf = true := fun a u hu => ((State.slotsWf_iff s).1 hslots a u hu).1
    exact State.respond_wf (State.setSlot_wf hs (hd d hdest) (hv hvectors)) res beats

/-- Every action of the host keeps the invariant. -/
theorem PortStep.keeps_wf {s t : State} (h : PortStep s t) (hs : s.wf = true) : t.wf = true := by
  have hconsumed : s.consumePayload.wf = true := hs
  cases h with
  | command decoded ran =>
    exact exec_keeps_wf hconsumed (fun _ hd => destination_lt_of_decode decoded hd) ran
  | illegal p => exact State.raise_wf hconsumed (show statusWord .illegalCommand ∈ statusValues by decide)
  | staged _ _ _ => exact hs
  | read r => exact hostRead_wf hs r
  | reset => exact State.applyReset_wf hs

end Sys2Proof.Machine
end

section
/-! The statements about the state, the port and what every step keeps. -/

namespace Sys2Proof.Proofs
open Sys2Proof.Machine

/-- Settles O15: a step idles or is an action at the port, and each kind of action keeps the invariant. -/
theorem stepKeepsWellFormed : Obligations.StepKeepsWellFormed := by
  unfold Obligations.StepKeepsWellFormed
  intro s t hs h
  obtain rfl | ⟨rest, hport⟩ := step_cases h
  · exact hs
  · exact hport.keeps_wf hs

/-- Settles O17: no action at the port changes the constants. -/
theorem stepKeepsConfiguration : Obligations.StepKeepsConfiguration := by
  unfold Obligations.StepKeepsConfiguration
  intro s t h
  obtain rfl | ⟨rest, hport⟩ := step_cases h
  · exact ⟨rfl, rfl⟩
  · exact hport.keeps_constants

/-- Settles O18, from the inversion of all commands. -/
theorem commandChangesOnlyItsDestination : Obligations.CommandChangesOnlyItsDestination := by
  unfold Obligations.CommandChangesOnlyItsDestination
  intro i s t h
  exact ⟨fun _ he => exec_slot_of_ne_destination h he, exec_sameBeside h⟩

/-- Settles O20: the checks of both runs are the same value, so both end with the same error or the same effect. -/
theorem commandReadsSlotsOnly : Obligations.CommandReadsSlotsOnly := by
  unfold Obligations.CommandReadsSlotsOnly
  intro i s₁ s₂ t₁ t₂ hslots h₁ h₂
  obtain ⟨c, hexec, hreads⟩ := exec_readsSlotsOnly i
  rw [hexec, hreads s₁ s₂ hslots] at h₁
  rw [hexec] at h₂
  cases hc : c s₂ with
  | error f =>
    rw [hc, State.finish_error] at h₁ h₂
    obtain rfl := Host.Outcome.next.inj h₁
    obtain rfl := Host.Outcome.next.inj h₂
    exact ⟨hslots, rfl, rfl, rfl, rfl, rfl⟩
  | ok e =>
    rw [hc, State.finish_ok] at h₁ h₂
    obtain rfl := Host.Outcome.next.inj h₁
    obtain rfl := Host.Outcome.next.inj h₂
    exact ⟨State.applyUpdate_slots_congr hslots e.update, rfl, rfl, rfl, rfl, rfl⟩

/-- Settles O8: both steps take the action, and a write of `CMD` presents the staged packet. -/
theorem writingCmdPresentsTheStagedPacket : Obligations.WritingCmdPresentsTheStagedPacket := by
  unfold Obligations.WritingCmdPresentsTheStagedPacket
  intro s w rest
  rw [step_of_inbox_cons rfl, step_of_inbox_cons rfl]
  exact hostWrite_cmd w { s with inbox := rest }

/-- Settles O9. -/
theorem hostWritesStageOrDoNothing : Obligations.HostWritesStageOrDoNothing := by
  unfold Obligations.HostWritesStageOrDoNothing
  intro s r w rest hin hr
  rw [step_of_inbox_cons hin]
  exact hostWrite_of_ne_cmd hr w { s with inbox := rest }

/-- Settles O10: a register is read whole, `OUT` beat by beat. -/
theorem hostReadsReturnTheRegister : Obligations.HostReadsReturnTheRegister := by
  unfold Obligations.HostReadsReturnTheRegister
  intro s rest r w hin hread
  rw [step_of_inbox_cons hin]
  obtain hmem | ⟨rfl, hhead⟩ := hread
  · obtain ⟨hne, heq⟩ := hostRead_of_mem_readable (s := { s with inbox := rest }) hmem
    rw [if_neg hne]
    exact congrArg Host.Outcome.next heq
  · obtain ⟨beats, hout⟩ := List.head?_eq_some_iff.1 hhead
    have htail : s.out.tail = beats := by rw [hout, List.tail_cons]
    rw [if_pos rfl, htail]
    exact congrArg Host.Outcome.next (hostRead_out_of_cons (s := { s with inbox := rest }) hout)

/-- Settles O11: in both cases the read is the unspecified one, which writes the model's own `rdata` and counter alone. -/
theorem unspecifiedReadChangesNoEngineState : Obligations.UnspecifiedReadChangesNoEngineState := by
  unfold Obligations.UnspecifiedReadChangesNoEngineState
  intro s rest r hin hread
  have hunspecified : hostRead r { s with inbox := rest } = State.readUnspecified { s with inbox := rest } := by
    obtain hmem | ⟨rfl, hout⟩ := hread
    · exact hostRead_of_writeOnly hmem _
    · exact hostRead_out_of_nil hout
  refine ⟨_, step_of_inbox_cons hin, ?_⟩
  rw [hunspecified]
  rfl

/-- Settles O14: `CFG` holds `NSLOT` alone because 16 is below 32; every other row is the table's literal. -/
theorem resetStateIsTheResetTable : Obligations.ResetStateIsTheResetTable := by
  unfold Obligations.ResetStateIsTheResetTable
  intro n _ hn
  have hcfg : (State.resetWith n).cfg.toNat = n := by
    simp only [State.resetWith, BitVec.toNat_ofNat]
    omega
  refine ⟨State.resetWith_slot n, rfl, rfl, rfl, rfl, ?_, ?_, rfl, rfl, rfl⟩
  · rw [hcfg]; omega
  · rw [hcfg]; omega

end Sys2Proof.Proofs
end

section
/-! The addressing law of one bit, and the bytes of a serialised vector (R51, R60). -/

namespace Sys2Proof.Machine

/-- Shifting a word down and masking with 1 answers one of its bits as a word (R9, R121). -/
theorem boolWord_getLsbD (w : Word) (b : Nat) : boolWord (w.getLsbD b) = (w >>> b) &&& 1 := by
  have hbit : (w >>> b).getLsbD 0 = w.getLsbD b := by rw [BitVec.getLsbD_ushiftRight, Nat.add_zero]
  rw [show (1 : Word) = 1#32 from rfl, BitVec.and_one_eq_setWidth_ofBool_getLsbD, hbit]
  cases w.getLsbD b <;> rfl

@[simp] theorem wordBytes_length (w : Word) : (wordBytes w).length = 4 := rfl

/-- Byte `j` of a word is its bits `8j+7 .. 8j` (20_memory.md R60). -/
theorem wordBytes_getElem? (w : Word) {j : Nat} (hj : j < 4) : (wordBytes w)[j]? = some (w.extractLsb' (8 * j) 8) := by
  match j, hj with
  | 0, _ | 1, _ | 2, _ | 3, _ => rfl

/-- Pieces of one length `m` laid end to end: place `m * k + j` is place `j` of piece `k`. -/
theorem getElem?_flatMap_of_length {α β : Type} {f : α → List β} {m : Nat} (hf : ∀ a, (f a).length = m) {j : Nat}
    (hj : j < m) (l : List α) (k : Nat) : (l.flatMap f)[m * k + j]? = l[k]?.bind fun a => (f a)[j]? := by
  induction l generalizing k with
  | nil => simp
  | cons a l ih =>
    rw [List.flatMap_cons]
    cases k with
    | zero => rw [Nat.mul_zero, Nat.zero_add, List.getElem?_append_left (by rw [hf]; exact hj)]; rfl
    | succ k =>
      have hplace : m * (k + 1) + j - m = m * k + j := by rw [Nat.mul_succ]; omega
      have hbeyond : (f a).length ≤ m * (k + 1) + j := by rw [hf, Nat.mul_succ]; omega
      rw [List.getElem?_append_right hbeyond, hf, hplace, ih, List.getElem?_cons_succ]

/-- Byte `4k + j` of the serialised buffer is byte `j` of word `k` (20_memory.md R60). -/
theorem PackedVector.bytes_getD (v : PackedVector) {k j : Nat} (hk : k < v.wordCount) (hj : j < 4) :
    v.bytes.getD (4 * k + j) 0 = (v.memRead k).extractLsb' (8 * j) 8 := by
  unfold PackedVector.bytes
  rw [List.getD_eq_getElem?_getD, getElem?_flatMap_of_length (fun k => wordBytes_length (v.memRead k)) hj,
    List.getElem?_range hk, Option.bind_some, wordBytes_getElem? _ hj, Option.getD_some]

/-- Where logical bit `i` stands in the buffer: in which byte of its word, and at which bit of that byte. -/
theorem byte_of_index (i : Nat) : i / 8 = 4 * chunk i + off i / 8 ∧ off i / 8 < 4 ∧ 8 * (off i / 8) + i % 8 = off i := by
  unfold chunk off; omega

end Sys2Proof.Machine
end

section
/-! The statements about the bit memory. -/

namespace Sys2Proof.Proofs
open Sys2Proof.Machine

/-- Settles O28: division with remainder by 32 takes the index apart, and the bit of that word is read by shift and mask. -/
theorem logicalBitIsBitOfItsWord : Obligations.LogicalBitIsBitOfItsWord := by
  unfold Obligations.LogicalBitIsBitOfItsWord
  intro v k o ho
  refine ⟨?_, chunk_of_index ho, off_of_index ho, ?_⟩
  · rw [v.bit_index k o ho, boolWord_getLsbD]
  · rw [bitmask, off_of_index ho]

/-- Settles O51: byte `i / 8` is the byte of word `chunk i` that holds bit `off i`. -/
theorem serialisedBitLandsInItsByte : Obligations.SerialisedBitLandsInItsByte := by
  unfold Obligations.SerialisedBitLandsInItsByte
  intro v i hi
  obtain ⟨hbyte, hlt, hbit⟩ := byte_of_index i
  have hpos : i % 8 < 8 := Nat.mod_lt i (by decide)
  rw [hbyte, v.bytes_getD (chunk_lt_wordCount hi) hlt, BitVec.getLsbD_extractLsb', hbit, decide_eq_true hpos,
    Bool.true_and, PackedVector.bit]

end Sys2Proof.Proofs
end

section
/-! The decoder and the encoder against the opcode map (R71 to R77, R81). -/

namespace Sys2Proof

/-! ### The rows of the opcode map -/

/-- No two rows of the opcode map share an opcode. -/
theorem rowOf_op : ∀ r ∈ opcodeTable, rowOf r.op = some r := by
  simp [rowOf, opcodeTable, lifecycleRows, bitRangeRows, bitwiseRows, searchRows]

theorem rowOf_eq_some_iff {op : BitVec 8} {r : OpcodeRow} : rowOf op = some r ↔ r ∈ opcodeTable ∧ r.op = op := by
  constructor
  · intro h
    exact ⟨List.mem_of_find?_eq_some h, by simpa using List.find?_some h⟩
  · rintro ⟨hmem, rfl⟩
    exact rowOf_op r hmem

/-- The command word with opcode `op` and the live fields of `w`, every dead field 0 (R71, R74). -/
def liveWord (op : BitVec 8) (f : Format) (w : Word) : Word :=
  cmdWord op (if f.usesVD then fieldVD w else 0) (if f.usesVA then fieldVA w else 0)
    (if f.usesVB then fieldVB w else 0) (f.usesVAL && fieldVAL w)

theorem deadFieldSet_eq_false_iff {f : Format} {w : Word} : deadFieldSet f w = false ↔
    (f.usesVD = false → fieldVD w = 0) ∧ (f.usesVA = false → fieldVA w = 0) ∧ (f.usesVB = false → fieldVB w = 0) ∧
      (f.usesVAL = false → fieldVAL w = false) := by
  simp [deadFieldSet, and_assoc]

theorem deadFieldSet_liveWord (op : BitVec 8) (f : Format) (w : Word) : deadFieldSet f (liveWord op f w) = false := by
  rw [deadFieldSet_eq_false_iff]
  simp +contextual [liveWord]

theorem ite_live_eq {live : Bool} {x : Slot} (h : live = false → x = 0) : (if live then x else 0) = x := by
  cases live with
  | true => rfl
  | false => exact (h rfl).symm

theorem live_and_eq {live x : Bool} (h : live = false → x = false) : (live && x) = x := by
  cases live with
  | true => rfl
  | false => exact (h rfl).symm

/-- A command word with no reserved bit and no dead field set is the word of its live fields. -/
theorem liveWord_of_fields {f : Format} {w : Word} (hreserved : fieldReserved w = 0) (hdead : deadFieldSet f w = false) :
    liveWord (fieldOP w) f w = w := by
  obtain ⟨hvd, hva, hvb, hval⟩ := deadFieldSet_eq_false_iff.1 hdead
  rw [liveWord, ite_live_eq hvd, ite_live_eq hva, ite_live_eq hvb, live_and_eq hval, cmdWord_of_fields w hreserved]

/-! ### What a row builds, and what the encoder makes of it -/

section
variable (p : Packet)

/-- The row's command is encoded with the row's opcode and the packet's live fields. -/
theorem encode_build_cmd : ∀ r ∈ opcodeTable, (encode (r.build p)).cmd = liveWord r.op r.format p.cmd := by
  simp [opcodeTable, lifecycleRows, bitRangeRows, bitwiseRows, searchRows, encode, liveWord, Format.usesVD,
    Format.usesVA, Format.usesVB, Format.usesVAL]

theorem liveSlots_build (n : Nat) : ∀ r ∈ opcodeTable,
    (r.build p).liveSlots.all (Slot.ok n) = !slotNumberBad n r.format p.cmd := by
  simp [opcodeTable, lifecycleRows, bitRangeRows, bitwiseRows, searchRows, Instr.liveSlots, slotNumberBad,
    Format.usesVD, Format.usesVA, Format.usesVB, Bool.and_assoc]

theorem payloadOf_build : ∀ r ∈ opcodeTable,
    (r.build p).payloadOf = if r.op = opLOADW then p.payload else [] := by
  simp [opcodeTable, lifecycleRows, bitRangeRows, bitwiseRows, searchRows, Instr.payloadOf, opLOADW]

theorem encode_build_arg1 : ∀ r ∈ opcodeTable, r.op = opLOADW →
    (encode (r.build p)).arg1 = BitVec.ofNat 32 p.payload.length := by
  simp [opcodeTable, lifecycleRows, bitRangeRows, bitwiseRows, searchRows, encode, opLOADW]
end

theorem encode_payload (i : Instr) : (encode i).payload = i.payloadOf := by
  cases i <;> rfl

/-- Every command is what a row of the opcode map builds from the command's packet. -/
theorem exists_build_encode (i : Instr) : ∃ r ∈ opcodeTable, r.build (encode i) = i := by
  simp only [opcodeTable, List.mem_append, or_and_right, exists_or]
  cases i with
  | create _ _ | loadw _ _ _ | copy _ _ | free _ | vsize _ | rdw _ _ =>
    simp [lifecycleRows, encode]
  | getb _ _ | setb _ _ _ | tglb _ _ | getr _ _ _ | setr _ _ _ _ | fill _ _ =>
    simp [bitRangeRows, encode]
  | and _ _ _ | or _ _ _ | xor _ _ _ | nand _ _ _ | nor _ _ _ | xnor _ _ _ | diff _ _ _ | not _ _ | eq _ _ =>
    simp [bitwiseRows, encode]
  | popc _ | idxof _ _ _ | lidxof _ _ _ | tidx _ _ _ =>
    simp [searchRows, encode]

end Sys2Proof
end

section
/-! The decoder's verdict on a packet: a row of the opcode map accepts it or none does. -/

namespace Sys2Proof

/-- Row `r` of the opcode map accepts the packet: none of the five conditions of R76 holds. The framing of a `LOADW` payload
(R81) is not among them. -/
structure RowAccepts (n : Nat) (p : Packet) (r : OpcodeRow) : Prop where
  reserved : fieldReserved p.cmd = 0
  opcode : rowOf (fieldOP p.cmd) = some r
  dead : deadFieldSet r.format p.cmd = false
  slots : slotNumberBad n r.format p.cmd = false
  payload : r.op ≠ opLOADW → p.payload = []

namespace RowAccepts
variable {n : Nat} {p : Packet} {r : OpcodeRow}

theorem mem (h : RowAccepts n p r) : r ∈ opcodeTable := (rowOf_eq_some_iff.1 h.opcode).1

theorem op_eq (h : RowAccepts n p r) : r.op = fieldOP p.cmd := (rowOf_eq_some_iff.1 h.opcode).2

/-- On an accepted packet the decoder looks at the framing of a `LOADW` payload and at nothing else. -/
theorem decode_eq (h : RowAccepts n p r) : decode n p =
    if r.op = opLOADW ∧ zext32 p.arg1 ≠ p.payload.length then .error .payloadLength else .ok (r.build p) := by
  have hstray : ¬(r.op ≠ opLOADW ∧ p.payload ≠ []) := fun ⟨hop, hne⟩ => hne (h.payload hop)
  simp only [decode, h.reserved, h.opcode, h.dead, h.slots, hstray, ne_eq, not_true_eq_false, if_false, Bool.false_eq_true]

/-- The word of an accepted packet is that of the command the row builds. -/
theorem encode_build_cmd (h : RowAccepts n p r) : (encode (r.build p)).cmd = p.cmd := by
  rw [Sys2Proof.encode_build_cmd p r h.mem, h.op_eq, liveWord_of_fields h.reserved h.dead]

theorem payloadOf_build (h : RowAccepts n p r) : (r.build p).payloadOf = p.payload := by
  rw [Sys2Proof.payloadOf_build p r h.mem]
  split
  · rfl
  · next hop => exact (h.payload hop).symm

/-- A `LOADW` framed as R81 asks has no more beats than `ARG1` can count; the other commands have none. -/
theorem build_wf (h : RowAccepts n p r) (hframed : r.op = opLOADW → zext32 p.arg1 = p.payload.length) :
    (r.build p).wf n = true := by
  have hfits : p.payload.length < 4294967296 := by
    by_cases hop : r.op = opLOADW
    · rw [← hframed hop]; exact p.arg1.isLt
    · rw [h.payload hop]; decide
  simp only [Instr.wf, liveSlots_build p n r h.mem, h.slots, Instr.payloadFits, h.payloadOf_build, hfits, Bool.not_false,
    decide_true, Bool.and_self]

end RowAccepts

theorem decode_eq_ok_iff {n : Nat} {p : Packet} {i : Instr} : decode n p = .ok i ↔
    ∃ r, RowAccepts n p r ∧ (r.op = opLOADW → zext32 p.arg1 = p.payload.length) ∧ i = r.build p := by
  constructor
  · intro h
    obtain ⟨hreserved, r, hrow, hdead, hslots, hstray, hframed, rfl⟩ := decode_eq_ok h
    exact ⟨r, ⟨hreserved, hrow, hdead, hslots, hstray⟩, hframed, rfl⟩
  · rintro ⟨r, haccepts, hframed, rfl⟩
    rw [haccepts.decode_eq, if_neg fun ⟨hop, hne⟩ => hne (hframed hop)]

/-- A packet that no row accepts is rejected by one of the conditions of R76. -/
theorem decode_of_no_row {n : Nat} {p : Packet} (h : ∀ r, ¬RowAccepts n p r) :
    ∃ e, e ≠ .payloadLength ∧ decode n p = .error e := by
  unfold decode
  split
  · exact ⟨_, by decide, rfl⟩
  next hreserved =>
  split
  · exact ⟨_, by decide, rfl⟩
  next r hrow =>
  split
  · exact ⟨_, by decide, rfl⟩
  next hdead =>
  split
  · exact ⟨_, by decide, rfl⟩
  next hslots =>
  split
  · exact ⟨_, by decide, rfl⟩
  next hstray =>
  exact absurd ⟨not_not.1 hreserved, hrow, Bool.eq_false_of_not_eq_true hdead, Bool.eq_false_of_not_eq_true hslots,
    fun hop => not_not.1 fun hne => hstray ⟨hop, hne⟩⟩ (h r)

/-- The row of a well-formed command accepts the command's packet, and the packet's framing is right (R73, R81). -/
theorem rowAccepts_encode {n : Nat} {i : Instr} (h : i.wf n = true) : ∃ r, RowAccepts n (encode i) r ∧
    (r.op = opLOADW → zext32 (encode i).arg1 = (encode i).payload.length) ∧ i = r.build (encode i) := by
  obtain ⟨r, hmem, hbuild⟩ := exists_build_encode i
  have hcmd := encode_build_cmd (encode i) r hmem
  have hslots := liveSlots_build (encode i) n r hmem
  have hpayload := payloadOf_build (encode i) r hmem
  have harg1 := encode_build_arg1 (encode i) r hmem
  rw [hbuild] at hcmd hslots hpayload harg1
  simp only [Instr.wf, Instr.payloadFits, Bool.and_eq_true, decide_eq_true_eq] at h
  obtain ⟨hlive, hfits⟩ := h
  have hop : fieldOP (encode i).cmd = r.op := by rw [hcmd, liveWord, fieldOP_cmdWord]
  refine ⟨r, ⟨?_, ?_, ?_, ?_, ?_⟩, ?_, hbuild.symm⟩
  · rw [hcmd, liveWord, fieldReserved_cmdWord]
  · rw [hop]; exact rowOf_op r hmem
  · rw [hcmd]; exact deadFieldSet_liveWord _ _ _
  · simpa [hlive] using hslots
  · intro hne
    rw [encode_payload, hpayload, if_neg hne]
  · intro hloadw
    rw [harg1 hloadw, encode_payload, zext32, BitVec.toNat_ofNat, Nat.mod_eq_of_lt hfits]

end Sys2Proof
end

section
/-! The masks and matches of R75 against the decoder's own conditions. -/

namespace Sys2Proof
open Sys2Proof.Claims

/-! ### A mask keeps whole fields -/

/-- Fields laid side by side are equal exactly when each is. -/
theorem append_eq_append_iff {m n : Nat} {x x' : BitVec m} {y y' : BitVec n} : x ++ y = x' ++ y' ↔ x = x' ∧ y = y' := by
  constructor
  · intro h
    have hy := congrArg (BitVec.setWidth n) h
    rw [BitVec.setWidth_append_eq_right, BitVec.setWidth_append_eq_right] at hy
    subst hy
    exact ⟨(BitVec.append_left_inj y).1 h, rfl⟩
  · rintro ⟨rfl, rfl⟩
    rfl

/-- The word that has these fields, reserved bits included (R71). -/
def wordOfFields (reserved : BitVec 11) (val : BitVec 1) (vb va vd : BitVec 4) (op : BitVec 8) : Word :=
  reserved ++ val ++ vb ++ va ++ vd ++ op

theorem wordOfFields_inj {reserved reserved' : BitVec 11} {val val' : BitVec 1} {vb va vd vb' va' vd' : BitVec 4}
    {op op' : BitVec 8} : wordOfFields reserved val vb va vd op = wordOfFields reserved' val' vb' va' vd' op' ↔
      reserved = reserved' ∧ val = val' ∧ vb = vb' ∧ va = va' ∧ vd = vd' ∧ op = op' := by
  unfold wordOfFields
  rw [append_eq_append_iff, append_eq_append_iff, append_eq_append_iff, append_eq_append_iff, append_eq_append_iff]
  simp only [and_assoc]

theorem wordOfFields_and (reserved reserved' : BitVec 11) (val val' : BitVec 1) (vb va vd vb' va' vd' : BitVec 4)
    (op op' : BitVec 8) : wordOfFields reserved val vb va vd op &&& wordOfFields reserved' val' vb' va' vd' op' =
      wordOfFields (reserved &&& reserved') (val &&& val') (vb &&& vb') (va &&& va') (vd &&& vd') (op &&& op') := by
  unfold wordOfFields
  rw [BitVec.and_append, BitVec.and_append, BitVec.and_append, BitVec.and_append, BitVec.and_append]

/-- A command word is its fields side by side (R71). -/
theorem wordOfFields_fields (w : Word) : wordOfFields (fieldReserved w) (w.extractLsb' 20 1) (w.extractLsb' 16 4)
    (w.extractLsb' 12 4) (w.extractLsb' 8 4) (fieldOP w) = w := by
  unfold wordOfFields fieldReserved fieldOP
  rw [BitVec.extractLsb'_append_extractLsb'_eq_extractLsb' (by rfl),
    BitVec.extractLsb'_append_extractLsb'_eq_extractLsb' (by rfl),
    BitVec.extractLsb'_append_extractLsb'_eq_extractLsb' (by rfl),
    BitVec.extractLsb'_append_extractLsb'_eq_extractLsb' (by rfl),
    BitVec.extractLsb'_append_extractLsb'_eq_extractLsb' (by rfl), BitVec.extractLsb'_eq_self]

/-- What a mask keeps of a field of width `m`: nothing of a live field, all of a dead one. -/
def fieldMask (live : Bool) (m : Nat) : BitVec m := if live then 0 else BitVec.allOnes m

theorem and_fieldMask_eq_zero_iff {live : Bool} {m : Nat} (x : BitVec m) :
    x &&& fieldMask live m = 0 ↔ (live = false → x = 0) := by
  cases live <;> simp [fieldMask]

/-- The mask of a format holds the opcode, the reserved bits and every dead field (R75). -/
theorem mask_eq_wordOfFields (f : Format) : f.mask = wordOfFields (BitVec.allOnes 11) (fieldMask f.usesVAL 1)
    (fieldMask f.usesVB 4) (fieldMask f.usesVA 4) (fieldMask f.usesVD 4) (BitVec.allOnes 8) := by
  cases f <;> decide

theorem pattern_eq_wordOfFields (r : OpcodeRow) : r.pattern = wordOfFields 0 0 0 0 0 r.op := by
  rw [OpcodeRow.pattern, BitVec.setWidth_eq_append (by decide)]
  rfl

theorem fieldVD_eq_zero_iff {w : Word} : fieldVD w = 0 ↔ w.extractLsb' 8 4 = 0 := by
  rw [Fin.ext_iff, ← BitVec.toNat_inj]; rfl

theorem fieldVA_eq_zero_iff {w : Word} : fieldVA w = 0 ↔ w.extractLsb' 12 4 = 0 := by
  rw [Fin.ext_iff, ← BitVec.toNat_inj]; rfl

theorem fieldVB_eq_zero_iff {w : Word} : fieldVB w = 0 ↔ w.extractLsb' 16 4 = 0 := by
  rw [Fin.ext_iff, ← BitVec.toNat_inj]; rfl

theorem fieldVAL_eq_false_iff {w : Word} : fieldVAL w = false ↔ w.extractLsb' 20 1 = 0 := by
  unfold fieldVAL
  rw [BitVec.getLsbD_eq_extractLsb']
  obtain h | h := BitVec.eq_zero_or_eq_one (w.extractLsb' 20 1) <;> rw [h] <;> decide

/-- A row's mask and match select a command word exactly when its opcode is the row's and no reserved bit and no dead field
is set (R75, R76 conditions 1 to 3). -/
theorem selects_iff (r : OpcodeRow) (w : Word) : Selects (r.format.mask, r.pattern) w ↔
    fieldReserved w = 0 ∧ fieldOP w = r.op ∧ deadFieldSet r.format w = false := by
  have hmasked : w &&& r.format.mask = wordOfFields (fieldReserved w) (w.extractLsb' 20 1 &&& fieldMask r.format.usesVAL 1)
      (w.extractLsb' 16 4 &&& fieldMask r.format.usesVB 4) (w.extractLsb' 12 4 &&& fieldMask r.format.usesVA 4)
      (w.extractLsb' 8 4 &&& fieldMask r.format.usesVD 4) (fieldOP w) := by
    conv_lhs => rw [← wordOfFields_fields w, mask_eq_wordOfFields]
    rw [wordOfFields_and, BitVec.and_allOnes, BitVec.and_allOnes]
  simp only [Selects, hmasked, pattern_eq_wordOfFields, wordOfFields_inj, and_fieldMask_eq_zero_iff,
    deadFieldSet_eq_false_iff, fieldVD_eq_zero_iff, fieldVA_eq_zero_iff, fieldVB_eq_zero_iff, fieldVAL_eq_false_iff]
  tauto

/-- The spec's table of masks and matches is the decoder's opcode map (R75). -/
theorem specRows_eq : specRows = opcodeTable.map fun r => (r.format.mask, r.pattern) := by
  decide

theorem liveSlotsBelow_iff (n : Nat) (f : Format) (m w : Word) :
    LiveSlotsBelow n (f.mask, m) w ↔ slotNumberBad n f w = false := by
  have hvd : f.mask &&& 0x00000F00 = 0 ↔ f.usesVD = true := by cases f <;> decide
  have hva : f.mask &&& 0x0000F000 = 0 ↔ f.usesVA = true := by cases f <;> decide
  have hvb : f.mask &&& 0x000F0000 = 0 ↔ f.usesVB = true := by cases f <;> decide
  have hvdField : w.toNat / 256 % 16 = (fieldVD w).val := (extract_toNat w 8 4).symm
  have hvaField : w.toNat / 4096 % 16 = (fieldVA w).val := (extract_toNat w 12 4).symm
  have hvbField : w.toNat / 65536 % 16 = (fieldVB w).val := (extract_toNat w 16 4).symm
  simp only [LiveSlotsBelow, hvd, hva, hvb, hvdField, hvaField, hvbField]
  simp [slotNumberBad, Slot.ok, and_assoc]

/-- The spec's legality is that a row of the decoder's opcode map accepts the packet (R75, R76). -/
theorem legal_iff {n : Nat} {p : Packet} : Legal n p ↔ ∃ r, RowAccepts n p r := by
  have hpattern (r : OpcodeRow) : r.pattern = 0x02 ↔ r.op = opLOADW := by
    rw [show (0x02 : Word) = wordOfFields 0 0 0 0 0 opLOADW by decide, pattern_eq_wordOfFields, wordOfFields_inj]
    simp only [true_and]
  simp only [Legal, specRows_eq, List.mem_map, exists_exists_and_eq_and, selects_iff, liveSlotsBelow_iff, hpattern]
  constructor
  · rintro ⟨r, hmem, ⟨hreserved, hop, hdead⟩, hslots, hpayload⟩
    exact ⟨r, hreserved, rowOf_eq_some_iff.2 ⟨hmem, hop.symm⟩, hdead, hslots, hpayload.resolve_left⟩
  · rintro ⟨r, h⟩
    exact ⟨r, h.mem, ⟨h.reserved, h.op_eq.symm, h.dead⟩, h.slots, or_iff_not_imp_left.2 h.payload⟩

end Sys2Proof
end

section
/-! What presenting a packet leads to, by the decoder's verdict (R81, R205, R210). -/

namespace Sys2Proof.Machine

theorem presentPacket_of_decode {s : State} {p : Packet} {i : Instr} (h : decode s.nslot p = .ok i) :
    presentPacket p s = exec i s.consumePayload := by
  unfold presentPacket State.fetch
  rw [h]

theorem presentPacket_of_payloadLength {s : State} {p : Packet} (h : decode s.nslot p = .error .payloadLength) :
    presentPacket p s = .refused .payloadLengthMismatch := by
  unfold presentPacket State.fetch
  rw [h]

/-- Every decode error but a wrong payload length raises `IllegalCommand` (R210). -/
theorem presentPacket_of_decode_error {s : State} {p : Packet} {e : DecodeError} (hne : e ≠ .payloadLength)
    (h : decode s.nslot p = .error e) : presentPacket p s = .next (s.consumePayload.raise (illegalCommand p)) := by
  unfold presentPacket State.fetch
  rw [h]
  cases e with
  | payloadLength => exact absurd rfl hne
  | reservedBits | reservedOpcode | deadField | slotNumber | strayPayload => rfl

theorem step_of_present {s : State} {p : Packet} {rest : List HostEvent} (h : s.inbox = .present p :: rest) :
    step s = presentPacket p { s with inbox := rest } := step_of_inbox_cons h

end Sys2Proof.Machine
end

section
/-! `FROMINDICES` as the host runs it: `CREATE`, one `SETB` per index, and `FREE` after the first that fails (R80). -/

namespace Sys2Proof.Machine
open Sys2Proof.Claims

/-! ### A slot after a command that stores -/

theorem State.stored_slot_self (s : State) (d : Slot) (v : Option PackedVector) (res : Word) (beats : List Word) :
    ((s.setSlot d v).respond res beats).slot d = v := by
  rw [State.respond_slot, State.setSlot_slot_self]

theorem State.stored_slot_of_ne (s : State) {d e : Slot} (v : Option PackedVector) (res : Word) (beats : List Word)
    (h : e ≠ d) : ((s.setSlot d v).respond res beats).slot e = s.slot e := by
  rw [State.respond_slot, State.setSlot_slot_of_ne s d e v h]

/-! ### The commands of the sequence -/

/-- `CREATE` with a legal size stores the zero-filled vector (R101). -/
theorem exec_create_of_legalSize {size : Word} {n : Nat} (hsize : Spells size n) (hn : LegalSize n) (vd : Slot) (s : State) :
    exec (.create vd size) s = .next ((s.setSlot vd (some (zeroVector n))).respond 0 []) := by
  have hcheck : checkSize (signedOperand size) = .ok n := checkSize_eq_ok.2 ⟨hsize, hn⟩
  show execCreate vd size s = _
  simp only [execCreate, hcheck, check_ok_bind, State.finish_ok, State.applyUpdate_some]

theorem exec_free (vd : Slot) (s : State) : exec (.free vd) s = .next ((s.setSlot vd none).respond 0 []) := rfl

/-- `SETB` of an index of the vector writes that bit (R122). -/
theorem exec_setb_of_index {s : State} {vd : Slot} {v : PackedVector} {i : Word} {k : Nat} (hslot : s.slot vd = some v)
    (hi : Spells i k) (hk : k < v.size) (val : Bool) : exec (.setb vd val i) s =
      .next ((s.setSlot vd (some (v.maskedWrite (chunk k) (bitmask k) val))).respond 0 []) := by
  have hcheck : validate (signedOperand i) v.size = .ok k := validate_eq_ok.2 ⟨hi, hk⟩
  show execSetb vd val i s = _
  simp only [execSetb, requireSlot_some hslot, hcheck, check_ok_bind, State.finish_ok, State.applyUpdate_some]

/-- `SETB` outside the vector raises `IndexBounds` (R55, R122). -/
theorem exec_setb_of_outside {s : State} {vd : Slot} {v : PackedVector} {i : Word} (hslot : s.slot vd = some v)
    (hi : Outside i v.size) (val : Bool) :
    exec (.setb vd val i) s = .next (s.raise ⟨.indexBounds, i, BitVec.ofNat 32 v.size⟩) := by
  have hcheck := validate_error (value := signedOperand i) hi
  show execSetb vd val i s = _
  simp only [execSetb, requireSlot_some hslot, hcheck, check_ok_bind, check_error_bind, State.finish_error,
    wordOf_signedOperand, wordOf_natCast]

/-- An operand inside the limit spells one of the numbers below it. -/
theorem spells_of_not_outside {i : Word} {limit : Nat} (h : ¬Outside i limit) : ∃ k, Spells i k ∧ k < limit := by
  obtain ⟨h0, hlt⟩ := not_not.1 h
  obtain ⟨k, hk⟩ := Int.eq_ofNat_of_zero_le h0
  exact ⟨k, hk, by omega⟩

/-! ### Stopping at the first failure -/

theorem runOrFree_cons_of_success {vd : Slot} {i : Instr} {is : List Instr} {s t : State} (h : exec i s = .next t)
    (ht : t.status = 0) : runOrFree vd (i :: is) s = runOrFree vd is t := by
  simp only [runOrFree, h, ht, if_true]

theorem runOrFree_cons_of_failure {vd : Slot} {i : Instr} {is : List Instr} {s t : State} (h : exec i s = .next t)
    (ht : t.status ≠ 0) : runOrFree vd (i :: is) s = .next ((t.setSlot vd none).respond 0 []) := by
  simp only [runOrFree, h, ht, if_false, exec_free]

/-! ### One `SETB` per index -/

/-- `t` is what the host finds after setting the indices `l` in slot `vd`, which held `v`: the indices added to the vector,
or, with one of them outside it, the slot emptied. No other slot changed. -/
structure SetOrFreed (s t : State) (vd : Slot) (v : PackedVector) (l : List Word) : Prop where
  frame : ∀ e, e ≠ vd → t.slot e = s.slot e
  built : (∀ w ∈ l, ¬Outside w v.size) → ∃ u, t.slot vd = some u ∧ u.size = v.size ∧ u.wf = true ∧
    ∀ j : Nat, u.bit j = true ↔ v.bit j = true ∨ ∃ w ∈ l, w.toInt = j
  freed : (∃ w ∈ l, Outside w v.size) → t.slot vd = none

theorem SetOrFreed.nil {s : State} {vd : Slot} {v : PackedVector} (hslot : s.slot vd = some v) (hv : v.wf = true) :
    SetOrFreed s s vd v [] where
  frame _ _ := rfl
  built _ := ⟨v, hslot, rfl, hv, by simp⟩
  freed h := by simp at h

/-- After a first index outside the vector the host frees the slot, whatever follows. -/
theorem SetOrFreed.of_outside {s : State} {vd : Slot} {v : PackedVector} {i : Word} (hi : Outside i v.size)
    (l : List Word) (f : Failure) : SetOrFreed s (((s.raise f).setSlot vd none).respond 0 []) vd v (i :: l) where
  frame e he := by rw [State.stored_slot_of_ne _ _ _ _ he, State.raise_slot]
  built h := absurd hi (h i List.mem_cons_self)
  freed _ := State.stored_slot_self _ _ _ _ _

/-- A first index of the vector is set, and the rest works on the vector with that bit. -/
theorem SetOrFreed.cons {s t : State} {vd : Slot} {v : PackedVector} (hv : v.wf = true) {i : Word} {k : Nat}
    (hi : Spells i k) (hk : k < v.size) {l : List Word} {stored : Option PackedVector}
    (h : SetOrFreed ((s.setSlot vd stored).respond 0 []) t vd (v.maskedWrite (chunk k) (bitmask k) true) l) :
    SetOrFreed s t vd v (i :: l) where
  frame e he := by rw [h.frame e he, State.stored_slot_of_ne _ _ _ _ he]
  built hall := by
    obtain ⟨u, hslot, hsize, hwf, hbits⟩ := h.built fun w hw => by
      rw [PackedVector.maskedWrite_size]; exact hall w (List.mem_cons_of_mem i hw)
    refine ⟨u, hslot, by rw [hsize, PackedVector.maskedWrite_size], hwf, fun j => ?_⟩
    have hij : i.toInt = j ↔ j = k := by rw [hi]; omega
    rw [hbits, bit_maskedWrite_bitmask hv, List.exists_mem_cons_iff, hij]
    by_cases hjk : j = k <;> simp [hjk]
  freed hsome := by
    have hin : ¬Outside i v.size := not_not.2 (by rw [hi]; omega)
    refine h.freed ?_
    rw [PackedVector.maskedWrite_size]
    exact (List.exists_mem_cons_iff _ _ _).1 hsome |>.resolve_left hin

/-- Setting one index after another leaves them all set, or the slot empty. -/
theorem runOrFree_setbs (vd : Slot) (l : List Word) : ∀ (s : State) (v : PackedVector), s.slot vd = some v → v.wf = true →
    ∃ t, runOrFree vd (l.map fun i => .setb vd true i) s = .next t ∧ SetOrFreed s t vd v l := by
  induction l with
  | nil => exact fun s v hslot hv => ⟨s, rfl, .nil hslot hv⟩
  | cons i l ih =>
    intro s v hslot hv
    rw [List.map_cons]
    by_cases hout : Outside i v.size
    · have hexec := exec_setb_of_outside hslot hout true
      rw [runOrFree_cons_of_failure hexec (statusWord_ne_zero _)]
      exact ⟨_, rfl, .of_outside hout l _⟩
    · obtain ⟨k, hi, hk⟩ := spells_of_not_outside hout
      rw [runOrFree_cons_of_success (exec_setb_of_index hslot hi hk true) rfl]
      obtain ⟨t, hrun, ht⟩ := ih _ _ (s.stored_slot_self vd _ 0 []) (maskedWrite_bitmask_wf hv hk true)
      exact ⟨t, hrun, ht.cons hv hi hk⟩

end Sys2Proof.Machine
end

section
/-! The statements about encoding, about presenting a packet and about `FROMINDICES`. -/

namespace Sys2Proof.Proofs
open Sys2Proof.Machine Sys2Proof.Claims

/-- Settles O1: the command's row accepts its packet, and builds the command from it. -/
theorem decodeOfEncodeIsTheCommand : Obligations.DecodeOfEncodeIsTheCommand := by
  unfold Obligations.DecodeOfEncodeIsTheCommand
  intro n i hwf
  exact decode_eq_ok_iff.2 (rowAccepts_encode hwf)

/-- Settles O2: the row that accepts the packet fixes every field of its word, and its payload. -/
theorem decodedPacketIsItsEncoding : Obligations.DecodedPacketIsItsEncoding := by
  unfold Obligations.DecodedPacketIsItsEncoding
  intro n p i h
  obtain ⟨r, haccepts, hframed, rfl⟩ := decode_eq_ok_iff.1 h
  refine ⟨haccepts.build_wf hframed, haccepts.encode_build_cmd, ?_⟩
  rw [encode_payload, haccepts.payloadOf_build]

/-- Settles O3: the row that R75 selects is the row the decoder finds, and its command is encoded with the packet's word. -/
theorem legalPacketDecodes : Obligations.LegalPacketDecodes := by
  unfold Obligations.LegalPacketDecodes
  intro n p hlegal hlength
  obtain ⟨r, haccepts⟩ := legal_iff.1 hlegal
  have hframed : r.op = opLOADW → zext32 p.arg1 = p.payload.length := fun hop => hlength (haccepts.op_eq.symm.trans hop)
  exact ⟨r.build p, decode_eq_ok_iff.2 ⟨r, haccepts, hframed, rfl⟩, haccepts.encode_build_cmd⟩

/-- Settles O6: no row accepts an illegal packet, so the decoder rejects it by a condition of R76. -/
theorem illegalPacketRaisesIllegalCommand : Obligations.IllegalPacketRaisesIllegalCommand := by
  unfold Obligations.IllegalPacketRaisesIllegalCommand
  intro s p rest hin hillegal
  obtain ⟨e, hne, herror⟩ := decode_of_no_row fun r haccepts => hillegal (legal_iff.2 ⟨r, haccepts⟩)
  refine ⟨(Taken s rest).raise (illegalCommand p), ?_, State.raise_failed _ _ _ _ _ (statusWord_values .illegalCommand)⟩
  rw [step_of_present hin]
  exact presentPacket_of_decode_error hne herror

/-- Settles O5: taking the action and consuming the payload is the state `Taken`. -/
theorem stepRunsDecodedCommand : Obligations.StepRunsDecodedCommand := by
  unfold Obligations.StepRunsDecodedCommand
  intro s p rest i hin hdecode
  rw [step_of_present hin]
  exact presentPacket_of_decode (s := { s with inbox := rest }) hdecode

/-- Settles O7: the row of `LOADW` accepts the packet, and its framing is all that is wrong. -/
theorem loadwLengthMismatchIsRefused : Obligations.LoadwLengthMismatchIsRefused := by
  unfold Obligations.LoadwLengthMismatchIsRefused
  intro s p rest hin hlegal hop hlength
  obtain ⟨r, haccepts⟩ := legal_iff.1 hlegal
  have hmismatch : r.op = opLOADW ∧ zext32 p.arg1 ≠ p.payload.length := ⟨haccepts.op_eq.trans hop, hlength⟩
  rw [step_of_present hin]
  exact presentPacket_of_payloadLength (s := { s with inbox := rest }) (haccepts.decode_eq.trans (if_pos hmismatch))

/-- Settles O50: `CREATE` stores the zero-filled vector, and the indices are set in it one by one. -/
theorem fromIndicesBuildsOrFrees : Obligations.FromIndicesBuildsOrFrees := by
  unfold Obligations.FromIndicesBuildsOrFrees
  intro s vd size n l hsize hn
  obtain ⟨hmin, hmax⟩ := hn
  obtain ⟨t, hrun, ht⟩ := runOrFree_setbs vd l _ (zeroVector n) (s.stored_slot_self vd _ 0 []) (zeroVector_wf hmin hmax)
  refine ⟨t, ?_, fun e he => ?_, fun hall => ?_, ht.freed⟩
  · rw [pseudoFromIndices, runOrFree_cons_of_success (exec_create_of_legalSize hsize ⟨hmin, hmax⟩ vd s) rfl]
    exact hrun
  · rw [ht.frame e he, s.stored_slot_of_ne _ _ _ he]
  · obtain ⟨u, hslot, hsizeU, hwf, hbits⟩ := ht.built hall
    exact ⟨u, hslot, hsizeU, hwf, fun j => by simp [hbits]⟩

end Sys2Proof.Proofs
end

section
/-! The packet of a command, as the spec writes it: fields shifted into place and OR-ed (R71), and operand words a command
does not use at any value (R74). -/

namespace Sys2Proof
open Sys2Proof.Claims

theorem wordOfFields_or (reserved reserved' : BitVec 11) (val val' : BitVec 1) (vb va vd vb' va' vd' : BitVec 4)
    (op op' : BitVec 8) : wordOfFields reserved val vb va vd op ||| wordOfFields reserved' val' vb' va' vd' op' =
      wordOfFields (reserved ||| reserved') (val ||| val') (vb ||| vb') (va ||| va') (vd ||| vd') (op ||| op') := by
  unfold wordOfFields
  rw [BitVec.or_append, BitVec.or_append, BitVec.or_append, BitVec.or_append, BitVec.or_append]

/-- The fields OR-ed together are the fields side by side: each summand of R71 is a word with one field set. -/
theorem commandWord_eq_cmdWord (op : BitVec 8) (vd va vb : Slot) (val : Bool) :
    commandWord (op.setWidth 32) vd va vb val = cmdWord op vd va vb val := by
  have hop : op.setWidth 32 = wordOfFields 0 0 0 0 0 op := by
    rw [BitVec.setWidth_eq_append (by decide)]
    rfl
  have hvd (a : Slot) : BitVec.ofNat 32 a.val <<< 8 = wordOfFields 0 0 0 0 (BitVec.ofNat 4 a.val) 0 := by
    revert a; decide
  have hva (a : Slot) : BitVec.ofNat 32 a.val <<< 12 = wordOfFields 0 0 0 (BitVec.ofNat 4 a.val) 0 0 := by
    revert a; decide
  have hvb (a : Slot) : BitVec.ofNat 32 a.val <<< 16 = wordOfFields 0 0 (BitVec.ofNat 4 a.val) 0 0 0 := by
    revert a; decide
  have hval : BitVec.ofNat 32 val.toNat <<< 20 = wordOfFields 0 (BitVec.ofBool val) 0 0 0 0 := by
    cases val <;> decide
  rw [commandWord, hop, hvd, hva, hvb, hval]
  simp only [wordOfFields_or, BitVec.ofNat_eq_ofNat, BitVec.or_zero, BitVec.zero_or]
  rfl

/-- A packet with the command word of `i` and no payload spells `i`, whatever its operand words are, when the row of its
opcode builds `i` from it. -/
theorem decodes_of_row {op : BitVec 8} {r : OpcodeRow} (hrow : rowOf op = some r) (hop : op ≠ opLOADW) {vd va vb : Slot}
    {val : Bool} {x y : Word} {i : Instr} (hcmd : (encode i).cmd = cmdWord op vd va vb val)
    (hbuild : r.build ⟨cmdWord op vd va vb val, x, y, []⟩ = i) :
    Decodes ⟨commandWord (op.setWidth 32) vd va vb val, x, y, []⟩ i := by
  intro n hwf
  rw [commandWord_eq_cmdWord]
  obtain ⟨hmem, hrop⟩ := rowOf_eq_some_iff.1 hrow
  have hlive := encode_build_cmd ⟨cmdWord op vd va vb val, x, y, []⟩ r hmem
  have hslots := liveSlots_build ⟨cmdWord op vd va vb val, x, y, []⟩ n r hmem
  rw [hbuild] at hlive hslots
  simp only [Instr.wf, Bool.and_eq_true] at hwf
  obtain ⟨hnamed, -⟩ := hwf
  refine decode_eq_ok_iff.2 ⟨r, ⟨?_, ?_, ?_, ?_, fun _ => rfl⟩, fun hloadw => absurd (hrop.symm.trans hloadw) hop, hbuild.symm⟩
  · exact fieldReserved_cmdWord op vd va vb val
  · rw [fieldOP_cmdWord]; exact hrow
  · rw [← hcmd, hlive]; exact deadFieldSet_liveWord _ _ _
  · simpa [hnamed] using hslots

/-- The packet the encoder makes of a command spells it (R79, R81). -/
theorem decodes_of_encode_eq {p : Packet} {i : Instr} (h : encode i = p) : Decodes p i := by
  subst h
  exact fun n hwf => Proofs.decodeOfEncodeIsTheCommand n i hwf

theorem decodes_loadw (vd : Slot) (size : Word) (ws : List Word) :
    Decodes ⟨commandWord 0x02 vd 0 0 false, size, BitVec.ofNat 32 ws.length, ws⟩ (.loadw vd size ws) := by
  have hcmd : commandWord 0x02 vd 0 0 false = cmdWord 0x02 vd 0 0 false := commandWord_eq_cmdWord 0x02 vd 0 0 false
  apply decodes_of_encode_eq
  rw [hcmd, encode]

end Sys2Proof
end

section
/-! From the verdict of a command's checks to what claims say of the command. -/

namespace Sys2Proof.Machine
open Sys2Proof.Claims

/-! ### How a command ends, in the terms of claims -/

section
variable {i : Instr} {s : State}

theorem raises_of_error {c : Cause} {status val lim : Word} (hstatus : statusWord c = status)
    (h : exec i s = s.finish (.error ⟨c, val, lim⟩)) : Raises i s status val lim :=
  ⟨_, h, s.raise_failed c val lim status hstatus⟩

theorem answers_of_ok {res : Word} {beats : List Word} (h : exec i s = s.finish (.ok { res := res, beats := beats })) :
    Answers i s res beats :=
  ⟨_, h, s.respond_answered res beats⟩

theorem stores_of_ok {d : Slot} {v : Option PackedVector} {res : Word}
    (h : exec i s = s.finish (.ok { res := res, update := some (d, v) })) : Stores i s d v res :=
  ⟨_, h, s.update_stored d v res⟩

/-- A command whose first check is of slot `a` needs a vector there (R211). -/
theorem needsSlot_of_requireSlot {a : Slot} {rest : PackedVector → Except Failure Effect}
    (h : exec i s = s.finish (requireSlot s a >>= rest)) : NeedsSlot i s a := by
  intro hempty
  rw [requireSlot_none hempty] at h
  exact raises_of_error (statusWord_values .slotInvalid) h

end

/-! ### The operand checks, in the terms of claims -/

theorem validate_of_outside {w : Word} {limit : Nat} (h : Outside w limit) :
    validate (signedOperand w) limit = .error ⟨.indexBounds, w, BitVec.ofNat 32 limit⟩ := by
  rw [validate_error (value := signedOperand w) h, wordOf_signedOperand, wordOf_natCast]

theorem validate_of_spells {w : Word} {n limit : Nat} (h : Spells w n) (hn : n < limit) :
    validate (signedOperand w) limit = .ok n := validate_eq_ok.2 ⟨h, hn⟩

theorem checkSize_of_illegal {size : Word} (h : ¬(1 ≤ size.toInt ∧ size.toInt ≤ 536870911)) :
    checkSize (signedOperand size) = .error ⟨.outOfRange, size, 0x20000000⟩ := by
  rw [checkSize_error (size := signedOperand size) h, wordOf_signedOperand]

theorem checkSize_of_legalSize {size : Word} {n : Nat} (h : Spells size n) (hn : LegalSize n) :
    checkSize (signedOperand size) = .ok n := checkSize_eq_ok.2 ⟨h, hn⟩

theorem checkPayload_of_long {n : Nat} {ws : List Word} (h : wordCount n < ws.length) :
    checkPayload n ws = .error ⟨.rawTooLong, BitVec.ofNat 32 ws.length, BitVec.ofNat 32 (wordCount n + 1)⟩ := by
  rw [checkPayload, if_pos h, wordOf_natCast, wordOf_natCast]

theorem checkPayload_of_fits {n : Nat} {ws : List Word} (h : ws.length ≤ wordCount n) : checkPayload n ws = .ok () :=
  checkPayload_eq_ok.2 h

end Sys2Proof.Machine
end

section
/-! The construction and lifecycle commands, one equation per verdict of their checks (40_lifecycle.md). -/

namespace Sys2Proof.Machine
open Sys2Proof.Claims

variable {s : State} {vd va : Slot} {size : Word} {n : Nat} {ws : List Word}

/-! ### `CREATE` and `LOADW` -/

theorem create_raises_of_illegal (h : ¬(1 ≤ size.toInt ∧ size.toInt ≤ 536870911)) :
    Raises (.create vd size) s 0x32 size 0x20000000 := by
  apply raises_of_error (statusWord_values .outOfRange)
  show execCreate vd size s = _
  rw [execCreate, checkSize_of_illegal h, check_error_bind]

theorem create_stores (hsize : Spells size n) (hn : LegalSize n) :
    Stores (.create vd size) s vd (some (zeroVector n)) 0 :=
  ⟨_, exec_create_of_legalSize hsize hn vd s, s.update_stored vd _ 0⟩

/-- The size check of `LOADW` comes before its length check (R102). -/
theorem loadw_raises_of_illegal (h : ¬(1 ≤ size.toInt ∧ size.toInt ≤ 536870911)) :
    Raises (.loadw vd size ws) s 0x32 size 0x20000000 := by
  apply raises_of_error (statusWord_values .outOfRange)
  show execLoadw vd size ws s = _
  rw [execLoadw, checkSize_of_illegal h, check_error_bind]

theorem loadw_raises_of_long (hsize : Spells size n) (hn : LegalSize n) (hlong : wordCount n < ws.length) :
    Raises (.loadw vd size ws) s 0x72 (BitVec.ofNat 32 ws.length) (BitVec.ofNat 32 (wordCount n + 1)) := by
  apply raises_of_error (statusWord_values .rawTooLong)
  show execLoadw vd size ws s = _
  rw [execLoadw, checkSize_of_legalSize hsize hn, check_ok_bind, checkPayload_of_long hlong, check_error_bind]

theorem loadw_stores (hsize : Spells size n) (hn : LegalSize n) (hfits : ws.length ≤ wordCount n) :
    Stores (.loadw vd size ws) s vd (some (vectorOfWords n ws)) 0 := by
  apply stores_of_ok
  show execLoadw vd size ws s = _
  rw [execLoadw, checkSize_of_legalSize hsize hn, check_ok_bind, checkPayload_of_fits hfits, check_ok_bind]

/-! ### The words of a loaded vector (R102, R103) -/

theorem vectorOfWords_memRead_of_lt {k : Nat} (h : k + 1 < wordCount n) : (vectorOfWords n ws).memRead k = ws.getD k 0 := by
  rw [vectorOfWords_memRead, if_neg (by omega)]

theorem one_shiftLeft_sub_one (r : Nat) : ((1 : Word) <<< r) - 1 = low r := by
  have hpow : (1 : Word) <<< r = BitVec.ofNat 32 (2 ^ r) := by
    apply BitVec.eq_of_toNat_eq
    simp [Nat.shiftLeft_eq]
  rw [hpow, low]
  exact BitVec.ofNat_sub_ofNat_of_le _ _ (by decide) Nat.one_le_two_pow

/-- Tail masking keeps a word whose bits are all logical, and of any other the lowest `n mod 32` bits (R24, R25). -/
theorem and_tailMask (w : Word) (n : Nat) : w &&& tailMask n = if n % 32 = 0 then w else w &&& low (n % 32) := by
  unfold tailMask tailBits
  split
  · exact BitVec.and_allOnes
  · rw [one_shiftLeft_sub_one]

theorem vectorOfWords_memRead_last {k : Nat} (h : k + 1 = wordCount n) : (vectorOfWords n ws).memRead k =
    if n % 32 = 0 then ws.getD k 0 else ws.getD k 0 &&& BitVec.ofNat 32 (2 ^ (n % 32) - 1) := by
  rw [vectorOfWords_memRead, if_pos (by omega), and_tailMask, low]

/-! ### `COPY`, `FREE`, `VSIZE` and `RDW` -/

theorem copy_stores {v : PackedVector} (h : s.slot va = some v) : Stores (.copy vd va) s vd (some v) 0 := by
  apply stores_of_ok
  show execCopy vd va s = _
  rw [execCopy, requireSlot_some h, check_ok_bind]

/-- The source keeps its vector, also when the copy lands in its own slot. -/
theorem State.Stored.slot_eq_of_source {t : State} {v : PackedVector} {res : Word} (h : s.Stored t vd (some v) res)
    (hva : s.slot va = some v) : t.slot va = some v := by
  obtain ⟨hself, hother, -⟩ := h
  by_cases hne : va = vd
  · rw [hne, hself]
  · rw [hother va hne, hva]

theorem free_stores : Stores (.free vd) s vd none 0 := stores_of_ok rfl

theorem vsize_answers {v : PackedVector} (h : s.slot va = some v) : Answers (.vsize va) s (BitVec.ofNat 32 v.size) [] := by
  apply answers_of_ok
  show execVsize va s = _
  rw [execVsize, requireSlot_some h, check_ok_bind, wordOf_natCast]

theorem rdw_raises_of_outside {v : PackedVector} {k : Word} (h : s.slot va = some v) (hk : Outside k v.wordCount) :
    Raises (.rdw va k) s 0x42 k (BitVec.ofNat 32 v.wordCount) := by
  apply raises_of_error (statusWord_values .indexBounds)
  show execRdw va k s = _
  rw [execRdw, requireSlot_some h, check_ok_bind, validate_of_outside hk, check_error_bind]

theorem rdw_answers {v : PackedVector} {k : Word} (h : s.slot va = some v) (hk : Spells k n) (hn : n < v.wordCount) :
    Answers (.rdw va k) s (v.memRead n) [] := by
  apply answers_of_ok
  show execRdw va k s = _
  rw [execRdw, requireSlot_some h, check_ok_bind, validate_of_spells hk hn, check_ok_bind]

end Sys2Proof.Machine
end

section
/-! The statements about construction and lifecycle. -/

namespace Sys2Proof.Proofs
open Sys2Proof.Machine Sys2Proof.Claims

/-- Settles O4: each of the five packets is what the encoder makes of its command. -/
theorem sampleWordsDecode : Obligations.SampleWordsDecode := by
  unfold Obligations.SampleWordsDecode
  refine ⟨?_, ?_, ?_, ?_, ?_⟩
  · exact decodes_of_encode_eq (i := .create 0 33) (by decide) 4 (by decide)
  · exact decodes_of_encode_eq (i := .setr 1 true 30 40) (by decide) 4 (by decide)
  · exact decodes_of_encode_eq (i := .and 2 0 1) (by decide) 4 (by decide)
  · exact decodes_of_encode_eq (i := .idxof 3 true 0xFFFFFFFF) (by decide) 4 (by decide)
  · exact decodes_of_encode_eq (i := .tidx 0 0 10) (by decide) 4 (by decide)

/-- Settles O22: the size check decides between the zero-filled vector and `OutOfRange`. -/
theorem createMakesZeroVector : Obligations.CreateMakesZeroVector := by
  unfold Obligations.CreateMakesZeroVector
  intro s vd size
  refine ⟨fun x => decodes_of_row (op := 0x01) rfl (by decide) rfl (by simp), fun n hsize hn => ?_, create_raises_of_illegal⟩
  obtain ⟨hmin, hmax⟩ := hn
  exact ⟨zeroVector n, create_stores hsize ⟨hmin, hmax⟩, zeroVector_size n, zeroVector_memRead n, zeroVector_wf hmin hmax⟩

/-- Settles O23: the size check, then the length check, then the vector made from the words. -/
theorem loadwMakesVectorOfWords : Obligations.LoadwMakesVectorOfWords := by
  unfold Obligations.LoadwMakesVectorOfWords
  intro s vd size ws
  refine ⟨decodes_loadw vd size ws, loadw_raises_of_illegal, fun n => loadw_raises_of_long, fun n hsize hn hfits => ?_⟩
  obtain ⟨hmin, hmax⟩ := hn
  exact ⟨vectorOfWords n ws, loadw_stores hsize ⟨hmin, hmax⟩ hfits, vectorOfWords_size n ws,
    vectorOfWords_wf hmin hmax hfits, fun k => vectorOfWords_memRead_of_lt, fun k => vectorOfWords_memRead_last⟩

/-- Settles O24: the copy is stored, and the source keeps its vector in either slot choice. -/
theorem copyDuplicatesTheVector : Obligations.CopyDuplicatesTheVector := by
  unfold Obligations.CopyDuplicatesTheVector
  intro s vd va
  refine ⟨fun x y => decodes_of_row (op := 0x03) rfl (by decide) rfl (by simp), needsSlot_of_requireSlot rfl, fun v hv => ?_⟩
  obtain ⟨u, hrun, hstored⟩ := copy_stores (vd := vd) hv
  refine ⟨⟨u, hrun, hstored⟩, fun t ht => ?_⟩
  obtain rfl := Host.Outcome.next.inj (hrun.symm.trans ht)
  exact hstored.slot_eq_of_source hv

/-- Settles O25: `FREE` has no check. -/
theorem freeEmptiesTheSlot : Obligations.FreeEmptiesTheSlot := by
  unfold Obligations.FreeEmptiesTheSlot
  intro s vd
  exact ⟨fun x y => decodes_of_row (op := 0x04) rfl (by decide) rfl (by simp), free_stores⟩

/-- Settles O26: past the slot check, `VSIZE` answers. -/
theorem vsizeAnswersTheSize : Obligations.VsizeAnswersTheSize := by
  unfold Obligations.VsizeAnswersTheSize
  intro s va
  exact ⟨fun x y => decodes_of_row (op := 0x05) rfl (by decide) rfl (by simp), needsSlot_of_requireSlot rfl,
    fun v => vsize_answers⟩

/-- Settles O27: past the slot check, the word number is checked against `WORDCOUNT`. -/
theorem rdwAnswersTheWord : Obligations.RdwAnswersTheWord := by
  unfold Obligations.RdwAnswersTheWord
  intro s va k
  exact ⟨fun x => decodes_of_row (op := 0x06) rfl (by decide) rfl (by simp), needsSlot_of_requireSlot rfl,
    fun v hv => ⟨rdw_raises_of_outside hv, fun n => rdw_answers hv⟩⟩

end Sys2Proof.Proofs
end

section
/-! Commands whose second check is of an index or of a range: what each verdict of that check leads to (R55, R125). -/

namespace Sys2Proof.Machine
open Sys2Proof.Claims

/-! ### The range check, verdict by verdict (R125) -/

section
variable {size b n : Nat} {start count : Word}

theorem rangeCheck_of_start_outside (hstart : Outside start size) (count : Int) :
    rangeCheck size (signedOperand start) count = .error ⟨.indexBounds, start, BitVec.ofNat 32 size⟩ := by
  rw [rangeCheck, validate_of_outside hstart, check_error_bind]

theorem rangeCheck_of_count_outside (hstart : Spells start b) (hb : b < size) (hcount : Outside count (size + 1)) :
    rangeCheck size (signedOperand start) (signedOperand count) =
      .error ⟨.indexBounds, count, BitVec.ofNat 32 (size + 1)⟩ := by
  rw [rangeCheck, validate_of_spells hstart hb, check_ok_bind, validate_of_outside hcount, check_error_bind]

/-- The sum is taken on integers; as a word it is the sum of the operand words. -/
theorem ofNat_add_of_spells (hstart : Spells start b) (hcount : Spells count n) :
    BitVec.ofNat 32 (b + n) = start + count := by
  have hsum : start.toInt + count.toInt = ((b + n : Nat) : Int) := by rw [hstart, hcount, Int.natCast_add]
  rw [← BitVec.ofInt_natCast, ← hsum, BitVec.ofInt_add, BitVec.ofInt_toInt, BitVec.ofInt_toInt]

theorem rangeCheck_of_exceeded (hstart : Spells start b) (hb : b < size) (hcount : Spells count n) (hn : n < size + 1)
    (hsum : size < b + n) : rangeCheck size (signedOperand start) (signedOperand count) =
      .error ⟨.rangeExceeded, start + count, BitVec.ofNat 32 (size + 1)⟩ := by
  rw [rangeCheck, validate_of_spells hstart hb, check_ok_bind, validate_of_spells hcount hn, check_ok_bind, if_pos hsum,
    wordOf_natCast, wordOf_natCast, ofNat_add_of_spells hstart hcount]

theorem rangeCheck_of_spells (hstart : Spells start b) (hb : b < size) (hcount : Spells count n) (hsum : b + n ≤ size) :
    rangeCheck size (signedOperand start) (signedOperand count) = .ok (b, n) :=
  rangeCheck_eq_ok.2 ⟨hstart, hcount, hb, hsum⟩

end

/-! ### A command that checks an index of its vector -/

section
variable {i : Instr} {s : State} {a : Slot} {v : PackedVector} {w : Word}
  {rest : PackedVector → Nat → Except Failure Effect}

theorem raises_of_index_outside
    (h : exec i s = s.finish (requireSlot s a >>= fun u => validate (signedOperand w) u.size >>= rest u))
    (hslot : s.slot a = some v) (hw : Outside w v.size) : Raises i s 0x42 w (BitVec.ofNat 32 v.size) := by
  rw [requireSlot_some hslot, check_ok_bind, validate_of_outside hw, check_error_bind] at h
  exact raises_of_error (statusWord_values .indexBounds) h

theorem exec_of_index {n : Nat}
    (h : exec i s = s.finish (requireSlot s a >>= fun u => validate (signedOperand w) u.size >>= rest u))
    (hslot : s.slot a = some v) (hw : Spells w n) (hn : n < v.size) : exec i s = s.finish (rest v n) := by
  rw [h, requireSlot_some hslot, check_ok_bind, validate_of_spells hw hn, check_ok_bind]

end

/-! ### A command that checks a range of its vector -/

section
variable {i : Instr} {s : State} {a : Slot} {v : PackedVector} {start count : Word}
  {rest : PackedVector → Nat × Nat → Except Failure Effect}

theorem rangeErrors_of_rangeCheck
    (h : exec i s = s.finish (requireSlot s a >>= fun u =>
      rangeCheck u.size (signedOperand start) (signedOperand count) >>= rest u))
    (hslot : s.slot a = some v) : RangeErrors i s v.size start count := by
  rw [requireSlot_some hslot, check_ok_bind] at h
  refine ⟨fun hstart => ?_, fun hstart hcount => ?_, fun hstart hcount hsum => ?_⟩
  · rw [rangeCheck_of_start_outside hstart, check_error_bind] at h
    exact raises_of_error (statusWord_values .indexBounds) h
  · obtain ⟨b, hstart, hb⟩ := spells_of_not_outside hstart
    rw [rangeCheck_of_count_outside hstart hb hcount, check_error_bind] at h
    exact raises_of_error (statusWord_values .indexBounds) h
  · obtain ⟨b, hstart, hb⟩ := spells_of_not_outside hstart
    obtain ⟨n, hcount, hn⟩ := spells_of_not_outside hcount
    have hexceeded : v.size < b + n := by rw [hstart, hcount] at hsum; omega
    rw [rangeCheck_of_exceeded hstart hb hcount hn hexceeded, check_error_bind] at h
    exact raises_of_error (statusWord_values .rangeExceeded) h

theorem exec_of_range {b n : Nat}
    (h : exec i s = s.finish (requireSlot s a >>= fun u =>
      rangeCheck u.size (signedOperand start) (signedOperand count) >>= rest u))
    (hslot : s.slot a = some v) (hstart : Spells start b) (hcount : Spells count n) (hb : b < v.size)
    (hsum : b + n ≤ v.size) : exec i s = s.finish (rest v (b, n)) := by
  rw [h, requireSlot_some hslot, check_ok_bind, rangeCheck_of_spells hstart hb hcount hsum, check_ok_bind]

end

end Sys2Proof.Machine
end

section
/-! What the bit and range commands leave in a vector, for every index, padding included (41_bit_range.md). -/

namespace Sys2Proof.Machine

variable {v : PackedVector} {n : Nat}

/-! ### One bit (R122, R123) -/

theorem PackedVector.memRead_maskedWrite_of_ne (h : Memory.wf v.words = true) {k j : Nat} (hj : j ≠ k) (m : Word)
    (val : Bool) : (v.maskedWrite k m val).memRead j = v.memRead j := by
  unfold PackedVector.maskedWrite
  split <;> rw [PackedVector.memRead_memWrite h, if_neg hj]

/-- The vector `TGLB` stores: the bit's word XOR its mask (R123). -/
def PackedVector.toggleBit (v : PackedVector) (n : Nat) : PackedVector :=
  v.memWrite (chunk n) (v.memRead (chunk n) ^^^ bitmask n)

@[simp] theorem PackedVector.toggleBit_size (v : PackedVector) (n : Nat) : (v.toggleBit n).size = v.size := rfl

theorem PackedVector.toggleBit_wf (h : v.wf = true) (hn : n < v.size) : (v.toggleBit n).wf = true := toggle_wf h hn

theorem PackedVector.bit_toggleBit (h : v.wf = true) (n j : Nat) :
    (v.toggleBit n).bit j = if j = n then !v.bit j else v.bit j := bit_toggle h n j

/-- The bit `TGLB` reads back from the word it wrote. -/
theorem xor_bitmask_getLsbD_off (w : Word) (n : Nat) : (w ^^^ bitmask n).getLsbD (off n) = !w.getLsbD (off n) := by
  rw [BitVec.getLsbD_xor, bitmask_getLsbD, decide_eq_true rfl, Bool.xor_true]

theorem PackedVector.toggleBit_toggleBit (h : v.wf = true) (hn : n < v.size) : (v.toggleBit n).toggleBit n = v := by
  have hwf := PackedVector.toggleBit_wf h hn
  refine PackedVector.ext_bits (PackedVector.toggleBit_wf hwf hn) h rfl fun j _ => ?_
  rw [PackedVector.bit_toggleBit hwf, PackedVector.bit_toggleBit h]
  by_cases hj : j = n
  · rw [if_pos hj, if_pos hj, Bool.not_not]
  · rw [if_neg hj, if_neg hj]

/-! ### Bits one after another (R126) -/

/-- The vector after writing `val` to the indices of a list, one masked write each. -/
def PackedVector.setEach (v : PackedVector) (val : Bool) : List Nat → PackedVector
  | [] => v
  | k :: l => (v.maskedWrite (chunk k) (bitmask k) val).setEach val l

@[simp] theorem PackedVector.setEach_size (v : PackedVector) (val : Bool) (l : List Nat) :
    (v.setEach val l).size = v.size := by
  induction l generalizing v with
  | nil => rfl
  | cons k l ih => rw [PackedVector.setEach, ih, PackedVector.maskedWrite_size]

theorem PackedVector.setEach_wf (h : v.wf = true) (val : Bool) {l : List Nat} (hl : ∀ k ∈ l, k < v.size) :
    (v.setEach val l).wf = true := by
  induction l generalizing v with
  | nil => exact h
  | cons k l ih =>
    obtain ⟨hk, hl⟩ := List.forall_mem_cons.1 hl
    exact ih (maskedWrite_bitmask_wf h hk val) (by simpa using hl)

theorem PackedVector.bit_setEach (h : v.wf = true) (val : Bool) {l : List Nat} (hl : ∀ k ∈ l, k < v.size) (j : Nat) :
    (v.setEach val l).bit j = if j ∈ l then val else v.bit j := by
  induction l generalizing v with
  | nil => simp [PackedVector.setEach]
  | cons k l ih =>
    obtain ⟨hk, hl⟩ := List.forall_mem_cons.1 hl
    rw [PackedVector.setEach, ih (maskedWrite_bitmask_wf h hk val) (by simpa using hl), bit_maskedWrite_bitmask h]
    by_cases hj : j = k <;> simp [hj]

/-! ### A range (R126) -/

/-- The indices of the range `[b, b + n)`, ascending. -/
theorem mem_map_add_range {b n j : Nat} : j ∈ (List.range n).map (fun k => b + k) ↔ b ≤ j ∧ j < b + n := by
  rw [← List.range'_eq_map_range, List.mem_range'_1]

theorem lt_of_mem_map_add_range {b n m k : Nat} (h : b + n ≤ m) (hk : k ∈ (List.range n).map (fun k => b + k)) :
    k < m :=
  (mem_map_add_range.1 hk).2.trans_le h

theorem PackedVector.bit_setRange_all (h : v.wf = true) {b : Nat} (hs : b + n ≤ v.size) (val : Bool) (j : Nat) :
    (v.setRange b n val).bit j = if b ≤ j ∧ j < b + n then val else v.bit j := by
  by_cases hj : j < v.size
  · exact PackedVector.bit_setRange h hs val hj
  · have hle : v.size ≤ j := Nat.le_of_not_lt hj
    rw [if_neg (by omega), PackedVector.bit_beyond h hle,
      PackedVector.bit_beyond (PackedVector.setRange_wf h hs val) (by simpa using hle)]

/-- The range walk and the bit-by-bit writes leave the same vector (R126). -/
theorem PackedVector.setEach_range (h : v.wf = true) {b : Nat} (hs : b + n ≤ v.size) (val : Bool) :
    v.setEach val ((List.range n).map (fun k => b + k)) = v.setRange b n val := by
  have hl : ∀ k ∈ (List.range n).map (fun k => b + k), k < v.size := fun k => lt_of_mem_map_add_range hs
  refine PackedVector.ext_bits (PackedVector.setEach_wf h val hl) (PackedVector.setRange_wf h hs val) (by simp)
    fun j _ => ?_
  rw [PackedVector.bit_setEach h val hl, PackedVector.bit_setRange_all h hs]
  simp only [mem_map_add_range]

/-! ### Every bit (R127) -/

theorem fill_bit_all (h : v.wf = true) (val : Bool) (j : Nat) :
    (v.assignWords val 0 v.wordCount).maskTail.bit j = (val && decide (j < v.size)) := by
  by_cases hj : j < v.size
  · rw [fill_bit h val hj, decide_eq_true hj, Bool.and_true]
  · rw [PackedVector.bit_beyond (fill_wf h val) (by simpa using hj), decide_eq_false hj, Bool.and_false]

/-- The last word of a vector filled with true is all ones under the tail mask. -/
theorem fill_true_memRead_last (h : v.wf = true) :
    (v.assignWords true 0 v.wordCount).maskTail.memRead (v.wordCount - 1) = v.tailMask := by
  obtain ⟨hmin, -, hcanonical, -⟩ := (PackedVector.wf_iff v).1 h
  have hpos : 1 ≤ v.wordCount := wordCount_pos hmin
  have hstored := PackedVector.assignWords_stored (PackedVector.wf_stored h) true 0 v.wordCount (by omega)
  have hcount : (v.assignWords true 0 v.wordCount).wordCount = v.wordCount := by simp [PackedVector.wordCount]
  have hmask : (v.assignWords true 0 v.wordCount).tailMask = v.tailMask := by simp [PackedVector.tailMask]
  rw [PackedVector.memRead_maskTail hstored.1, hcount, if_pos rfl, hmask, PackedVector.memRead_assignWords hcanonical,
    if_pos (by omega)]
  exact BitVec.allOnes_and

end Sys2Proof.Machine
end

section
/-! The bit and range commands past their checks, and sequences of them (41_bit_range.md). -/

namespace Sys2Proof.Machine
open Sys2Proof.Claims

variable {s : State} {vd va : Slot} {v : PackedVector} {i start count : Word} {b n : Nat}

/-! ### Single commands -/

theorem getb_answers (hslot : s.slot va = some v) (hi : Spells i n) (hn : n < v.size) :
    Answers (.getb va i) s (boolWord (v.bit n)) [] :=
  answers_of_ok (exec_of_index (i := .getb va i) rfl hslot hi hn :)

theorem setb_stores (hslot : s.slot vd = some v) (hi : Spells i n) (hn : n < v.size) (val : Bool) :
    Stores (.setb vd val i) s vd (some (v.maskedWrite (chunk n) (bitmask n) val)) 0 :=
  ⟨_, exec_setb_of_index hslot hi hn val, s.update_stored vd _ 0⟩

theorem tglb_stores (hslot : s.slot vd = some v) (hi : Spells i n) (hn : n < v.size) :
    Stores (.tglb vd i) s vd (some (v.toggleBit n)) (boolWord (!v.bit n)) := by
  have h := exec_of_index (i := .tglb vd i) rfl hslot hi hn
  simp only [xor_bitmask_getLsbD_off] at h
  exact stores_of_ok h

theorem getr_answers (hslot : s.slot va = some v) (hstart : Spells start b) (hcount : Spells count n) (hb : b < v.size)
    (hsum : b + n ≤ v.size) : Answers (.getr va start count) s (BitVec.ofNat 32 n) (rangeBeats v b n) := by
  have h := exec_of_range (i := .getr va start count) rfl hslot hstart hcount hb hsum
  rw [wordOf_natCast] at h
  exact answers_of_ok h

theorem setr_stores (hslot : s.slot vd = some v) (hstart : Spells start b) (hcount : Spells count n) (hb : b < v.size)
    (hsum : b + n ≤ v.size) (val : Bool) :
    Stores (.setr vd val start count) s vd (some (v.setRange b n val)) 0 :=
  stores_of_ok (exec_of_range (i := .setr vd val start count) rfl hslot hstart hcount hb hsum :)

theorem fill_stores (hslot : s.slot vd = some v) (val : Bool) :
    Stores (.fill vd val) s vd (some (v.assignWords val 0 v.wordCount).maskTail) 0 := by
  apply stores_of_ok
  show execFill vd val s = _
  rw [execFill, requireSlot_some hslot, check_ok_bind]

/-! ### Sequences -/

theorem runCommands_cons {c : Instr} {t : State} (h : exec c s = .next t) (is : List Instr) :
    runCommands (c :: is) s = runCommands is t := by
  rw [runCommands, h]

theorem vectorAfter_cons {c : Instr} {t : State} (h : exec c s = .next t) (is : List Instr) (d : Slot) :
    vectorAfter (c :: is) s d = vectorAfter is t d := by
  rw [vectorAfter, runCommands_cons h, vectorAfter]

theorem vectorAfter_singleton {c : Instr} {d : Slot} {u : Option PackedVector} {res : Word} (h : Stores c s d u res) :
    vectorAfter [c] s d = u := by
  obtain ⟨t, hexec, hself, -⟩ := h
  rw [vectorAfter_cons hexec]
  exact hself

/-- Every index of a legal vector is below 2^31, so its word spells it (R22, R73). -/
theorem spells_ofNat_of_index (h : v.wf = true) {k : Nat} (hk : k < v.size) : Spells (BitVec.ofNat 32 k) k := by
  obtain ⟨-, hmax, -⟩ := (PackedVector.wf_iff v).1 h
  unfold Config.maxSafeSize at hmax
  have hnat : (BitVec.ofNat 32 k).toNat = k := (BitVec.toNat_ofNat k 32).trans (Nat.mod_eq_of_lt (by omega))
  rw [Spells, BitVec.toInt_eq_toNat_of_lt (by rw [hnat]; omega), hnat]

/-- Successive `SETB` write the bits one after another (R122). -/
theorem vectorAfter_setbs (hslot : s.slot vd = some v) (h : v.wf = true) (val : Bool) {l : List Nat}
    (hl : ∀ k ∈ l, k < v.size) :
    vectorAfter (l.map fun k => .setb vd val (BitVec.ofNat 32 k)) s vd = some (v.setEach val l) := by
  induction l generalizing s v with
  | nil => exact hslot
  | cons k l ih =>
    obtain ⟨hk, hl⟩ := List.forall_mem_cons.1 hl
    obtain ⟨t, hexec, hself, -⟩ := setb_stores hslot (spells_ofNat_of_index h hk) hk val
    rw [List.map_cons, vectorAfter_cons hexec]
    exact ih hself (maskedWrite_bitmask_wf h hk val) (by simpa using hl)

end Sys2Proof.Machine
end

section
/-! The statements about single bits and ranges. -/

namespace Sys2Proof.Proofs
open Sys2Proof.Machine Sys2Proof.Claims

/-- Settles O29: past the index check, the bit of the index's word answers. -/
theorem getbAnswersTheBit : Obligations.GetbAnswersTheBit := by
  unfold Obligations.GetbAnswersTheBit
  intro s va i
  refine ⟨fun x => decodes_of_row (op := 0x10) rfl (by decide) rfl (by simp), needsSlot_of_requireSlot rfl, fun v hv =>
    ⟨raises_of_index_outside rfl hv, fun n hi hn => ?_⟩⟩
  have h := getb_answers hv hi hn
  rwa [PackedVector.bit, boolWord_getLsbD] at h

/-- Settles O30: the masked write under the index's bit mask. -/
theorem setbWritesOneBit : Obligations.SetbWritesOneBit := by
  unfold Obligations.SetbWritesOneBit
  intro s vd val i
  refine ⟨fun x => decodes_of_row (op := 0x11) rfl (by decide) rfl (by simp), needsSlot_of_requireSlot rfl,
    fun v hv hwf => ⟨raises_of_index_outside rfl hv, fun n hi hn => ?_⟩⟩
  exact ⟨_, setb_stores hv hi hn val, v.maskedWrite_size _ _ _, maskedWrite_bitmask_wf hwf hn val,
    bit_maskedWrite_bitmask hwf n val,
    fun k hk => PackedVector.memRead_maskedWrite_of_ne (PackedVector.wf_stored hwf).1 hk _ val⟩

/-- Settles O31: the vector `SETB` stores is the one `GETB` reads. -/
theorem getbAfterSetb : Obligations.GetbAfterSetb := by
  unfold Obligations.GetbAfterSetb
  intro s a v val i hv hwf hmin hmax
  obtain ⟨n, hi, hn⟩ := spells_of_not_outside (not_not.2 ⟨hmin, hmax⟩)
  obtain ⟨t, hsetb, hself, -⟩ := setb_stores hv hi hn val
  obtain ⟨t', hgetb, -, hsuccess, -⟩ := getb_answers hself hi (by simpa using hn)
  obtain ⟨hstatus, hres, -⟩ := hsuccess
  refine ⟨t', ?_, hstatus, ?_⟩
  · rw [runCommands_cons hsetb, runCommands_cons hgetb, runCommands]
  · rw [hres, bit_maskedWrite_bitmask hwf, if_pos rfl, boolWord]

/-- Settles O32: the toggled bit is the one `RES` reports. -/
theorem tglbInvertsOneBit : Obligations.TglbInvertsOneBit := by
  unfold Obligations.TglbInvertsOneBit
  intro s vd i
  refine ⟨fun x => decodes_of_row (op := 0x12) rfl (by decide) rfl (by simp), needsSlot_of_requireSlot rfl,
    fun v hv hwf => ⟨raises_of_index_outside rfl hv, fun n hi hn => ⟨v.toggleBit n, ?_, v.toggleBit_size n,
      PackedVector.toggleBit_wf hwf hn, PackedVector.bit_toggleBit hwf n⟩⟩⟩
  have h := tglb_stores hv hi hn
  cases hbit : v.bit n <;> simpa [hbit, boolWord] using h

/-- Settles O33: toggling is its own inverse on well-formed vectors. -/
theorem tglbTwiceRestores : Obligations.TglbTwiceRestores := by
  unfold Obligations.TglbTwiceRestores
  intro s vd v i hv hwf hmin hmax
  obtain ⟨n, hi, hn⟩ := spells_of_not_outside (not_not.2 ⟨hmin, hmax⟩)
  obtain ⟨t, hexec, hself, -⟩ := tglb_stores hv hi hn
  rw [vectorAfter_cons hexec, vectorAfter_singleton (tglb_stores hself hi hn), PackedVector.toggleBit_toggleBit hwf hn]

/-- Settles O34: the range check decides between its three errors and the beats. -/
theorem getrDeliversTheRange : Obligations.GetrDeliversTheRange := by
  unfold Obligations.GetrDeliversTheRange
  intro s va start count
  exact ⟨decodes_of_row (op := 0x13) rfl (by decide) rfl (by simp), needsSlot_of_requireSlot rfl, fun v hv _ =>
    ⟨rangeErrors_of_rangeCheck rfl hv, fun b n => getr_answers hv⟩⟩

/-- Settles O35: the range check decides between its three errors and the range walk. -/
theorem setrWritesTheRange : Obligations.SetrWritesTheRange := by
  unfold Obligations.SetrWritesTheRange
  intro s vd val start count
  exact ⟨decodes_of_row (op := 0x14) rfl (by decide) rfl (by simp), needsSlot_of_requireSlot rfl, fun v hv hwf =>
    ⟨rangeErrors_of_rangeCheck rfl hv, fun b n hstart hcount hb hsum =>
      ⟨v.setRange b n val, setr_stores hv hstart hcount hb hsum val, v.setRange_size b n val,
        PackedVector.setRange_wf hwf hsum val, PackedVector.bit_setRange_all hwf hsum val⟩⟩⟩

/-- Settles O36: both leave the vector of the range walk. -/
theorem setrEqualsSuccessiveSetb : Obligations.SetrEqualsSuccessiveSetb := by
  unfold Obligations.SetrEqualsSuccessiveSetb
  intro s vd v val start count b n hv hwf hstart hcount hb hsum
  have hsetbs := vectorAfter_setbs hv hwf val fun k => lt_of_mem_map_add_range hsum
  rw [List.map_map, PackedVector.setEach_range hwf hsum] at hsetbs
  exact ⟨_, vectorAfter_singleton (setr_stores hv hstart hcount hb hsum val), hsetbs⟩

/-- Settles O37: past the slot check, every word is assigned and the last one tail-masked. -/
theorem fillSetsEveryBit : Obligations.FillSetsEveryBit := by
  unfold Obligations.FillSetsEveryBit
  intro s vd val
  refine ⟨fun x y => decodes_of_row (op := 0x15) rfl (by decide) rfl (by simp), needsSlot_of_requireSlot rfl,
    fun v hv hwf => ⟨_, fill_stores hv val, by simp, fill_wf hwf val, fill_bit_all hwf val, ?_⟩⟩
  rintro rfl
  exact fill_true_memRead_last hwf

end Sys2Proof.Proofs
end

section
/-! Set algebra on vectors, bit by bit: what decides the result of a word function, and the laws of R152 as equalities of
vectors (42_bitwise.md). -/

namespace Sys2Proof.Machine

/-- The word function `f` does to every bit of its operands what `p` does to two Booleans. -/
def ActsBitwise (f : Word → Word → Word) (p : Bool → Bool → Bool) : Prop :=
  ∀ x y k, k < 32 → (f x y).getLsbD k = p (x.getLsbD k) (y.getLsbD k)

/-! ### The word functions of R143 to R149 -/

theorem andWord_actsBitwise : ActsBitwise andWord fun x y => x && y := fun _ _ _ _ => BitVec.getLsbD_and

theorem orWord_actsBitwise : ActsBitwise orWord fun x y => x || y := fun _ _ _ _ => BitVec.getLsbD_or

theorem xorWord_actsBitwise : ActsBitwise xorWord fun x y => x != y := fun _ _ _ _ => BitVec.getLsbD_xor

theorem not_actsBitwise {f : Word → Word → Word} {p : Bool → Bool → Bool} (h : ActsBitwise f p) :
    ActsBitwise (fun x y => ~~~(f x y)) fun x y => !p x y := by
  intro x y k hk
  rw [BitVec.getLsbD_not, decide_eq_true hk, Bool.true_and, h x y k hk]

theorem nandWord_actsBitwise : ActsBitwise nandWord fun x y => !(x && y) := not_actsBitwise andWord_actsBitwise

theorem norWord_actsBitwise : ActsBitwise norWord fun x y => !(x || y) := not_actsBitwise orWord_actsBitwise

theorem xnorWord_actsBitwise : ActsBitwise xnorWord fun x y => x == y := by
  intro x y k hk
  have h : (xnorWord x y).getLsbD k = !(x.getLsbD k != y.getLsbD k) := not_actsBitwise xorWord_actsBitwise x y k hk
  rw [h, bne, Bool.not_not]

theorem diffWord_actsBitwise : ActsBitwise diffWord fun x y => x && !y := by
  intro x y k hk
  rw [diffWord, BitVec.getLsbD_and, BitVec.getLsbD_not, decide_eq_true hk, Bool.true_and]

/-! ### The vectors of the commands -/

section
variable {a b : PackedVector} {f g : Word → Word → Word} {p q : Bool → Bool → Bool}

theorem combine_bit_of_actsBitwise (hf : ActsBitwise f p) {i : Nat} (hi : i < a.size) :
    (combine f a b).bit i = p (a.bit i) (b.bit i) := by
  rw [combine_bit hi, hf _ _ _ (off_lt i), PackedVector.bit, PackedVector.bit]

theorem complement_bit_all (ha : a.wf = true) (i : Nat) : (complement a).bit i = (decide (i < a.size) && !a.bit i) := by
  by_cases hi : i < a.size
  · rw [complement_bit hi, decide_eq_true hi, Bool.true_and]
  · rw [PackedVector.bit_beyond (complement_wf ha) (by simpa using hi), decide_eq_false hi, Bool.false_and]

/-- The result of a word function is the one well-formed vector with its size and its bits. -/
theorem combine_eq_of_bits {u : PackedVector} (ha : a.wf = true) (hf : ActsBitwise f p) (hu : u.wf = true)
    (hsize : u.size = a.size) (hbits : ∀ i, i < a.size → u.bit i = p (a.bit i) (b.bit i)) : combine f a b = u :=
  PackedVector.ext_bits (combine_wf ha f) hu hsize.symm fun i hi => by
    rw [combine_bit_of_actsBitwise (a := a) hf hi, hbits i hi]

/-! ### The laws of R152 -/

theorem complement_complement (ha : a.wf = true) : complement (complement a) = a := by
  refine PackedVector.ext_bits (complement_wf (complement_wf ha)) ha rfl fun i hi => ?_
  rw [complement_bit (a := complement a) hi, complement_bit (a := a) hi, Bool.not_not]

theorem complement_combine (ha : a.wf = true) (hf : ActsBitwise f p) (hg : ActsBitwise g fun x y => !p x y) :
    complement (combine f a b) = combine g a b := by
  refine (combine_eq_of_bits ha hg (complement_wf (combine_wf ha f)) rfl fun i hi => ?_).symm
  rw [complement_bit (a := combine f a b) hi, combine_bit_of_actsBitwise hf hi]

theorem combine_complements (ha : a.wf = true) (hsize : a.size = b.size) (hf : ActsBitwise f p) (hg : ActsBitwise g q)
    (hdual : ∀ x y, p (!x) (!y) = q x y) : combine f (complement a) (complement b) = combine g a b := by
  refine (combine_eq_of_bits ha hg (combine_wf (complement_wf ha) f) rfl fun i hi => ?_).symm
  rw [combine_bit_of_actsBitwise (a := complement a) hf hi, complement_bit hi, complement_bit (hsize ▸ hi), hdual]

theorem combine_self_of_idempotent (ha : a.wf = true) (hf : ActsBitwise f p) (hidem : ∀ x, p x x = x) :
    combine f a a = a :=
  combine_eq_of_bits ha hf ha rfl fun i _ => (hidem (a.bit i)).symm

theorem combine_self_of_annihilating (ha : a.wf = true) (hf : ActsBitwise f p) (hnil : ∀ x, p x x = false) :
    combine f a a = zeroVector a.size := by
  obtain ⟨hmin, hmax, -⟩ := (PackedVector.wf_iff a).1 ha
  refine combine_eq_of_bits ha hf (zeroVector_wf hmin hmax) rfl fun i _ => ?_
  rw [zeroVector_bit, hnil]

end

/-! ### Comparison (R151) -/

/-- Under the tail mask stands every logical bit of the last word. -/
theorem PackedVector.bit_eq_of_masked_last {a b : PackedVector} {i : Nat} (hi : i < a.size)
    (hlast : chunk i = a.wordCount - 1)
    (h : a.memRead (a.wordCount - 1) &&& a.tailMask = b.memRead (a.wordCount - 1) &&& a.tailMask) :
    a.bit i = b.bit i := by
  have hmask : a.tailMask.getLsbD (off i) = true := by
    have hsplit : 32 * (Machine.wordCount a.size - 1) + off i = i := by
      rw [← PackedVector.wordCount, ← hlast, chunk_add_off]
    rw [PackedVector.tailMask, tailMask_getLsbD (by omega) _ (off_lt i), hsplit, decide_eq_true hi]
  have hbit := congrArg (fun w => w.getLsbD (off i)) h
  simpa [hmask, PackedVector.bit, hlast] using hbit

/-- The word comparison decides equality of the logical bits: the full words hold all bits but those of the last word. -/
theorem equalVectors_iff {a b : PackedVector} (ha : a.wf = true) (hb : b.wf = true) :
    equalVectors a b = true ↔ a.size = b.size ∧ ∀ i, i < a.size → a.bit i = b.bit i := by
  constructor
  · intro h
    unfold equalVectors at h
    split at h
    case isTrue => cases h
    case isFalse hsize =>
      simp only [Bool.and_eq_true, List.all_eq_true, List.mem_range, beq_iff_eq] at h
      obtain ⟨hfull, hlast⟩ := h
      refine ⟨not_not.1 hsize, fun i hi => ?_⟩
      by_cases hk : chunk i < a.wordCount - 1
      · rw [PackedVector.bit, hfull _ hk, PackedVector.bit]
      · have hlt : chunk i < a.wordCount := chunk_lt_wordCount hi
        exact PackedVector.bit_eq_of_masked_last hi (by omega) hlast
  · rintro ⟨hsize, hbits⟩
    obtain rfl := PackedVector.ext_bits ha hb hsize hbits
    simp [equalVectors]

end Sys2Proof.Machine
end

section
/-! The set-algebra commands, one lemma per verdict of their checks, and the sequences of R152 (42_bitwise.md). -/

namespace Sys2Proof.Machine
open Sys2Proof.Claims

/-- A command whose second check is of slot `b` needs a vector there once slot `a` holds one (R141, R151). -/
theorem needsSlot_of_second_requireSlot {i : Instr} {s : State} {a b : Slot} {v : PackedVector}
    {rest : PackedVector → PackedVector → Except Failure Effect}
    (h : exec i s = s.finish (requireSlot s a >>= fun u => requireSlot s b >>= rest u)) (ha : s.slot a = some v) :
    NeedsSlot i s b := by
  rw [requireSlot_some ha, check_ok_bind] at h
  exact needsSlot_of_requireSlot h

/-! ### The binary commands (R141) -/

/-- The command `c` runs the common template of R141 with a word function that acts as `p` on every bit. -/
structure BinaryMeaning (c : Slot → Slot → Slot → Instr) (f : Word → Word → Word) (p : Bool → Bool → Bool) : Prop where
  exec_eq : ∀ vd va vb s, exec (c vd va vb) s = binaryCommand f vd va vb s
  bitwise : ActsBitwise f p

theorem and_meaning : BinaryMeaning .and andWord fun x y => x && y := ⟨fun _ _ _ _ => rfl, andWord_actsBitwise⟩

theorem or_meaning : BinaryMeaning .or orWord fun x y => x || y := ⟨fun _ _ _ _ => rfl, orWord_actsBitwise⟩

theorem xor_meaning : BinaryMeaning .xor xorWord fun x y => x != y := ⟨fun _ _ _ _ => rfl, xorWord_actsBitwise⟩

theorem nand_meaning : BinaryMeaning .nand nandWord fun x y => !(x && y) := ⟨fun _ _ _ _ => rfl, nandWord_actsBitwise⟩

theorem nor_meaning : BinaryMeaning .nor norWord fun x y => !(x || y) := ⟨fun _ _ _ _ => rfl, norWord_actsBitwise⟩

theorem xnor_meaning : BinaryMeaning .xnor xnorWord fun x y => x == y := ⟨fun _ _ _ _ => rfl, xnorWord_actsBitwise⟩

theorem diff_meaning : BinaryMeaning .diff diffWord fun x y => x && !y := ⟨fun _ _ _ _ => rfl, diffWord_actsBitwise⟩

/-- The one-bit function that R143 to R149 give a command is that of its word function. -/
theorem binaryCommands_meaning : ∀ c ∈ binaryCommands, ∃ f, BinaryMeaning c.1 f c.2.2 := by
  simp only [binaryCommands, List.forall_mem_cons]
  exact ⟨⟨_, and_meaning⟩, ⟨_, or_meaning⟩, ⟨_, xor_meaning⟩, ⟨_, nand_meaning⟩, ⟨_, nor_meaning⟩, ⟨_, xnor_meaning⟩,
    ⟨_, diff_meaning⟩, fun _ hnil => absurd hnil List.not_mem_nil⟩

/-- The opcodes of R143 to R149 spell the seven commands, with any operand words. -/
theorem decodes_binaryCommands (vd va vb : Slot) (x y : Word) :
    ∀ c ∈ binaryCommands, Decodes ⟨commandWord c.2.1 vd va vb false, x, y, []⟩ (c.1 vd va vb) := by
  simp only [binaryCommands, List.forall_mem_cons]
  refine ⟨?_, ?_, ?_, ?_, ?_, ?_, ?_, fun _ hnil => absurd hnil List.not_mem_nil⟩
  · exact decodes_of_row (op := 0x20) rfl (by decide) rfl (by simp)
  · exact decodes_of_row (op := 0x21) rfl (by decide) rfl (by simp)
  · exact decodes_of_row (op := 0x22) rfl (by decide) rfl (by simp)
  · exact decodes_of_row (op := 0x23) rfl (by decide) rfl (by simp)
  · exact decodes_of_row (op := 0x24) rfl (by decide) rfl (by simp)
  · exact decodes_of_row (op := 0x25) rfl (by decide) rfl (by simp)
  · exact decodes_of_row (op := 0x26) rfl (by decide) rfl (by simp)

section
variable {s : State} {vd va vb d x y e : Slot} {a b : PackedVector}

theorem checkSameSize_of_ne (h : a.size ≠ b.size) :
    checkSameSize a b = .error ⟨.sizeMismatch, BitVec.ofNat 32 b.size, BitVec.ofNat 32 a.size⟩ := by
  rw [checkSameSize, if_pos h, wordOf_natCast, wordOf_natCast]

theorem checkSameSize_of_eq (h : a.size = b.size) : checkSameSize a b = .ok () := checkSameSize_eq_ok.2 h

section
variable {c : Slot → Slot → Slot → Instr} {f : Word → Word → Word} {p : Bool → Bool → Bool}

theorem BinaryMeaning.needsSlot_left (h : BinaryMeaning c f p) : NeedsSlot (c vd va vb) s va :=
  needsSlot_of_requireSlot (h.exec_eq vd va vb s)

theorem BinaryMeaning.needsSlot_right (h : BinaryMeaning c f p) (ha : s.slot va = some a) : NeedsSlot (c vd va vb) s vb :=
  needsSlot_of_second_requireSlot (h.exec_eq vd va vb s) ha

theorem BinaryMeaning.raises_of_size_ne (h : BinaryMeaning c f p) (ha : s.slot va = some a) (hb : s.slot vb = some b)
    (hsize : a.size ≠ b.size) : Raises (c vd va vb) s 0x62 (BitVec.ofNat 32 b.size) (BitVec.ofNat 32 a.size) := by
  apply raises_of_error (statusWord_values .sizeMismatch)
  rw [h.exec_eq, binaryCommand, requireSlot_some ha, check_ok_bind, requireSlot_some hb, check_ok_bind,
    checkSameSize_of_ne hsize, check_error_bind]

theorem BinaryMeaning.stores (h : BinaryMeaning c f p) (ha : s.slot va = some a) (hb : s.slot vb = some b)
    (hsize : a.size = b.size) : Stores (c vd va vb) s vd (some (combine f a b)) 0 := by
  apply stores_of_ok
  rw [h.exec_eq, binaryCommand, requireSlot_some ha, check_ok_bind, requireSlot_some hb, check_ok_bind,
    checkSameSize_of_eq hsize, check_ok_bind]

end

/-! ### `NOT` and `EQ` (R150, R151) -/

theorem not_stores (ha : s.slot va = some a) : Stores (.not vd va) s vd (some (complement a)) 0 := by
  apply stores_of_ok
  show execNot vd va s = _
  rw [execNot, requireSlot_some ha, check_ok_bind]

theorem eq_answers (ha : s.slot va = some a) (hb : s.slot vb = some b) :
    Answers (.eq va vb) s (boolWord (equalVectors a b)) [] := by
  apply answers_of_ok
  show execEq va vb s = _
  rw [execEq, requireSlot_some ha, check_ok_bind, requireSlot_some hb, check_ok_bind]

/-! ### The sequences of R152 -/

theorem vectorAfter_not_not (hx : s.slot x = some a) (ha : a.wf = true) :
    vectorAfter [.not d x, .not d d] s d = some a := by
  obtain ⟨t, hexec, hself, -⟩ := not_stores (vd := d) hx
  rw [vectorAfter_cons hexec, vectorAfter_singleton (not_stores hself), complement_complement ha]

section
variable {c cDual cNeg : Slot → Slot → Slot → Instr} {f fDual fNeg : Word → Word → Word}
  {p pDual : Bool → Bool → Bool}

theorem BinaryMeaning.vectorAfter_then_not (h : BinaryMeaning c f p) (hx : s.slot x = some a) (hy : s.slot y = some b)
    (hsize : a.size = b.size) : vectorAfter [c d x y, .not d d] s d = some (complement (combine f a b)) := by
  obtain ⟨t, hexec, hself, -⟩ := h.stores (vd := d) hx hy hsize
  rw [vectorAfter_cons hexec, vectorAfter_singleton (not_stores hself)]

/-- The second `NOT` finds its source as the first left it, and leaves the first result in its slot. -/
theorem BinaryMeaning.vectorAfter_of_nots (h : BinaryMeaning c f p) (hx : s.slot x = some a) (hy : s.slot y = some b)
    (hsize : a.size = b.size) (hde : d ≠ e) (hdy : d ≠ y) :
    vectorAfter [.not d x, .not e y, c d d e] s d = some (combine f (complement a) (complement b)) := by
  obtain ⟨t, hexec, hself, hother, -⟩ := not_stores (vd := d) hx
  have hy' : t.slot y = some b := (hother y hdy.symm).trans hy
  obtain ⟨t', hexec', hself', hother', -⟩ := not_stores (vd := e) hy'
  have hd : t'.slot d = some (complement a) := (hother' d hde).trans hself
  rw [vectorAfter_cons hexec, vectorAfter_cons hexec', vectorAfter_singleton (h.stores hd hself' hsize)]

/-- De Morgan as commands: the complement of a result, the dual command on the complements, and the negated command leave
the same vector. -/
theorem BinaryMeaning.deMorgan (h : BinaryMeaning c f p) (hDual : BinaryMeaning cDual fDual pDual)
    (hNeg : BinaryMeaning cNeg fNeg fun x y => !p x y) (hdual : ∀ x y, pDual (!x) (!y) = !p x y)
    (hx : s.slot x = some a) (hy : s.slot y = some b) (ha : a.wf = true) (hsize : a.size = b.size) (hde : d ≠ e)
    (hdy : d ≠ y) :
    ∃ u, vectorAfter [c d x y, .not d d] s d = some u ∧ vectorAfter [.not d x, .not e y, cDual d d e] s d = some u ∧
      vectorAfter [cNeg d x y] s d = some u := by
  refine ⟨combine fNeg a b, ?_, ?_, vectorAfter_singleton (hNeg.stores hx hy hsize)⟩
  · rw [h.vectorAfter_then_not hx hy hsize, complement_combine ha h.bitwise hNeg.bitwise]
  · rw [hDual.vectorAfter_of_nots hx hy hsize hde hdy, combine_complements ha hsize hDual.bitwise hNeg.bitwise hdual]

theorem BinaryMeaning.vectorAfter_self_of_idempotent (h : BinaryMeaning c f p) (hidem : ∀ z, p z z = z)
    (hx : s.slot x = some a) (ha : a.wf = true) : vectorAfter [c d x x] s d = some a := by
  rw [vectorAfter_singleton (h.stores hx hx rfl), combine_self_of_idempotent ha h.bitwise hidem]

theorem BinaryMeaning.vectorAfter_self_of_annihilating (h : BinaryMeaning c f p) (hnil : ∀ z, p z z = false)
    (hx : s.slot x = some a) (ha : a.wf = true) : vectorAfter [c d x x] s d = some (zeroVector a.size) := by
  rw [vectorAfter_singleton (h.stores hx hx rfl), combine_self_of_annihilating ha h.bitwise hnil]

end

end

end Sys2Proof.Machine
end

section
/-! The statements about set algebra. -/

namespace Sys2Proof.Proofs
open Sys2Proof.Machine Sys2Proof.Claims

/-- Settles O38: the seven commands run one template, each with a word function that acts bit by bit. -/
theorem binaryCommandsCombineBits : Obligations.BinaryCommandsCombineBits := by
  unfold Obligations.BinaryCommandsCombineBits
  intro c hc s vd va vb
  obtain ⟨f, h⟩ := binaryCommands_meaning c hc
  refine ⟨fun x y => decodes_binaryCommands vd va vb x y c hc, h.needsSlot_left, fun a ha =>
    ⟨h.needsSlot_right ha, fun b hb => h.raises_of_size_ne ha hb, fun b hb hwf hsize => ?_⟩⟩
  exact ⟨combine f a b, h.stores ha hb hsize, combine_size f a b, combine_wf hwf f,
    fun i hi => combine_bit_of_actsBitwise h.bitwise hi⟩

/-- Settles O39: past the slot check, every word is complemented and the last one tail-masked. -/
theorem notComplementsBits : Obligations.NotComplementsBits := by
  unfold Obligations.NotComplementsBits
  intro s vd va
  exact ⟨fun x y => decodes_of_row (op := 0x27) rfl (by decide) rfl (by simp), needsSlot_of_requireSlot rfl,
    fun a ha hwf => ⟨complement a, not_stores ha, complement_size a, complement_wf hwf, complement_bit_all hwf⟩⟩

/-- Settles O40: the word comparison decides equality of sizes and logical bits. -/
theorem eqComparesVectors : Obligations.EqComparesVectors := by
  unfold Obligations.EqComparesVectors
  intro s va vb
  refine ⟨fun x y => decodes_of_row (op := 0x28) rfl (by decide) rfl (by simp), needsSlot_of_requireSlot rfl,
    fun a ha => ⟨needsSlot_of_second_requireSlot rfl ha, fun b hb hwfa hwfb => ?_⟩⟩
  have h := eq_answers ha hb
  rw [← equalVectors_iff hwfa hwfb]
  constructor
  · intro heq
    rwa [heq] at h
  · intro hne
    rwa [Bool.eq_false_of_not_eq_true hne] at h

/-- Settles O41: each law is one of vectors, and each sequence leaves the vector of its law. -/
theorem setAlgebraLaws : Obligations.SetAlgebraLaws := by
  unfold Obligations.SetAlgebraLaws
  intro s x y d e a b hx hy ha _ hsize hde _ hdy _ _
  refine ⟨?_, ?_, vectorAfter_not_not hx ha, ?_, ?_, ?_, ?_⟩
  · exact and_meaning.deMorgan or_meaning nand_meaning (fun z w => (Bool.not_and z w).symm) hx hy ha hsize hde hdy
  · exact or_meaning.deMorgan and_meaning nor_meaning (fun z w => (Bool.not_or z w).symm) hx hy ha hsize hde hdy
  · exact and_meaning.vectorAfter_self_of_idempotent Bool.and_self hx ha
  · exact or_meaning.vectorAfter_self_of_idempotent Bool.or_self hx ha
  · exact xor_meaning.vectorAfter_self_of_annihilating bne_self_eq_false hx ha
  · exact diff_meaning.vectorAfter_self_of_annihilating Bool.and_not_self hx ha

end Sys2Proof.Proofs
end


section
/-! The SWAR sequence of R162: lanes added in pairs until one number is left. A number is read as digits in a base, its
lanes; a step replaces every two neighbouring lanes by one of double width that holds their sum. -/

namespace Sys2Proof.Machine

/-! ### Lanes -/

/-- The sum of the lowest `n` lanes of `x`. -/
def laneSum (base : Nat) : Nat → Nat → Nat
  | 0, _ => 0
  | n + 1, x => x % base + laneSum base n (x / base)

/-- The lower lane of each of the lowest `n` pairs of lanes of `x`, each in its place. -/
def lowLanes (base : Nat) : Nat → Nat → Nat
  | 0, _ => 0
  | n + 1, x => x % base + base * base * lowLanes base n (x / (base * base))

/-- The mask that selects the lower lane of each of `n` pairs of lanes. -/
def laneMask (base : Nat) : Nat → Nat
  | 0 => 0
  | n + 1 => (base - 1) + base * base * laneMask base n

/-- The lowest `n` pairs of lanes of `x`, each replaced by the sum of its two lanes. -/
def pairSums (base n x : Nat) : Nat := lowLanes base n x + lowLanes base n (x / base)

theorem pairSums_zero (base x : Nat) : pairSums base 0 x = 0 := rfl

theorem pairSums_succ (base n x : Nat) : pairSums base (n + 1) x =
    (x % base + x / base % base) + base * base * pairSums base n (x / (base * base)) := by
  simp only [pairSums, lowLanes, Nat.div_right_comm x base]
  ring

/-- Adding lanes in pairs keeps their sum: a pair's sum fits the doubled lane. -/
theorem laneSum_pairSums {base : Nat} (hbase : 2 ≤ base) (n x : Nat) :
    laneSum (base * base) n (pairSums base n x) = laneSum base (2 * n) x := by
  induction n generalizing x with
  | zero => rfl
  | succ n ih =>
    have hlow : x % base < base := Nat.mod_lt _ (by omega)
    have hhigh : x / base % base < base := Nat.mod_lt _ (by omega)
    have hfits : x % base + x / base % base < base * base := by nlinarith
    rw [pairSums_succ, laneSum, Nat.add_mul_mod_self_left, Nat.mod_eq_of_lt hfits,
      Nat.add_mul_div_left _ _ (by omega), Nat.div_eq_of_lt hfits, Nat.zero_add, ih, ← Nat.div_div_eq_div_mul,
      show 2 * (n + 1) = 2 * n + 1 + 1 by omega, laneSum, laneSum, Nat.add_assoc]

/-- The lower and the upper lanes of all pairs make up the number. -/
theorem lowLanes_add_upper {base n x : Nat} (h : x < (base * base) ^ n) :
    lowLanes base n x + base * lowLanes base n (x / base) = x := by
  induction n generalizing x with
  | zero => simp [lowLanes] at h ⊢; omega
  | succ n ih =>
    have hrest := ih (x := x / (base * base)) (Nat.div_lt_of_lt_mul (by rwa [Nat.pow_succ'] at h))
    have hpair : x % base + base * (x / base % base) + base * base * (x / (base * base)) = x := by
      rw [← Nat.mod_mul, Nat.mod_add_div]
    simp only [lowLanes, Nat.div_right_comm x base]
    linear_combination hpair + base * base * hrest

/-- AND with the mask keeps the lower lanes. -/
theorem and_laneMask {base k : Nat} (hbase : base = 2 ^ k) (n x : Nat) : x &&& laneMask base n = lowLanes base n x := by
  subst hbase
  induction n generalizing x with
  | zero => rw [laneMask, lowLanes, Nat.and_zero]
  | succ n ih =>
    have hle : 2 ^ k ≤ 2 ^ (k + k) := Nat.pow_le_pow_right (by decide) (Nat.le_add_left k k)
    have hfits : 2 ^ k - 1 < 2 ^ (k + k) := (Nat.sub_lt Nat.one_le_two_pow one_pos).trans_le hle
    rw [laneMask, lowLanes, ← ih, ← Nat.pow_add]
    have hlow : (x &&& (2 ^ k - 1 + 2 ^ (k + k) * laneMask (2 ^ k) n)) % 2 ^ (k + k) = x % 2 ^ k := by
      rw [Nat.and_mod_two_pow, Nat.add_mul_mod_self_left, Nat.mod_eq_of_lt hfits, Nat.and_two_pow_sub_one_eq_mod,
        Nat.mod_mod_of_dvd _ (Nat.pow_dvd_pow 2 (by omega))]
    have hhigh : (x &&& (2 ^ k - 1 + 2 ^ (k + k) * laneMask (2 ^ k) n)) / 2 ^ (k + k) =
        x / 2 ^ (k + k) &&& laneMask (2 ^ k) n := by
      rw [Nat.and_div_two_pow, Nat.add_mul_div_left _ _ (Nat.two_pow_pos _), Nat.div_eq_of_lt hfits, Nat.zero_add]
    rw [← hlow, ← hhigh, Nat.mod_add_div]

/-! ### The four steps of R162 on numbers -/

theorem swar_step_one {x : Nat} (hx : x < 2 ^ 32) : x - (x / 2 &&& 0x55555555) = pairSums 2 16 x := by
  have hsplit := lowLanes_add_upper (base := 2) (n := 16) hx
  rw [show 0x55555555 = laneMask 2 16 by decide, and_laneMask (base := 2) (k := 1) rfl, pairSums]
  omega

theorem swar_step_two (x : Nat) : (x &&& 0x33333333) + (x / 4 &&& 0x33333333) = pairSums 4 8 x := by
  rw [show 0x33333333 = laneMask 4 8 by decide]
  simp only [and_laneMask (base := 4) (k := 2) rfl, pairSums]

theorem pairSums_four_lane_le (n x : Nat) : pairSums 4 n x % 16 ≤ 6 := by
  cases n with
  | zero => simp [pairSums_zero]
  | succ n => rw [pairSums_succ]; omega

theorem two_mul_pairSums_four_lt (n x : Nat) : 2 * pairSums 4 n x < 16 ^ n := by
  induction n generalizing x with
  | zero => simp [pairSums_zero]
  | succ n ih =>
    have hrest := ih (x / (4 * 4))
    rw [pairSums_succ, Nat.pow_succ]
    omega

/-- The third step masks after the addition: no sum of two lanes of the second step carries out of its lane. -/
theorem lowLanes_add_shifted (n x : Nat) :
    lowLanes 16 n (pairSums 4 (2 * n) x + pairSums 4 (2 * n) x / 16) = pairSums 16 n (pairSums 4 (2 * n) x) := by
  induction n generalizing x with
  | zero => rfl
  | succ n ih =>
    have ha : x % 4 + x / 4 % 4 ≤ 6 := by omega
    have hb : x / 16 % 4 + x / 16 / 4 % 4 ≤ 6 := by omega
    have hnext := pairSums_four_lane_le (2 * n) (x / 16 / 16)
    have hrest := ih (x / 16 / 16)
    rw [Nat.mul_succ, pairSums_succ 4, pairSums_succ 4, pairSums_succ 16, lowLanes]
    generalize x % 4 + x / 4 % 4 = a at *
    generalize x / 16 % 4 + x / 16 / 4 % 4 = b at *
    generalize pairSums 4 (2 * n) (x / 16 / 16) = p at *
    have hlane : (a + 16 * (b + 16 * p) + (a + 16 * (b + 16 * p)) / 16) % 16 = a + b := by omega
    have hsum : (a + 16 * (b + 16 * p) + (a + 16 * (b + 16 * p)) / 16) / (16 * 16) = p + p / 16 := by omega
    have hpair : (a + 16 * (b + 16 * p)) % 16 + (a + 16 * (b + 16 * p)) / 16 % 16 = a + b := by omega
    have hdiv : (a + 16 * (b + 16 * p)) / (16 * 16) = p := by omega
    rw [hlane, hsum, hpair, hdiv, hrest]

theorem swar_step_three (x : Nat) :
    (pairSums 4 8 x + pairSums 4 8 x / 16 &&& 0x0F0F0F0F) = pairSums 16 4 (pairSums 4 8 x) := by
  rw [show 0x0F0F0F0F = laneMask 16 4 by decide, and_laneMask (base := 16) (k := 4) rfl]
  exact lowLanes_add_shifted 4 x

/-- Multiplication by 0x01010101 adds four bytes in the highest one, when their sum fits it. -/
theorem top_byte_of_mul {a b c d : Nat} (h : a + b + c + d < 256) :
    (a + 256 * (b + 256 * (c + 256 * d))) * 0x01010101 % 2 ^ 32 / 2 ^ 24 = a + b + c + d := by
  have hproduct : (a + 256 * (b + 256 * (c + 256 * d))) * 0x01010101 =
      (a + 2 ^ 8 * (a + b) + 2 ^ 16 * (a + b + c) + 2 ^ 24 * (a + b + c + d)) +
        2 ^ 32 * ((b + c + d) + 2 ^ 8 * (c + d) + 2 ^ 16 * d) := by ring
  rw [hproduct, Nat.add_mul_mod_self_left, Nat.mod_eq_of_lt (by omega)]
  omega

theorem swar_step_four (x : Nat) : pairSums 16 4 x * 0x01010101 % 2 ^ 32 / 2 ^ 24 = laneSum 16 8 x := by
  simp only [pairSums_succ, pairSums_zero, laneSum, ← Nat.div_div_eq_div_mul]
  rw [Nat.mul_zero, Nat.add_zero, top_byte_of_mul (by omega)]
  omega

/-! ### The four steps on words -/

theorem toNat_swar_one (w : Word) : (w - ((w >>> 1) &&& 0x55555555)).toNat = pairSums 2 16 w.toNat := by
  have hmasked : ((w >>> 1) &&& 0x55555555).toNat = (w.toNat / 2 &&& 0x55555555) := by
    simp [Nat.shiftRight_eq_div_pow]
  have hle : (w.toNat / 2 &&& 0x55555555) ≤ w.toNat := Nat.and_le_left.trans (Nat.div_le_self _ _)
  rw [BitVec.toNat_sub_of_le (BitVec.le_def.2 (hmasked ▸ hle)), hmasked, swar_step_one w.isLt]

theorem toNat_swar_two (w : Word) :
    ((w &&& 0x33333333) + ((w >>> 2) &&& 0x33333333)).toNat = pairSums 4 8 w.toNat := by
  have hlower : w.toNat &&& 0x33333333 ≤ 0x33333333 := Nat.and_le_right
  have hupper : w.toNat / 4 &&& 0x33333333 ≤ 0x33333333 := Nat.and_le_right
  rw [← swar_step_two, BitVec.toNat_add, BitVec.toNat_and, BitVec.toNat_and, BitVec.toNat_ushiftRight,
    Nat.shiftRight_eq_div_pow]
  exact Nat.mod_eq_of_lt (by simpa using by omega)

theorem toNat_swar_three {w : Word} {x : Nat} (h : w.toNat = pairSums 4 8 x) :
    ((w + (w >>> 4)) &&& 0x0F0F0F0F).toNat = pairSums 16 4 w.toNat := by
  have hbound := two_mul_pairSums_four_lt 8 x
  have hsum : (w + (w >>> 4)).toNat = w.toNat + w.toNat / 16 := by
    rw [BitVec.toNat_add, BitVec.toNat_ushiftRight, Nat.shiftRight_eq_div_pow]
    exact Nat.mod_eq_of_lt (by omega)
  rw [BitVec.toNat_and, hsum, h]
  exact swar_step_three x

theorem toNat_swar_four {w : Word} {x : Nat} (h : w.toNat = pairSums 16 4 x) :
    ((w * 0x01010101) >>> 24).toNat = laneSum 16 8 x := by
  rw [BitVec.toNat_ushiftRight, BitVec.toNat_mul, h, Nat.shiftRight_eq_div_pow]
  exact swar_step_four x

/-- The number the sequence ends with is the sum of the bits it starts from: every step keeps the sum of the lanes. -/
theorem toNat_popcountSWAR (w : Word) : (popcountSWAR w).toNat = laneSum 2 32 w.toNat := by
  have hone := toNat_swar_one w
  have htwo := toNat_swar_two (w - ((w >>> 1) &&& 0x55555555))
  calc (popcountSWAR w).toNat
    _ = laneSum 16 8 _ := toNat_swar_four (toNat_swar_three htwo)
    _ = laneSum (4 * 4) 8 (pairSums 4 8 _) := by rw [htwo]
    _ = laneSum (2 * 2) 16 (pairSums 2 16 w.toNat) := by rw [laneSum_pairSums (by decide), hone]
    _ = laneSum 2 32 w.toNat := laneSum_pairSums (by decide) 16 w.toNat

/-! ### The number of 1 bits -/

/-- The lanes of width 1 are the bits. -/
theorem laneSum_two (n x : Nat) : laneSum 2 n x = (List.range n).countP x.testBit := by
  induction n generalizing x with
  | zero => rfl
  | succ n ih =>
    have hshift : x.testBit ∘ Nat.succ = (x / 2).testBit := funext fun b => Nat.testBit_succ x b
    rw [List.range_succ_eq_map, List.countP_cons, List.countP_map, hshift, laneSum, ih, Nat.testBit_zero, Nat.add_comm]
    rcases Nat.mod_two_eq_zero_or_one x with hbit | hbit <;> simp [hbit]

theorem popcount32_eq_countP (w : Word) : popcount32 w = (List.range 32).countP w.getLsbD :=
  List.countP_eq_length_filter.symm

theorem laneSum_two_toNat (w : Word) : laneSum 2 32 w.toNat = popcount32 w := by
  rw [laneSum_two, popcount32_eq_countP]
  rfl

end Sys2Proof.Machine
end

section
/-! The population count of a vector: the words of a search for true, bit by bit (R161). -/

namespace Sys2Proof.Machine

variable {v : PackedVector}

theorem popcount32_eq_countP_of_bits {w : Word} {p : Nat → Bool} (h : ∀ b, b < 32 → w.getLsbD b = p b) :
    popcount32 w = (List.range 32).countP p := by
  rw [popcount32_eq_countP]
  exact List.countP_congr fun b hb => by rw [h b (List.mem_range.1 hb)]

/-- Counting word by word counts every index once. -/
theorem sum_countP_words (p : Nat → Bool) (n : Nat) :
    ((List.range n).map fun k => (List.range 32).countP fun b => p (32 * k + b)).sum = (List.range (32 * n)).countP p := by
  induction n with
  | zero => rfl
  | succ n ih =>
    rw [List.range_succ (n := n), List.map_append, List.sum_append, ih, Nat.mul_succ, List.range_add, List.countP_append,
      List.countP_map]
    simp [Function.comp_def]

/-- The words that are counted are those a search for true scans. -/
theorem populationCount_eq_sum (hpos : 1 ≤ v.wordCount) :
    populationCount v = ((List.range v.wordCount).map fun k => popcount32 (searchWord v true k)).sum := by
  have hfull : ∀ k ∈ List.range (v.wordCount - 1), popcount32 (v.memRead k) = popcount32 (searchWord v true k) := by
    intro k hk
    rw [searchWord, if_pos rfl, if_neg (Nat.ne_of_lt (List.mem_range.1 hk))]
  have hlast : v.memRead (v.wordCount - 1) &&& v.tailMask = searchWord v true (v.wordCount - 1) := by
    rw [searchWord, if_pos rfl, if_pos rfl]
  obtain ⟨n, hn⟩ : ∃ n, v.wordCount = n + 1 := ⟨v.wordCount - 1, by omega⟩
  rw [populationCount, List.map_congr_left hfull, hlast, hn, Nat.add_sub_cancel, List.range_succ]
  simp

theorem populationCount_eq_countP (h : v.wf = true) : populationCount v = (List.range v.size).countP v.bit := by
  obtain ⟨hmin, -⟩ := (PackedVector.wf_iff v).1 h
  have hword : ∀ k ∈ List.range v.wordCount, popcount32 (searchWord v true k) =
      (List.range 32).countP fun b => decide (32 * k + b < v.size) && v.bit (32 * k + b) := by
    intro k hk
    refine popcount32_eq_countP_of_bits fun b hb => ?_
    rw [searchWord_getLsbD h true (List.mem_range.1 hk) hb, beq_true]
  have hsize : 32 * v.wordCount = v.size + (32 * v.wordCount - v.size) := by
    unfold PackedVector.wordCount wordCount
    omega
  rw [populationCount_eq_sum (wordCount_pos hmin), List.map_congr_left hword,
    sum_countP_words (fun i => decide (i < v.size) && v.bit i), hsize, List.range_add, List.countP_append]
  have hpadding : ((List.range (32 * v.wordCount - v.size)).map (v.size + ·)).countP
      (fun i => decide (i < v.size) && v.bit i) = 0 := by
    rw [List.countP_eq_zero]
    simp
  rw [hpadding, Nat.add_zero]
  exact List.countP_congr fun i hi => by simp [List.mem_range.1 hi]

end Sys2Proof.Machine
end

section
/-! The searches of a vector: the least and the greatest index of an interval that holds the searched value (R163, R165). -/

namespace Sys2Proof.Machine

/-- The indices in `[lo, hi)` that hold `val`. -/
def PackedVector.hits (v : PackedVector) (val : Bool) (lo hi : Nat) : Set Nat :=
  {i | lo ≤ i ∧ i < hi ∧ v.bit i = val}

theorem PackedVector.mem_hits {v : PackedVector} {val : Bool} {lo hi i : Nat} :
    i ∈ v.hits val lo hi ↔ lo ≤ i ∧ i < hi ∧ v.bit i = val := Iff.rfl

variable {v : PackedVector} {val : Bool} {f i : Nat}

theorem searchWord_getLsbD_index (h : v.wf = true) (val : Bool) (hi : chunk i < v.wordCount) :
    (searchWord v val (chunk i)).getLsbD (off i) = true ↔ i < v.size ∧ v.bit i = val := by
  rw [searchWord_getLsbD h val hi (off_lt i), chunk_add_off, Bool.and_eq_true, decide_eq_true_eq, beq_iff_eq]

/-! ### An answer that is an extreme index of a set, or none when the set is empty -/

theorem answer_eq_some {r : Option Nat} {S : Set Nat} {Extreme : Nat → Prop}
    (hspec : (∀ j, r = some j → Extreme j) ∧ (r = none → S = ∅)) (hi : i ∈ S) (hunique : ∀ j, Extreme j → j = i) :
    r = some i := by
  obtain ⟨hsome, hnone⟩ := hspec
  cases hr : r with
  | none => exact absurd (hnone hr ▸ hi) (Set.notMem_empty i)
  | some j => rw [hunique j (hsome j hr)]

theorem answer_eq_none {r : Option Nat} {S : Set Nat} (hmem : ∀ j, r = some j → j ∈ S) (hempty : S = ∅) : r = none := by
  cases hr : r with
  | none => rfl
  | some j => exact absurd (hempty ▸ hmem j hr) (Set.notMem_empty j)

/-! ### `IDXOF` -/

/-- The words `IDXOF` scans: the first one without the bits below the start (R163). -/
def wordsFrom (v : PackedVector) (val : Bool) (f k : Nat) : Word :=
  if k = chunk f then searchWord v val k &&& ~~~(low (off f)) else searchWord v val k

theorem firstIndex_of_lt (hf : f < v.size) :
    firstIndex v val f = scanUp (wordsFrom v val f) (v.wordCount - chunk f) (chunk f) := by
  rw [firstIndex, if_neg (by omega)]
  rfl

theorem wordsFrom_getLsbD (h : v.wf = true) (hlo : chunk f ≤ chunk i) (hi : chunk i < v.wordCount) :
    (wordsFrom v val f (chunk i)).getLsbD (off i) = true ↔ i ∈ v.hits val f v.size := by
  have hoff := off_lt i
  have hword := searchWord_getLsbD_index h val hi
  have hsplit := chunk_add_off i
  have hsplit' := chunk_add_off f
  have hoff' := off_lt f
  rw [PackedVector.mem_hits, wordsFrom]
  split
  · have hstart : f ≤ i ↔ ¬ off i < off f := by omega
    rw [BitVec.getLsbD_and, BitVec.getLsbD_not, low_getLsbD hoff'.le, Bool.and_eq_true, hword, hstart]
    simp [hoff, and_comm]
  · have hstart : f ≤ i := by omega
    rw [hword]
    simp [hstart]

/-- Everything the search for the first index can answer. -/
theorem firstIndex_spec (h : v.wf = true) (val : Bool) (f : Nat) :
    (∀ i, firstIndex v val f = some i → IsLeast (v.hits val f v.size) i) ∧
      (firstIndex v val f = none → v.hits val f v.size = ∅) := by
  by_cases hf : f < v.size
  · have hcount : chunk f < v.wordCount := chunk_lt_wordCount hf
    have hf' := chunk_add_off f
    have hbit : ∀ j, f ≤ j → j < v.size →
        ((wordsFrom v val f (chunk j)).getLsbD (off j) = true ↔ j ∈ v.hits val f v.size) := fun j hlo hhi =>
      wordsFrom_getLsbD h (by unfold chunk; omega) (chunk_lt_wordCount hhi)
    obtain ⟨hsome, hnone⟩ := scanUp_spec (wordsFrom v val f) (v.wordCount - chunk f) (chunk f)
    rw [firstIndex_of_lt hf]
    refine ⟨fun i hi => ?_, fun hscan => ?_⟩
    · obtain ⟨hlo, hhi, htrue, hbelow⟩ := hsome i hi
      refine ⟨(wordsFrom_getLsbD h (by unfold chunk at *; omega) (by omega)).1 htrue, fun j hj => ?_⟩
      obtain ⟨hlo', hhi', -⟩ := PackedVector.mem_hits.1 hj
      by_contra hlt
      have hzero := hbelow j (by omega) (by omega)
      rw [(hbit j hlo' hhi').2 hj] at hzero
      contradiction
    · refine Set.eq_empty_of_forall_notMem fun j hj => ?_
      obtain ⟨hlo, hhi, -⟩ := PackedVector.mem_hits.1 hj
      have hzero := hnone hscan j (by omega) (by have := chunk_lt_wordCount hhi; unfold PackedVector.wordCount; omega)
      rw [(hbit j hlo hhi).2 hj] at hzero
      contradiction
  · rw [firstIndex, if_pos (by omega)]
    refine ⟨fun i hi => by contradiction, fun _ => Set.eq_empty_of_forall_notMem fun j hj => ?_⟩
    obtain ⟨hlo, hhi, -⟩ := PackedVector.mem_hits.1 hj
    omega

theorem firstIndex_of_isLeast (h : v.wf = true) (hi : IsLeast (v.hits val f v.size) i) : firstIndex v val f = some i :=
  answer_eq_some (firstIndex_spec h val f) hi.1 fun _ hj => hj.unique hi

theorem firstIndex_of_no_hit (h : v.wf = true) (hno : v.hits val f v.size = ∅) : firstIndex v val f = none :=
  answer_eq_none (fun j hj => ((firstIndex_spec h val f).1 j hj).1) hno

/-! ### `LIDXOF` -/

/-- The words `LIDXOF` scans: the last one without the bits above the index `top` (R165). -/
def wordsUpTo (v : PackedVector) (val : Bool) (top k : Nat) : Word :=
  if k = chunk top then searchWord v val k &&& low (off top + 1) else searchWord v val k

theorem lastIndex_of_nonpos {t : Int} (ht : t ≤ 0) : lastIndex v val t = if v.bit 0 = val then some 0 else none := by
  rw [lastIndex, if_pos ht]

theorem lastIndex_of_pos (v : PackedVector) (val : Bool) (top : Nat) :
    lastIndex v val ((top + 1 : Nat) : Int) = scanDown (wordsUpTo v val top) (chunk top) := by
  rw [lastIndex, if_neg (by omega)]
  rfl

theorem wordsUpTo_getLsbD (h : v.wf = true) {top : Nat} (htop : top < v.size) (hi : chunk i ≤ chunk top) :
    (wordsUpTo v val top (chunk i)).getLsbD (off i) = true ↔ i ∈ v.hits val 0 (top + 1) := by
  have hword := searchWord_getLsbD_index h val (i := i) (hi.trans_lt (chunk_lt_wordCount htop))
  have hsplit := chunk_add_off i
  have hsplit' := chunk_add_off top
  have hoff := off_lt i
  have hoff' := off_lt top
  rw [PackedVector.mem_hits, wordsUpTo]
  split
  · have hend : i < top + 1 ↔ off i < off top + 1 := by omega
    rw [BitVec.getLsbD_and, low_getLsbD hoff', Bool.and_eq_true, hword, hend, decide_eq_true_eq]
    constructor
    · rintro ⟨⟨-, hval⟩, hlt⟩
      exact ⟨Nat.zero_le i, hlt, hval⟩
    · rintro ⟨-, hlt, hval⟩
      exact ⟨⟨by omega, hval⟩, hlt⟩
  · have hend : i < top + 1 := by omega
    rw [hword]
    simp [hend, hend.trans_le htop]

/-- Everything the search for the last index below a positive bound can answer. -/
theorem lastIndex_spec (h : v.wf = true) (val : Bool) {top : Nat} (htop : top < v.size) :
    (∀ i, lastIndex v val ((top + 1 : Nat) : Int) = some i → IsGreatest (v.hits val 0 (top + 1)) i) ∧
      (lastIndex v val ((top + 1 : Nat) : Int) = none → v.hits val 0 (top + 1) = ∅) := by
  obtain ⟨hsome, hnone⟩ := scanDown_spec (wordsUpTo v val top) (chunk top)
  have hbit : ∀ j, j ∈ v.hits val 0 (top + 1) →
      chunk j ≤ chunk top ∧ (wordsUpTo v val top (chunk j)).getLsbD (off j) = true := by
    intro j hj
    obtain ⟨-, hlt, -⟩ := PackedVector.mem_hits.1 hj
    have hle : chunk j ≤ chunk top := by unfold chunk; omega
    exact ⟨hle, (wordsUpTo_getLsbD h htop hle).2 hj⟩
  rw [lastIndex_of_pos]
  refine ⟨fun i hi => ?_, fun hscan => Set.eq_empty_of_forall_notMem fun j hj => ?_⟩
  · obtain ⟨hle, htrue, habove⟩ := hsome i hi
    refine ⟨(wordsUpTo_getLsbD h htop hle).1 htrue, fun j hj => ?_⟩
    obtain ⟨hle', htrue'⟩ := hbit j hj
    by_contra hlt
    have hzero := habove j hle' (by omega)
    rw [htrue'] at hzero
    contradiction
  · obtain ⟨hle, htrue⟩ := hbit j hj
    have hzero := hnone hscan j hle
    rw [htrue] at hzero
    contradiction

theorem lastIndex_of_isGreatest (h : v.wf = true) {top : Nat} (htop : top < v.size)
    (hi : IsGreatest (v.hits val 0 (top + 1)) i) : lastIndex v val ((top + 1 : Nat) : Int) = some i :=
  answer_eq_some (lastIndex_spec h val htop) hi.1 fun _ hj => hj.unique hi

theorem lastIndex_of_no_hit (h : v.wf = true) {top : Nat} (htop : top < v.size) (hno : v.hits val 0 (top + 1) = ∅) :
    lastIndex v val ((top + 1 : Nat) : Int) = none :=
  answer_eq_none (fun j hj => ((lastIndex_spec h val htop).1 j hj).1) hno

/-- The bound 1 leaves index 0 alone to check, as the bounds up to 0 do (R165). -/
theorem lastIndex_one (h : v.wf = true) (val : Bool) : lastIndex v val 1 = lastIndex v val 0 := by
  obtain ⟨hmin, -⟩ := (PackedVector.wf_iff v).1 h
  have hzero : ∀ j, j ∈ v.hits val 0 (0 + 1) → j = 0 := fun j hj => by
    obtain ⟨-, hlt, -⟩ := PackedVector.mem_hits.1 hj
    omega
  rw [lastIndex_of_nonpos le_rfl]
  split
  · rename_i hval
    exact lastIndex_of_isGreatest h hmin ⟨⟨le_rfl, one_pos, hval⟩, fun j hj => (hzero j hj).le⟩
  · rename_i hval
    refine lastIndex_of_no_hit h hmin (Set.eq_empty_of_forall_notMem fun j hj => hval ?_)
    obtain ⟨-, -, hj'⟩ := PackedVector.mem_hits.1 hj
    rwa [hzero j hj] at hj'

end Sys2Proof.Machine
end

section
/-! The counting and searching commands past their slot check (43_count_search.md). -/

namespace Sys2Proof.Machine
open Sys2Proof.Claims

/-! ### Operands and results -/

theorem scanStart_eq_adjustedStart (size : Nat) (w : Word) :
    (scanStart size (signedOperand w) : Int) = adjustedStart size w := by
  unfold scanStart adjustedStart signedOperand sext32
  dsimp only
  split_ifs <;> omega

theorem scanBound_eq_adjustedBound (size : Nat) (w : Word) : scanBound size (signedOperand w) = adjustedBound size w := rfl

theorem adjustedBound_le_size (size : Nat) (w : Word) : adjustedBound size w ≤ size := by
  unfold adjustedBound
  dsimp only
  split <;> omega

theorem indexWord_some (n : Nat) : indexWord (some n) = BitVec.ofNat 32 n := wordOf_natCast n

theorem indexWord_none : indexWord none = 0xFFFFFFFF := by decide

/-! ### The commands -/

section
variable {s : State} {va : Slot} {v : PackedVector} {w : Word}

theorem popc_answers (hslot : s.slot va = some v) (h : v.wf = true) :
    Answers (.popc va) s (BitVec.ofNat 32 ((List.range v.size).countP v.bit)) [] := by
  apply answers_of_ok
  show execPopc va s = _
  rw [execPopc, requireSlot_some hslot, check_ok_bind, populationCount_eq_countP h, wordOf_natCast]

theorem idxof_answers (hslot : s.slot va = some v) (val : Bool) (w : Word) :
    Answers (.idxof va val w) s (indexWord (firstIndex v val (scanStart v.size (signedOperand w)))) [] := by
  apply answers_of_ok
  show execIdxof va val w s = _
  rw [execIdxof, requireSlot_some hslot, check_ok_bind]

theorem exec_lidxof_of_slot (hslot : s.slot va = some v) (val : Bool) (w : Word) : exec (.lidxof va val w) s =
    s.finish (.ok { res := indexWord (lastIndex v val (adjustedBound v.size w)) }) := by
  show execLidxof va val w s = _
  rw [execLidxof, requireSlot_some hslot, check_ok_bind, scanBound_eq_adjustedBound]

theorem lidxof_answers (hslot : s.slot va = some v) (val : Bool) (w : Word) :
    Answers (.lidxof va val w) s (indexWord (lastIndex v val (adjustedBound v.size w))) [] :=
  answers_of_ok (exec_lidxof_of_slot hslot val w)

/-- A bound of at least 1 is the successor of an index of the vector. -/
theorem exists_adjustedBound_eq_succ (hpos : 1 ≤ adjustedBound v.size w) :
    ∃ top, top < v.size ∧ adjustedBound v.size w = ((top + 1 : Nat) : Int) := by
  have hle := adjustedBound_le_size v.size w
  exact ⟨(adjustedBound v.size w).toNat - 1, by omega, by omega⟩

end

end Sys2Proof.Machine
end

section
/-! The statements about counting and searching. -/

namespace Sys2Proof.Proofs
open Sys2Proof.Machine Sys2Proof.Claims

/-- Settles O42: the words that are counted have a 1 exactly at the logical indices whose bit is 1. -/
theorem popcCountsLogicalBits : Obligations.PopcCountsLogicalBits := by
  unfold Obligations.PopcCountsLogicalBits
  intro s va
  exact ⟨fun x y => decodes_of_row (op := 0x30) rfl (by decide) rfl (by simp), needsSlot_of_requireSlot rfl,
    fun v => popc_answers⟩

/-- Settles O43: the sequence ends with the sum of the lanes of width 1. -/
theorem swarEqualsPopcount : Obligations.SwarEqualsPopcount := by
  unfold Obligations.SwarEqualsPopcount
  intro w
  rw [← laneSum_two_toNat, ← toNat_popcountSWAR, BitVec.ofNat_toNat, BitVec.setWidth_eq]

/-- Settles O44: the leading-zero count of `x` finds its highest 1 bit, and that of `x & -x` the only 1 bit there. -/
theorem leadingZeroFormulas : Obligations.LeadingZeroFormulas := by
  unfold Obligations.LeadingZeroFormulas
  intro x hx
  obtain ⟨hisolated, hlowest⟩ := fls32_isolated hx
  have hffs : 31 - clz32 (x &&& -x) = ffs32 x := (clz32_eq hisolated).trans hlowest
  obtain ⟨-, hlow, hbelow⟩ := ffs32_spec hx
  obtain ⟨-, hhigh, habove⟩ := fls32_spec hx
  rw [hffs, clz32_eq hx]
  exact ⟨⟨hlow, hbelow, rfl⟩, hhigh, habove, rfl⟩

/-- Settles O45: the scan answers the least hit from the adjusted start on. -/
theorem idxofFindsLeastIndex : Obligations.IdxofFindsLeastIndex := by
  unfold Obligations.IdxofFindsLeastIndex
  intro s va val fromIndex
  refine ⟨fun x => decodes_of_row (op := 0x31) rfl (by decide) rfl (by simp), needsSlot_of_requireSlot rfl,
    fun v hv hwf => ?_⟩
  have hanswers := idxof_answers hv val fromIndex
  simp only [← scanStart_eq_adjustedStart, Int.ofNat_le]
  generalize scanStart v.size (signedOperand fromIndex) = f at *
  constructor
  · intro i hi hstart hval hleast
    have hfirst : IsLeast (v.hits val f v.size) i := by
      refine ⟨⟨hstart, hi, hval⟩, fun j ⟨hlo, _, hj⟩ => ?_⟩
      by_contra hlt
      exact hleast j (by omega) hlo hj
    rwa [firstIndex_of_isLeast hwf hfirst, indexWord_some] at hanswers
  · intro hno
    have hempty : v.hits val f v.size = ∅ :=
      Set.eq_empty_of_forall_notMem fun j ⟨hlo, hhi, hj⟩ => hno j hhi hlo hj
    rwa [firstIndex_of_no_hit hwf hempty, indexWord_none] at hanswers

/-- Settles O46: the scan answers the greatest hit below the adjusted bound. -/
theorem lidxofFindsGreatestIndex : Obligations.LidxofFindsGreatestIndex := by
  unfold Obligations.LidxofFindsGreatestIndex
  intro s va val fromIndex
  refine ⟨fun x => decodes_of_row (op := 0x32) rfl (by decide) rfl (by simp), needsSlot_of_requireSlot rfl,
    fun v hv hwf => ?_⟩
  have hanswers := lidxof_answers hv val fromIndex
  constructor
  · intro hbound
    rw [lastIndex_of_nonpos hbound, apply_ite indexWord, indexWord_some, indexWord_none] at hanswers
    exact hanswers
  · intro hbound
    obtain ⟨top, htop, heq⟩ := exists_adjustedBound_eq_succ hbound
    rw [heq] at hanswers ⊢
    simp only [Int.ofNat_lt]
    constructor
    · intro i hi hval hgreatest
      have hlast : IsGreatest (v.hits val 0 (top + 1)) i := by
        refine ⟨⟨Nat.zero_le i, hi, hval⟩, fun j ⟨_, hhi, hj⟩ => ?_⟩
        by_contra hlt
        exact hgreatest j (by omega) hhi hj
      rwa [lastIndex_of_isGreatest hwf htop hlast, indexWord_some] at hanswers
    · intro hno
      have hempty : v.hits val 0 (top + 1) = ∅ :=
        Set.eq_empty_of_forall_notMem fun j ⟨_, hhi, hj⟩ => hno j hhi hj
      rwa [lastIndex_of_no_hit hwf htop hempty, indexWord_none] at hanswers

/-- Settles O47: on a vector of at least one bit the bounds 0 and 1 stay as they are, and both leave index 0 to check. -/
theorem flsQuirkIsBoundOne : Obligations.FlsQuirkIsBoundOne := by
  unfold Obligations.FlsQuirkIsBoundOne
  intro s va v fromIndex hv hwf
  refine ⟨rfl, rfl, ?_⟩
  obtain ⟨hmin, -⟩ := (PackedVector.wf_iff v).1 hwf
  have hzero : adjustedBound v.size 0 = 0 := by simp [adjustedBound]
  have hone : adjustedBound v.size 1 = 1 := by simp [adjustedBound]; omega
  rw [pseudoFls, pseudoFls, exec_lidxof_of_slot hv, exec_lidxof_of_slot hv, hzero, hone, lastIndex_one hwf]

end Sys2Proof.Proofs
end

section
/-! The word-level walk of `TIDX` (44_iteration.md R184): in every word it emits the 1 bits from the lowest up, and it
stops as a whole at the first index that reaches the end. -/

namespace Sys2Proof.Machine

/-! ### The walk of one word -/

/-- The indices of word `k` at which the local copy `x` holds a 1, ascending. -/
def wordIndices (k : Nat) (x : Word) : List Nat := (setPositions x).map (32 * k + ·)

theorem wordIndices_zero (k : Nat) : wordIndices k 0 = [] := by
  have hnone : setPositions 0 = [] := by decide
  rw [wordIndices, hnone, List.map_nil]

/-- Clearing the lowest 1 bit takes the least index off. -/
theorem wordIndices_of_ne_zero (k : Nat) {x : Word} (hx : x ≠ 0) :
    wordIndices k x = (32 * k + ffs32 x) :: wordIndices k (x ^^^ (x &&& -x)) := by
  rw [wordIndices, setPositions_step hx, List.map_cons, wordIndices]

theorem wordIndices_length_le (k : Nat) (x : Word) : (wordIndices k x).length ≤ 32 := by
  rw [wordIndices, List.length_map]
  exact (List.length_filter_le _ _).trans List.length_range.le

theorem wordIndices_sorted (k : Nat) (x : Word) : (wordIndices k x).Pairwise (· < ·) :=
  List.pairwise_map.2 ((setPositions_sorted x).imp fun h => Nat.add_lt_add_left h _)

theorem mem_wordIndices {k i : Nat} {x : Word} : i ∈ wordIndices k x ↔ chunk i = k ∧ x.getLsbD (off i) = true := by
  simp only [wordIndices, List.mem_map, mem_setPositions]
  constructor
  · rintro ⟨b, ⟨hb, hbit⟩, rfl⟩
    rw [chunk_of_index hb, off_of_index hb]
    exact ⟨rfl, hbit⟩
  · rintro ⟨rfl, hbit⟩
    exact ⟨off i, ⟨off_lt i, hbit⟩, chunk_add_off i⟩

/-- R164's formula names the bit that is isolated and cleared. -/
theorem isolated_position {x : Word} (hx : x ≠ 0) : 31 - clz32 (x &&& -x) = ffs32 x := by
  obtain ⟨hisolated, hlowest⟩ := fls32_isolated hx
  rw [clz32_eq hisolated, hlowest]

theorem walkWord_of_ne_zero (k stop fuel : Nat) {x : Word} (hx : x ≠ 0) : walkWord k stop (fuel + 1) x =
    if 32 * k + ffs32 x ≥ stop then ([], true)
    else
      ((32 * k + ffs32 x) :: (walkWord k stop fuel (x ^^^ (x &&& -x))).1,
        (walkWord k stop fuel (x ^^^ (x &&& -x))).2) := by
  rw [← isolated_position hx, walkWord, if_neg hx]

/-- With enough fuel the walk emits the word's indices up to the first that reaches `stop`, and says whether there is
one. -/
theorem walkWord_eq (k stop : Nat) {fuel : Nat} {x : Word} (hfuel : (wordIndices k x).length ≤ fuel) :
    walkWord k stop fuel x = ((wordIndices k x).takeWhile (· < stop), (wordIndices k x).any (stop ≤ ·)) := by
  induction fuel generalizing x with
  | zero =>
    rw [List.eq_nil_of_length_eq_zero (Nat.le_zero.1 hfuel)]
    rfl
  | succ fuel ih =>
    by_cases hx : x = 0
    · rw [walkWord, if_pos hx, hx, wordIndices_zero]
      rfl
    · rw [wordIndices_of_ne_zero k hx, List.length_cons, Nat.add_le_add_iff_right] at hfuel
      rw [walkWord_of_ne_zero k stop fuel hx, wordIndices_of_ne_zero k hx]
      by_cases hstop : stop ≤ 32 * k + ffs32 x
      · simp [hstop]
      · simp [hstop, Nat.lt_of_not_le hstop, ih hfuel]

/-! ### The walk of the words -/

/-- The indices the walk meets in the `n` words from `k` on, before it looks at the end. -/
def walkCandidates (v : PackedVector) (start n k : Nat) : List Nat :=
  (List.range' k n).flatMap fun j => wordIndices j (walkCopy v start j)

theorem walkCandidates_succ (v : PackedVector) (start n k : Nat) : walkCandidates v start (n + 1) k =
    wordIndices k (walkCopy v start k) ++ walkCandidates v start n (k + 1) := by
  rw [walkCandidates, List.range'_succ, List.flatMap_cons, walkCandidates]

theorem walkCandidates_sorted (v : PackedVector) (start n k : Nat) : (walkCandidates v start n k).Pairwise (· < ·) := by
  refine List.pairwise_flatMap.2 ⟨fun j _ => wordIndices_sorted j _, ?_⟩
  refine (List.pairwise_lt_range' 1).imp fun hjk a ha b hb => ?_
  obtain ⟨hchunk, -⟩ := mem_wordIndices.1 ha
  obtain ⟨hchunk', -⟩ := mem_wordIndices.1 hb
  unfold chunk at hchunk hchunk'
  omega

/-- Whether a list reaches `stop` decides whether the indices below `stop` end inside it. -/
theorem takeWhile_lt_append (stop : Nat) (l r : List Nat) : (l ++ r).takeWhile (· < stop) =
    if l.any (stop ≤ ·) then l.takeWhile (· < stop) else l.takeWhile (· < stop) ++ r.takeWhile (· < stop) := by
  induction l with
  | nil => rfl
  | cons i l ih =>
    by_cases hi : stop ≤ i
    · simp [hi]
    · have hkept (m : List Nat) : (i :: m).takeWhile (· < stop) = i :: m.takeWhile (· < stop) :=
        List.takeWhile_cons_of_pos (decide_eq_true (Nat.lt_of_not_le hi))
      rw [List.cons_append, hkept, hkept, ih, List.any_cons, decide_eq_false hi, Bool.false_or, apply_ite (List.cons i),
        List.cons_append]

theorem walkWords_eq (v : PackedVector) (start stop n k : Nat) :
    walkWords v start stop n k = (walkCandidates v start n k).takeWhile (· < stop) := by
  induction n generalizing k with
  | zero => rfl
  | succ n ih =>
    rw [walkWords, walkWord_eq k stop (wordIndices_length_le k _), ih, walkCandidates_succ, takeWhile_lt_append]

/-- In an ascending list nothing below `stop` follows the first element that reaches it. -/
theorem mem_takeWhile_lt_of_sorted {stop i : Nat} {l : List Nat} (h : l.Pairwise (· < ·)) :
    i ∈ l.takeWhile (· < stop) ↔ i ∈ l ∧ i < stop := by
  induction l with
  | nil => simp
  | cons j l ih =>
    obtain ⟨hj, hl⟩ := List.pairwise_cons.1 h
    by_cases hstop : j < stop
    · rw [List.takeWhile_cons_of_pos (by simpa using hstop), List.mem_cons, List.mem_cons, ih hl]
      constructor
      · rintro (rfl | ⟨hi, hlt⟩)
        · exact ⟨.inl rfl, hstop⟩
        · exact ⟨.inr hi, hlt⟩
      · rintro ⟨rfl | hi, hlt⟩
        · exact .inl rfl
        · exact .inr ⟨hi, hlt⟩
    · rw [List.takeWhile_cons_of_neg (by simpa using hstop)]
      have hmin : ∀ i ∈ j :: l, stop ≤ i :=
        List.forall_mem_cons.2 ⟨Nat.le_of_not_lt hstop, fun i hi => (Nat.le_of_not_lt hstop).trans (hj i hi).le⟩
      exact ⟨fun hi => absurd hi List.not_mem_nil, fun ⟨hi, hlt⟩ => absurd hlt (Nat.not_lt.2 (hmin i hi))⟩

/-! ### The walk against the definition (R181) -/

theorem setIndices_sorted (v : PackedVector) (start stop : Nat) : (setIndices v start stop).Pairwise (· < ·) :=
  List.Pairwise.filter _ List.pairwise_lt_range'

/-- The local copies of the walk are the words `IDXOF` scans for true. -/
theorem walkCopy_eq_wordsFrom (v : PackedVector) (start k : Nat) : walkCopy v start k = wordsFrom v true start k := by
  rw [walkCopy, wordsFrom, searchWord, if_pos rfl]

theorem mem_walkCandidates {v : PackedVector} (h : v.wf = true) {start n i : Nat} (hi : i < v.size) :
    i ∈ walkCandidates v start n (chunk start) ↔ chunk i < chunk start + n ∧ start ≤ i ∧ v.bit i = true := by
  have hcopy (hlo : chunk start ≤ chunk i) : (walkCopy v start (chunk i)).getLsbD (off i) = true ↔
      start ≤ i ∧ v.bit i = true := by
    rw [walkCopy_eq_wordsFrom, wordsFrom_getLsbD h hlo (chunk_lt_wordCount hi), PackedVector.mem_hits]
    simp only [hi, true_and]
  simp only [walkCandidates, List.mem_flatMap, List.mem_range'_1, mem_wordIndices]
  constructor
  · rintro ⟨_, ⟨hlo, hhi⟩, rfl, hbit⟩
    exact ⟨hhi, (hcopy hlo).1 hbit⟩
  · rintro ⟨hhi, hstart, hbit⟩
    have hlo : chunk start ≤ chunk i := Nat.div_le_div_right hstart
    exact ⟨chunk i, ⟨hlo, hhi⟩, rfl, (hcopy hlo).2 ⟨hstart, hbit⟩⟩

/-- The walk visits every word that holds an index of the interval. -/
theorem chunk_lt_of_index {start stop i : Nat} (hstart : start ≤ i) (hstop : i < stop) :
    chunk i < chunk start + (chunk (stop - 1) + 1 - chunk start) := by
  unfold chunk
  omega

theorem mem_walkIndices {v : PackedVector} (h : v.wf = true) {start stop i : Nat} (hstop : stop ≤ v.size) :
    i ∈ walkIndices v start stop ↔ start ≤ i ∧ i < stop ∧ v.bit i = true := by
  rw [walkIndices, walkWords_eq, mem_takeWhile_lt_of_sorted (walkCandidates_sorted v start _ _)]
  constructor
  · rintro ⟨hi, hlt⟩
    obtain ⟨-, hstart, hbit⟩ := (mem_walkCandidates h (hlt.trans_le hstop)).1 hi
    exact ⟨hstart, hlt, hbit⟩
  · rintro ⟨hstart, hlt, hbit⟩
    exact ⟨(mem_walkCandidates h (hlt.trans_le hstop)).2 ⟨chunk_lt_of_index hstart hlt, hstart, hbit⟩, hlt⟩

theorem walkIndices_sorted (v : PackedVector) (start stop : Nat) : (walkIndices v start stop).Pairwise (· < ·) := by
  rw [walkIndices, walkWords_eq]
  exact (walkCandidates_sorted v start _ _).sublist (List.takeWhile_sublist _)

end Sys2Proof.Machine
end

section
/-! `TIDX` past its slot check, verdict by verdict (44_iteration.md R181). -/

namespace Sys2Proof.Machine
open Sys2Proof.Claims

variable {s : State} {va : Slot} {v : PackedVector} {start stop : Word} {b e : Nat}

theorem tidx_raises_of_start_outside (hslot : s.slot va = some v) (hstart : Outside start v.size) :
    Raises (.tidx va start stop) s 0x42 start (BitVec.ofNat 32 v.size) :=
  raises_of_index_outside (i := .tidx va start stop) rfl hslot hstart

theorem exec_tidx_of_start (hslot : s.slot va = some v) (hstart : Spells start b) (hb : b < v.size) :
    exec (.tidx va start stop) s = s.finish (validate (signedOperand stop) (v.size + 1) >>= fun e =>
      .ok { res := wordOf (setIndices v b e).length, beats := (setIndices v b e).map fun i => wordOf (i : Nat) }) :=
  exec_of_index (i := .tidx va start stop) rfl hslot hstart hb

theorem tidx_raises_of_stop_outside (hslot : s.slot va = some v) (hstart : ¬Outside start v.size)
    (hstop : Outside stop (v.size + 1)) :
    Raises (.tidx va start stop) s 0x42 stop (BitVec.ofNat 32 (v.size + 1)) := by
  obtain ⟨b, hb, hlt⟩ := spells_of_not_outside hstart
  apply raises_of_error (statusWord_values .indexBounds)
  rw [exec_tidx_of_start hslot hb hlt, validate_of_outside hstop, check_error_bind]

theorem tidx_answers (hslot : s.slot va = some v) (hstart : Spells start b) (hstop : Spells stop e) (hb : b < v.size)
    (he : e ≤ v.size) : Answers (.tidx va start stop) s (BitVec.ofNat 32 (setIndices v b e).length)
      ((setIndices v b e).map fun i => BitVec.ofNat 32 i) := by
  apply answers_of_ok
  rw [exec_tidx_of_start hslot hstart hb, validate_of_spells hstop (Nat.lt_succ_of_le he), check_ok_bind]
  simp only [wordOf_natCast]

end Sys2Proof.Machine
end

section
/-! The statements about enumeration. -/

namespace Sys2Proof.Proofs
open Sys2Proof.Machine Sys2Proof.Claims

/-- Settles O48: past the three checks the answer is the filtered interval of indices. -/
theorem tidxEnumeratesSetIndices : Obligations.TidxEnumeratesSetIndices := by
  unfold Obligations.TidxEnumeratesSetIndices
  intro s va start stop
  exact ⟨decodes_of_row (op := 0x40) rfl (by decide) rfl (by simp), needsSlot_of_requireSlot rfl, fun v hv =>
    ⟨tidx_raises_of_start_outside hv, tidx_raises_of_stop_outside hv, fun b e hstart hstop hb he =>
      ⟨setIndices v b e, tidx_answers hv hstart hstop hb he, setIndices_sorted v b e, fun _ => mem_setIndices⟩⟩⟩

/-- Settles O49: both lists are ascending and hold the set indices of the interval. -/
theorem tidxWordWalkIsTheDefinition : Obligations.TidxWordWalkIsTheDefinition := by
  unfold Obligations.TidxWordWalkIsTheDefinition
  intro v start stop h _ hstop
  refine (walkIndices_sorted v start stop).eq_of_mem_iff (setIndices_sorted v start stop) fun i => ?_
  rw [mem_walkIndices h hstop, mem_setIndices]

end Sys2Proof.Proofs
end

section
/-! How a command reports an error: the `STATUS` words a legal command can end with (60_exceptions.md R204), and the slot
checks, which come before every operand check (60_exceptions.md R205, R211). -/

namespace Sys2Proof.Machine
open Sys2Proof.Claims

/-! ### The `STATUS` words of a legal command's errors -/

/-- `statusValues` without the success word 0 and without `IllegalCommand`, which only the decode stage raises (R204). -/
theorem statusWord_mem_commandErrors {c : Cause} (h : c.ofCommand) :
    statusWord c ∈ ([0x32, 0x42, 0x52, 0x62, 0x72, 0xA3] : List Word) := by
  obtain rfl | rfl | rfl | rfl | rfl | rfl := h <;> decide

/-! ### The slot checks of a command -/

/-- The result of a command that checks the given slots in order before anything else; `exec_checksSlots` ties it to the
commands. -/
inductive ChecksSlots (s : State) : List Slot → Except Failure Effect → Prop where
  /-- Every slot is checked; what follows is free. -/
  | done (r : Except Failure Effect) : ChecksSlots s [] r
  /-- The next slot is checked before the rest of the command sees its vector. -/
  | slot {a : Slot} {as : List Slot} {g : PackedVector → Except Failure Effect} (rest : ∀ v, ChecksSlots s as (g v)) :
      ChecksSlots s (a :: as) (requireSlot s a >>= g)

/-- A vector in a checked slot lets the command go on to the next check, so the first empty slot is the one reported. -/
theorem ChecksSlots.eq_error_of_first_empty {s : State} {as : List Slot} {r : Except Failure Effect} {a : Slot}
    (h : ChecksSlots s as r) (hfirst : as.find? (fun b => (s.slot b).isNone) = some a) :
    r = .error ⟨.slotInvalid, BitVec.ofNat 32 a.val, 0⟩ := by
  induction h with
  | done r => simp at hfirst
  | @slot b as g _ ih =>
    cases hb : s.slot b with
    | none =>
      obtain rfl : b = a := by simpa [hb] using hfirst
      rw [requireSlot_none hb, check_error_bind]
    | some v =>
      rw [requireSlot_some hb, check_ok_bind]
      exact ih v (by simpa [hb] using hfirst)

/-- Every command checks the slots R211 lists for it, in that order, before its operands. -/
theorem exec_checksSlots (i : Instr) (s : State) : ∃ r, exec i s = s.finish r ∧ ChecksSlots s (checkedSlots i) r := by
  cases i with
  | free vd => exact ⟨.ok { update := some (vd, none) }, rfl, .done _⟩
  | create _ _ | loadw _ _ _ => exact ⟨_, rfl, .done _⟩
  | copy _ _ | vsize _ | rdw _ _ | getb _ _ | setb _ _ _ | tglb _ _ | getr _ _ _ | setr _ _ _ _ | fill _ _ | not _ _
  | popc _ | idxof _ _ _ | lidxof _ _ _ | tidx _ _ _ => exact ⟨_, rfl, .slot fun _ => .done _⟩
  | and _ _ _ | or _ _ _ | xor _ _ _ | nand _ _ _ | nor _ _ _ | xnor _ _ _ | diff _ _ _ | eq _ _ =>
    exact ⟨_, rfl, .slot fun _ => .slot fun _ => .done _⟩

theorem raises_of_first_empty_slot {i : Instr} {s : State} {a : Slot}
    (hfirst : (checkedSlots i).find? (fun b => (s.slot b).isNone) = some a) :
    Raises i s 0xA3 (BitVec.ofNat 32 a.val) 0 := by
  obtain ⟨r, hexec, hchecks⟩ := exec_checksSlots i s
  rw [hchecks.eq_error_of_first_empty hfirst] at hexec
  exact raises_of_error (statusWord_values .slotInvalid) hexec

end Sys2Proof.Machine
end

section
/-! The statements about how commands report errors. -/

namespace Sys2Proof.Proofs
open Sys2Proof.Machine

/-- Settles O19: a command that does not raise an error ends with the success response, whether or not it writes a slot. -/
theorem responseIsSuccessOrFailure : Obligations.ResponseIsSuccessOrFailure := by
  unfold Obligations.ResponseIsSuccessOrFailure
  intro i s t h
  obtain ⟨f, hf, rfl⟩ | ⟨res, beats, rfl⟩ | ⟨d, v, res, beats, -, rfl, -⟩ := exec_cases h
  · exact .inr ⟨statusWord_mem_commandErrors hf, s.raise_failed f.cause f.val f.lim _ rfl⟩
  · exact .inl ⟨rfl, rfl, rfl⟩
  · exact .inl ⟨rfl, rfl, rfl⟩

/-- Settles O21: the slot checks of every command are those of R211 and come first. -/
theorem emptySlotRaisesSlotInvalid : Obligations.EmptySlotRaisesSlotInvalid := by
  unfold Obligations.EmptySlotRaisesSlotInvalid
  intro i s a hfirst
  exact raises_of_first_empty_slot hfirst

end Sys2Proof.Proofs
end

section
/-! Reset as the host's oldest action (70_reset_and_hazards.md R230). -/

namespace Sys2Proof.Machine

/-- Reset is applied from every state, once its action is taken from the inbox (R230; log 16). -/
theorem step_of_inbox_reset {s : State} {rest : List HostEvent} (h : s.inbox = .reset :: rest) :
    step s = .next (State.applyReset { s with inbox := rest }) :=
  step_of_inbox_cons h

end Sys2Proof.Machine
end

section
/-! The statements about reset. -/

namespace Sys2Proof.Proofs
open Sys2Proof.Machine

/-- Settles O12: the step is `State.applyReset`, whose rules are R230's list. -/
theorem resetEmptiesTheEngine : Obligations.ResetEmptiesTheEngine := by
  unfold Obligations.ResetEmptiesTheEngine
  intro s rest hin
  exact ⟨_, step_of_inbox_reset hin, State.applyReset_slot _, State.applyReset_status _, State.applyReset_res _,
    State.applyReset_errval _, State.applyReset_errlim _, State.applyReset_payload _, State.applyReset_out _,
    State.applyReset_cfg _, State.applyReset_maxsz _⟩

/-- Settles O13: taking the action leaves the rest of the inbox, which `State.applyReset` keeps with the free-value count. -/
theorem resetKeepsTheHostsActions : Obligations.ResetKeepsTheHostsActions := by
  unfold Obligations.ResetKeepsTheHostsActions
  intro s rest hin
  exact ⟨_, step_of_inbox_reset hin, State.applyReset_inbox _, State.applyReset_freeCount _, State.applyReset_arg0 _,
    State.applyReset_arg1 _⟩

end Sys2Proof.Proofs
end
